-- ==== Sys2Proof/Word.lean ====
section
/-! DEFINITION. The widths of the block (R7) and the enumerations its encodings are indexed by. -/

namespace Sys2Proof

/-- A buffer element, wire byte, command byte or port byte: 8 bits (R7). -/
abbrev Byte := BitVec 8

/-- The CRC accumulator and every entry of TABLE: 16 bits (R7). -/
abbrev Word := BitVec 16

/-- A diagnostic text: a byte string, one byte a character, no terminator (R63, D12). -/
abbrev Text := List Byte

/-- The parser state (R14). `done`, `timeout` and `overflow` are terminal. -/
inductive PState where
  | awaitingFirstDelimiter
  | awaitingData
  | escaped
  | done
  | timeout
  | overflow
  deriving DecidableEq, Repr

/-- What `SERIAL.receive` answers inside a parse: one byte, or the timeout event `Tick` (R30, D8). -/
inductive SerialInput where
  | byte (b : Byte)
  | tick
  deriving DecidableEq, Repr

end Sys2Proof
end

