-- ==== Sys2Proof/Syntax.lean ====
section
/-! DEFINITION. The operations of the block: one constructor for every row of spec/opcode_table.json (R2, R67, R69, R70, R77). -/

namespace Sys2Proof

/-- The operations. An operand is what the spec lists under "Operands" and the operation does not find in the state;
bits of a command byte that the row ignores (U3) are kept, so that no bit of an encoding is lost (log entry 13). -/
inductive Instr where
  /-- R202: a data frame with the flex flag; `port` is b0[7:6] and `b4` is b0[4], both ignored. -/
  | dataFlex (port : BitVec 2) (b4 : BitVec 1)
  /-- R204: a data frame without the flex flag. -/
  | dataNoflag (port : BitVec 2) (b4 : BitVec 1)
  /-- R210: link reset; `hi` is b0[7:4], ignored. -/
  | reset (hi : BitVec 4)
  /-- R214: unknown command 0x1. -/
  | unknown1 (hi : BitVec 4)
  /-- R214: unknown command 0x2. -/
  | unknown2 (hi : BitVec 4)
  /-- R214: unknown command 0x3. -/
  | unknown3 (hi : BitVec 4)
  /-- R214: unknown command 0x4. -/
  | unknown4 (hi : BitVec 4)
  /-- R214: unknown command 0x5. -/
  | unknown5 (hi : BitVec 4)
  /-- R214: unknown command 0x6. -/
  | unknown6 (hi : BitVec 4)
  /-- R214: unknown command 0x7. -/
  | unknown7 (hi : BitVec 4)
  /-- R214: unknown command 0x8. -/
  | unknown8 (hi : BitVec 4)
  /-- R214: unknown command 0x9. -/
  | unknown9 (hi : BitVec 4)
  /-- R214: unknown command 0xA. -/
  | unknownA (hi : BitVec 4)
  /-- R214: unknown command 0xB. -/
  | unknownB (hi : BitVec 4)
  /-- R214: unknown command 0xC. -/
  | unknownC (hi : BitVec 4)
  /-- R214: unknown command 0xD. -/
  | unknownD (hi : BitVec 4)
  /-- R214: unknown command 0xE. -/
  | unknownE (hi : BitVec 4)
  /-- R171 -/
  | afdFend
  /-- R172: `b` is any byte but 0xC0. -/
  | afdSkip (b : Byte)
  /-- R173 -/
  | adFend
  /-- R175 -/
  | adFesc
  /-- R174: `b` is any byte but 0xC0 and 0xDB. -/
  | adData (b : Byte)
  /-- R176 -/
  | escTfend
  /-- R177 -/
  | escTfesc
  /-- R179: `b` is any byte but 0xDC and 0xDD. -/
  | escBad (b : Byte)
  /-- R184: the input `Tick`. -/
  | parseTimeout
  /-- R121 -/
  | stuffFend
  /-- R122 -/
  | stuffFesc
  /-- R123: `b` is any byte but 0xC0 and 0xDB. -/
  | stuffLit (b : Byte)
  /-- R101: the span the CRC runs over. -/
  | crcUpdate (span : List Byte)
  /-- R231 -/
  | pollRadio
  /-- R142: `p` is the radio's count, above 0. -/
  | relay (p : Nat)
  /-- R233 -/
  | pollSerial
  /-- R170 -/
  | parseStart
  /-- R150: the ASCII text of a diagnostic frame. -/
  | diag (text : Text)
  /-- R200 -/
  | dispatch
  /-- R216 -/
  | emptyFrame
  deriving DecidableEq, Repr

end Sys2Proof
end

