-- ==== Sys2Proof/WellFormed.lean ====
section
/-! DEFINITION. Which operand values an operation's row admits: the "any other byte" rows (R69, R70), the count of
RELAY (R142: `p > 0`) and the ASCII text of DIAG (R63). -/

namespace Sys2Proof

/-- A text is ASCII: every byte is below 0x80 (R63, R255, D12). -/
def isAscii (t : Text) : Bool := t.all fun b => decide (b.toNat < 0x80)

/-- The operand checks of each row; a row whose operands are free of conditions is always well formed. -/
def Instr.wf : Instr → Bool
  | .dataFlex _ _ => true
  | .dataNoflag _ _ => true
  | .reset _ => true
  | .unknown1 _ => true
  | .unknown2 _ => true
  | .unknown3 _ => true
  | .unknown4 _ => true
  | .unknown5 _ => true
  | .unknown6 _ => true
  | .unknown7 _ => true
  | .unknown8 _ => true
  | .unknown9 _ => true
  | .unknownA _ => true
  | .unknownB _ => true
  | .unknownC _ => true
  | .unknownD _ => true
  | .unknownE _ => true
  | .afdFend => true
  | .afdSkip b => b != 0xC0
  | .adFend => true
  | .adFesc => true
  | .adData b => b != 0xC0 && b != 0xDB
  | .escTfend => true
  | .escTfesc => true
  | .escBad b => b != 0xDC && b != 0xDD
  | .parseTimeout => true
  | .stuffFend => true
  | .stuffFesc => true
  | .stuffLit b => b != 0xC0 && b != 0xDB
  | .crcUpdate _ => true
  | .pollRadio => true
  | .relay p => decide (0 < p)
  | .pollSerial => true
  | .parseStart => true
  | .diag text => isAscii text
  | .dispatch => true
  | .emptyFrame => true

end Sys2Proof
end

