-- ==== Sys2Proof/Decode.lean ====
section
/-! DEFINITION. Decoding. The block fetches no instruction words (R40, R54): its encodings are a byte or `Tick` in a
context (30_encoding.md). `Code` is such an encoding; `decode` is total on codes, and the internal operations of R77 have none. -/

namespace Sys2Proof

/-- FEND, the frame delimiter (R60). -/
def fend : Byte := 0xC0
/-- FESC, the escape byte (R60). -/
def fesc : Byte := 0xDB
/-- TFEND, the escaped delimiter (R60). -/
def tfend : Byte := 0xDC
/-- TFESC, the escaped escape (R60). -/
def tfesc : Byte := 0xDD

/-- An encoded operation: a command byte at the head of a finished frame (R67), an input in a parser state (R69), or
a byte at the stuffer (R70). -/
inductive Code where
  | command (b0 : Byte)
  | parser (st : PState) (x : SerialInput)
  | stuffer (b : Byte)
  deriving DecidableEq, Repr

/-- Why a code is rejected. -/
inductive DecodeError where
  /-- A terminal parser state takes no input (R181: "never reads after a terminal state"). -/
  | terminalState (st : PState)
  deriving DecidableEq, Repr

/-- `cmd = b0[3:0]` (R66). -/
def cmdOf (b0 : Byte) : BitVec 4 := b0.extractLsb' 0 4
/-- `flex = b0[5]` (R66). -/
def flexOf (b0 : Byte) : Bool := b0.getLsbD 5
/-- `b0[7:6]`, ignored (R66). -/
def portOf (b0 : Byte) : BitVec 2 := b0.extractLsb' 6 2
/-- `b0[4]`, ignored (R66). -/
def bit4Of (b0 : Byte) : BitVec 1 := b0.extractLsb' 4 1
/-- `b0[7:4]`, ignored by RESET and UNKNOWN_c (R67). -/
def highOf (b0 : Byte) : BitVec 4 := b0.extractLsb' 4 4

/-- Command decode (R67): one row by `cmd`, and for `cmd = 0` by `flex`. The last arm is `cmd = 0xF`. -/
def decodeCommand (b0 : Byte) : Instr :=
  match (cmdOf b0).toNat with
  | 0 => if flexOf b0 then .dataFlex (portOf b0) (bit4Of b0) else .dataNoflag (portOf b0) (bit4Of b0)
  | 0x1 => .unknown1 (highOf b0)
  | 0x2 => .unknown2 (highOf b0)
  | 0x3 => .unknown3 (highOf b0)
  | 0x4 => .unknown4 (highOf b0)
  | 0x5 => .unknown5 (highOf b0)
  | 0x6 => .unknown6 (highOf b0)
  | 0x7 => .unknown7 (highOf b0)
  | 0x8 => .unknown8 (highOf b0)
  | 0x9 => .unknown9 (highOf b0)
  | 0xA => .unknownA (highOf b0)
  | 0xB => .unknownB (highOf b0)
  | 0xC => .unknownC (highOf b0)
  | 0xD => .unknownD (highOf b0)
  | 0xE => .unknownE (highOf b0)
  | _ => .reset (highOf b0)

/-- Parser input decode (R69, and R184 for `Tick`): the rows of a state in the order listed, the first match wins. -/
def decodeParser (st : PState) (x : SerialInput) : Except DecodeError Instr :=
  match st, x with
  | .awaitingFirstDelimiter, .byte b => .ok (if b = fend then .afdFend else .afdSkip b)
  | .awaitingData, .byte b => .ok (if b = fend then .adFend else if b = fesc then .adFesc else .adData b)
  | .escaped, .byte b => .ok (if b = tfend then .escTfend else if b = tfesc then .escTfesc else .escBad b)
  | .awaitingFirstDelimiter, .tick => .ok .parseTimeout
  | .awaitingData, .tick => .ok .parseTimeout
  | .escaped, .tick => .ok .parseTimeout
  | .done, _ => .error (.terminalState .done)
  | .timeout, _ => .error (.terminalState .timeout)
  | .overflow, _ => .error (.terminalState .overflow)

/-- Stuffer input class (R70). -/
def decodeStuffer (b : Byte) : Instr :=
  if b = fend then .stuffFend else if b = fesc then .stuffFesc else .stuffLit b

/-- The operation a code stands for, or the reason it stands for none. -/
def decode : Code → Except DecodeError Instr
  | .command b0 => .ok (decodeCommand b0)
  | .parser st x => decodeParser st x
  | .stuffer b => .ok (decodeStuffer b)

/-- The command byte with fields `b0[7:6]`, `b0[5]`, `b0[4]` and `b0[3:0]` (R66). -/
def dataByte (port : BitVec 2) (flex b4 : BitVec 1) : Byte := port ++ flex ++ b4 ++ (0x0 : BitVec 4)

/-- The code of an operation, from the tables R67, R69 and R70; the internal operations of R77 have no bit encoding.
`Tick` is the same input in every non-terminal state (R184); its code here is the one in `awaitingFirstDelimiter`. -/
def encode : Instr → Option Code
  | .dataFlex port b4 => some (.command (dataByte port 1 b4))
  | .dataNoflag port b4 => some (.command (dataByte port 0 b4))
  | .reset hi => some (.command (hi ++ (0xF : BitVec 4)))
  | .unknown1 hi => some (.command (hi ++ (0x1 : BitVec 4)))
  | .unknown2 hi => some (.command (hi ++ (0x2 : BitVec 4)))
  | .unknown3 hi => some (.command (hi ++ (0x3 : BitVec 4)))
  | .unknown4 hi => some (.command (hi ++ (0x4 : BitVec 4)))
  | .unknown5 hi => some (.command (hi ++ (0x5 : BitVec 4)))
  | .unknown6 hi => some (.command (hi ++ (0x6 : BitVec 4)))
  | .unknown7 hi => some (.command (hi ++ (0x7 : BitVec 4)))
  | .unknown8 hi => some (.command (hi ++ (0x8 : BitVec 4)))
  | .unknown9 hi => some (.command (hi ++ (0x9 : BitVec 4)))
  | .unknownA hi => some (.command (hi ++ (0xA : BitVec 4)))
  | .unknownB hi => some (.command (hi ++ (0xB : BitVec 4)))
  | .unknownC hi => some (.command (hi ++ (0xC : BitVec 4)))
  | .unknownD hi => some (.command (hi ++ (0xD : BitVec 4)))
  | .unknownE hi => some (.command (hi ++ (0xE : BitVec 4)))
  | .afdFend => some (.parser .awaitingFirstDelimiter (.byte fend))
  | .afdSkip b => some (.parser .awaitingFirstDelimiter (.byte b))
  | .adFend => some (.parser .awaitingData (.byte fend))
  | .adFesc => some (.parser .awaitingData (.byte fesc))
  | .adData b => some (.parser .awaitingData (.byte b))
  | .escTfend => some (.parser .escaped (.byte tfend))
  | .escTfesc => some (.parser .escaped (.byte tfesc))
  | .escBad b => some (.parser .escaped (.byte b))
  | .parseTimeout => some (.parser .awaitingFirstDelimiter .tick)
  | .stuffFend => some (.stuffer fend)
  | .stuffFesc => some (.stuffer fesc)
  | .stuffLit b => some (.stuffer b)
  | .crcUpdate _ => none
  | .pollRadio => none
  | .relay _ => none
  | .pollSerial => none
  | .parseStart => none
  | .diag _ => none
  | .dispatch => none
  | .emptyFrame => none

/-- The mask and match of an operation's row in spec/opcode_table.json; a row without a byte pattern has none. -/
def tableRow : Instr → Option (Byte × Byte)
  | .dataFlex _ _ => some (0x2F, 0x20)
  | .dataNoflag _ _ => some (0x2F, 0x00)
  | .reset _ => some (0x0F, 0x0F)
  | .unknown1 _ => some (0x0F, 0x01)
  | .unknown2 _ => some (0x0F, 0x02)
  | .unknown3 _ => some (0x0F, 0x03)
  | .unknown4 _ => some (0x0F, 0x04)
  | .unknown5 _ => some (0x0F, 0x05)
  | .unknown6 _ => some (0x0F, 0x06)
  | .unknown7 _ => some (0x0F, 0x07)
  | .unknown8 _ => some (0x0F, 0x08)
  | .unknown9 _ => some (0x0F, 0x09)
  | .unknownA _ => some (0x0F, 0x0A)
  | .unknownB _ => some (0x0F, 0x0B)
  | .unknownC _ => some (0x0F, 0x0C)
  | .unknownD _ => some (0x0F, 0x0D)
  | .unknownE _ => some (0x0F, 0x0E)
  | .afdFend => some (0xFF, 0xC0)
  | .afdSkip _ => some (0x00, 0x00)
  | .adFend => some (0xFF, 0xC0)
  | .adFesc => some (0xFF, 0xDB)
  | .adData _ => some (0x00, 0x00)
  | .escTfend => some (0xFF, 0xDC)
  | .escTfesc => some (0xFF, 0xDD)
  | .escBad _ => some (0x00, 0x00)
  | .parseTimeout => none
  | .stuffFend => some (0xFF, 0xC0)
  | .stuffFesc => some (0xFF, 0xDB)
  | .stuffLit _ => some (0x00, 0x00)
  | .crcUpdate _ => none
  | .pollRadio => none
  | .relay _ => none
  | .pollSerial => none
  | .parseStart => none
  | .diag _ => none
  | .dispatch => none
  | .emptyFrame => none

/-- The byte of a code; `Tick` is no byte. -/
def Code.byteOf : Code → Option Byte
  | .command b0 => some b0
  | .parser _ (.byte b) => some b
  | .parser _ .tick => none
  | .stuffer b => some b

/-- The context a bare byte of the opcode table is read in by `decodeTableWord`. The table's rows share bytes (0xC0 alone
stands in four of them) and are told apart by the format and `pstate` the table gives, which a bare byte does not carry.
DESIGN CHOICE (log entry 12): the four special bytes of R60 are read as wire bytes in the parser state that names them,
every other byte as a command byte. -/
def tableCode (b : Byte) : Code :=
  if b = fend then .parser .awaitingFirstDelimiter (.byte b)
  else if b = fesc then .parser .awaitingData (.byte b)
  else if b = tfend then .parser .escaped (.byte b)
  else if b = tfesc then .parser .escaped (.byte b)
  else .command b

/-- The operation read from a table word: one byte, in the context `tableCode` gives it. A word of another width is none. -/
def decodeTableWord (nbits w : Nat) : Option Instr :=
  if nbits = 8 then
    match decode (tableCode (BitVec.ofNat 8 w)) with
    | .ok i => some i
    | .error _ => none
  else none

end Sys2Proof
end

