-- ==== Sys2Proof/Config.lean ====
section
/-! DEFINITION. The parameters of R6, fixed for a run, with the defaults the spec gives; and the free values. -/

namespace Sys2Proof.Config

/-- When the core drives the error indicator off (R6, R237, D11). -/
inductive ErrClear where
  | atUnitStart
  | never
  deriving DecidableEq, Repr

/-- What the dispatcher does with a frame of 0 bytes (R6, R216, D9). -/
inductive EmptyFrameAction where
  | ignore
  | report
  deriving DecidableEq, Repr

/-- The parameters of R6. "The model takes the following parameters as arguments": they travel in the state's field `cfg`,
which no step writes, so that a statement about every state is a statement about every configuration (log entry 1). -/
structure Params where
  /-- `MAX_PAYLOAD` (D2). -/
  maxPayload : Nat
  /-- `SMALL_CAP` (D2). -/
  smallCap : Nat
  /-- `BIG_CAP` (D3). -/
  bigCap : Nat
  /-- `FLEX_TABLE` (D1). -/
  flexTable : Vector Word 256
  /-- `DIAG_ADDR`, bytes 0 to 13 of the diagnostic header (R64, D13). -/
  diagAddr : Vector Byte 14
  /-- `MSG_PACKET_SIZE` (R255), and below it the other texts of that rule. -/
  msgPacketSize : Text
  msgOverflow : Text
  msgEscape : Text
  msgProtocol : Text
  msgCrc : Text
  msgShort : Text
  msgResetFail : Text
  /-- `MSG_UNKNOWN(c)` for c = 0x1 to 0xE, entry c - 1 (R255, D20). -/
  msgUnknown : Vector Text 14
  /-- `PARSE_TIMEOUT`, a duration no rule computes with (R8). -/
  parseTimeout : Nat
  /-- `FLASH_DELAY`, a duration no rule computes with (R8). -/
  flashDelay : Nat
  errPinPresent : Bool
  rxPinPresent : Bool
  txPinPresent : Bool
  errClear : ErrClear
  emptyFrameAction : EmptyFrameAction
  deriving DecidableEq, Repr

/-- Entries 0x00 to 0x1F of the default table (R102). -/
def flexRows0 : List Word :=
  [0x0F87, 0x1E0E, 0x2C95, 0x3D1C, 0x49A3, 0x582A, 0x6AB1, 0x7B38,
   0x83CF, 0x9246, 0xA0DD, 0xB154, 0xC5EB, 0xD462, 0xE6F9, 0xF770,
   0x1F06, 0x0E8F, 0x3C14, 0x2D9D, 0x5922, 0x48AB, 0x7A30, 0x6BB9,
   0x934E, 0x82C7, 0xB05C, 0xA1D5, 0xD56A, 0xC4E3, 0xF678, 0xE7F1]

/-- Entries 0x20 to 0x3F of the default table (R102). -/
def flexRows1 : List Word :=
  [0x2E85, 0x3F0C, 0x0D97, 0x1C1E, 0x68A1, 0x7928, 0x4BB3, 0x5A3A,
   0xA2CD, 0xB344, 0x81DF, 0x9056, 0xE4E9, 0xF560, 0xC7FB, 0xD672,
   0x3E04, 0x2F8D, 0x1D16, 0x0C9F, 0x7820, 0x69A9, 0x5B32, 0x4ABB,
   0xB24C, 0xA3C5, 0x915E, 0x80D7, 0xF468, 0xE5E1, 0xD77A, 0xC6F3]

/-- Entries 0x40 to 0x5F of the default table (R102). -/
def flexRows2 : List Word :=
  [0x4D83, 0x5C0A, 0x6E91, 0x7F18, 0x0BA7, 0x1A2E, 0x28B5, 0x393C,
   0xC1CB, 0xD042, 0xE2D9, 0xF350, 0x87EF, 0x9666, 0xA4FD, 0xB574,
   0x5D02, 0x4C8B, 0x7E10, 0x6F99, 0x1B26, 0x0AAF, 0x3834, 0x29BD,
   0xD14A, 0xC0C3, 0xF258, 0xE3D1, 0x976E, 0x86E7, 0xB47C, 0xA5F5]

/-- Entries 0x60 to 0x7F of the default table (R102). -/
def flexRows3 : List Word :=
  [0x6C81, 0x7D08, 0x4F93, 0x5E1A, 0x2AA5, 0x3B2C, 0x09B7, 0x183E,
   0xE0C9, 0xF140, 0xC3DB, 0xD252, 0xA6ED, 0xB764, 0x85FF, 0x9476,
   0x7C00, 0x6D89, 0x5F12, 0x4E9B, 0x3A24, 0x2BAD, 0x1936, 0x08BF,
   0xF048, 0xE1C1, 0xD35A, 0xC2D3, 0xB66C, 0xA7E5, 0x957E, 0x84F7]

/-- Entries 0x80 to 0x9F of the default table (R102). -/
def flexRows4 : List Word :=
  [0x8B8F, 0x9A06, 0xA89D, 0xB914, 0xCDAB, 0xDC22, 0xEEB9, 0xFF30,
   0x07C7, 0x164E, 0x24D5, 0x355C, 0x41E3, 0x506A, 0x62F1, 0x7378,
   0x9B0E, 0x8A87, 0xB81C, 0xA995, 0xDD2A, 0xCCA3, 0xFE38, 0xEFB1,
   0x1746, 0x06CF, 0x3454, 0x25DD, 0x5162, 0x40EB, 0x7270, 0x63F9]

/-- Entries 0xA0 to 0xBF of the default table (R102). -/
def flexRows5 : List Word :=
  [0xAA8D, 0xBB04, 0x899F, 0x9816, 0xECA9, 0xFD20, 0xCFBB, 0xDE32,
   0x26C5, 0x374C, 0x05D7, 0x145E, 0x60E1, 0x7168, 0x43F3, 0x527A,
   0xBA0C, 0xAB85, 0x991E, 0x8897, 0xFC28, 0xEDA1, 0xDF3A, 0xCEB3,
   0x3644, 0x27CD, 0x1556, 0x04DF, 0x7060, 0x61E9, 0x5372, 0x42FB]

/-- Entries 0xC0 to 0xDF of the default table (R102). -/
def flexRows6 : List Word :=
  [0xC98B, 0xD802, 0xEA99, 0xFB10, 0x8FAF, 0x9E26, 0xACBD, 0xBD34,
   0x45C3, 0x544A, 0x66D1, 0x7758, 0x03E7, 0x126E, 0x20F5, 0x317C,
   0xD90A, 0xC883, 0xFA18, 0xEB91, 0x9F2E, 0x8EA7, 0xBC3C, 0xADB5,
   0x5542, 0x44CB, 0x7650, 0x67D9, 0x1366, 0x02EF, 0x3074, 0x21FD]

/-- Entries 0xE0 to 0xFF of the default table (R102). -/
def flexRows7 : List Word :=
  [0xE889, 0xF900, 0xCB9B, 0xDA12, 0xAEAD, 0xBF24, 0x8DBF, 0x9C36,
   0x64C1, 0x7548, 0x47D3, 0x565A, 0x22E5, 0x336C, 0x01F7, 0x107E,
   0xF808, 0xE981, 0xDB1A, 0xCA93, 0xBE2C, 0xAFA5, 0x9D3E, 0x8CB7,
   0x7440, 0x65C9, 0x5752, 0x46DB, 0x3264, 0x23ED, 0x1176, 0x00FF]

/-- The default `FLEX_TABLE` as a list (R102), which the spec itself supplies from general knowledge (log entry 2). -/
def flexRows : List Word :=
  flexRows0 ++ flexRows1 ++ flexRows2 ++ flexRows3 ++ flexRows4 ++ flexRows5 ++ flexRows6 ++ flexRows7

/-- The default `FLEX_TABLE` (R102). -/
def defaultTable : Vector Word 256 := ⟨⟨flexRows⟩, by decide +kernel⟩

/-- "packet size" in ASCII (R255). -/
def defaultPacketSize : Text := [0x70, 0x61, 0x63, 0x6B, 0x65, 0x74, 0x20, 0x73, 0x69, 0x7A, 0x65]
/-- "buffer overflow" in ASCII (R255). -/
def defaultOverflow : Text := [0x62, 0x75, 0x66, 0x66, 0x65, 0x72, 0x20, 0x6F, 0x76, 0x65, 0x72, 0x66, 0x6C, 0x6F, 0x77]
/-- "escape error" in ASCII (R255). -/
def defaultEscape : Text := [0x65, 0x73, 0x63, 0x61, 0x70, 0x65, 0x20, 0x65, 0x72, 0x72, 0x6F, 0x72]
/-- "protocol error" in ASCII (R255). -/
def defaultProtocol : Text := [0x70, 0x72, 0x6F, 0x74, 0x6F, 0x63, 0x6F, 0x6C, 0x20, 0x65, 0x72, 0x72, 0x6F, 0x72]
/-- "crc error" in ASCII (R255). -/
def defaultCrc : Text := [0x63, 0x72, 0x63, 0x20, 0x65, 0x72, 0x72, 0x6F, 0x72]
/-- "frame too short" in ASCII (R255). -/
def defaultShort : Text := [0x66, 0x72, 0x61, 0x6D, 0x65, 0x20, 0x74, 0x6F, 0x6F, 0x20, 0x73, 0x68, 0x6F, 0x72, 0x74]
/-- "reset failed" in ASCII (R255). -/
def defaultResetFail : Text := [0x72, 0x65, 0x73, 0x65, 0x74, 0x20, 0x66, 0x61, 0x69, 0x6C, 0x65, 0x64]
/-- "unknown frame type 0x" in ASCII (R255). -/
def defaultUnknownHead : Text := [0x75, 0x6E, 0x6B, 0x6E, 0x6F, 0x77, 0x6E, 0x20, 0x66, 0x72, 0x61, 0x6D, 0x65, 0x20, 0x74, 0x79, 0x70, 0x65, 0x20, 0x30, 0x78]

/-- The ASCII code of a lowercase hexadecimal digit (R255). -/
def hexDigit (d : BitVec 4) : Byte :=
  if d.toNat < 10 then BitVec.ofNat 8 (0x30 + d.toNat) else BitVec.ofNat 8 (0x61 + (d.toNat - 10))

/-- The default `MSG_UNKNOWN(c)`: the head and two lowercase hexadecimal digits of `c`, the first of them 0 (R255, D20). -/
def defaultUnknown (c : BitVec 4) : Text := defaultUnknownHead ++ [0x30, hexDigit c]

/-- The default texts for c = 0x1 to 0xE. -/
def defaultUnknowns : Vector Text 14 :=
  #v[defaultUnknown 0x1, defaultUnknown 0x2, defaultUnknown 0x3, defaultUnknown 0x4, defaultUnknown 0x5,
     defaultUnknown 0x6, defaultUnknown 0x7, defaultUnknown 0x8, defaultUnknown 0x9, defaultUnknown 0xA,
     defaultUnknown 0xB, defaultUnknown 0xC, defaultUnknown 0xD, defaultUnknown 0xE]

/-- The configuration of `State.reset`: test configuration A of 95_test_vectors.md, with the spec's defaults where it has
defaults (R102, R255, D9, D11). DESIGN CHOICE (log entry 1): the spec leaves the sizes, the address bytes, the durations and
the pins OPEN; no statement rests on these values. -/
def testA : Params where
  maxPayload := 8
  smallCap := 8
  bigCap := 96
  flexTable := defaultTable
  diagAddr := Vector.replicate 14 0x00
  msgPacketSize := defaultPacketSize
  msgOverflow := defaultOverflow
  msgEscape := defaultEscape
  msgProtocol := defaultProtocol
  msgCrc := defaultCrc
  msgShort := defaultShort
  msgResetFail := defaultResetFail
  msgUnknown := defaultUnknowns
  parseTimeout := 0
  flashDelay := 0
  errPinPresent := true
  rxPinPresent := true
  txPinPresent := true
  errClear := .atUnitStart
  emptyFrameAction := .ignore

/-! The free values. Each is a constant with no body applied to the state's draw counter: nothing in Lean can evaluate one or
prove a value of it. The port answers are drawn only where the state scripts no answer (log entry 3). -/

/-- `RADIO.peek`: any natural (R30). -/
opaque freeRadioPeek : Nat → Nat
/-- `RADIO.receive`: any byte sequence; the model takes at most the requested count of it (R30, U22). -/
opaque freeRadioData : Nat → List Byte
/-- `RADIO.reset`: a boolean (R30, U23). -/
opaque freeRadioReset : Nat → Bool
/-- `SERIAL.peek`: any natural (R30). -/
opaque freeSerialPeek : Nat → Nat
/-- `SERIAL.receive`: a byte, `Tick`, or nothing offered yet (R30, R181, U20). -/
opaque freeSerialOffer : Nat → Option SerialInput
/-- How many steps a wait on `SERIAL.receive` may still last before `Tick` is offered: any natural, so every wait of a parse ends
and none has a bound a proof could use (R185; log entry 4). -/
opaque freeSerialWait : Nat → Nat
/-- `RX_IND`, unconstrained at every step (R17, U10; log entry 7). -/
opaque freeRxInd : Nat → Bool
/-- `TX_IND`, unconstrained at every step (R17, U10; log entry 7). -/
opaque freeTxInd : Nat → Bool

end Sys2Proof.Config
end

