-- ==== Sys2Proof/Machine/State.lean ====
section
/-! DEFINITION. The state of the block (R10, R14, R16, R17, R31), the reasons a step can stop, and the state after reset (R23). -/

namespace Sys2Proof.Machine

/-- The sequencer's position, in the role of a program counter (R13). -/
inductive Phase where
  | pollRadio
  | pollSerial
  | parse
  deriving DecidableEq, Repr

/-- The events of the trace (R31). -/
inductive Event where
  /-- `RAD_RX(p, d)`: a `RADIO.receive` request for `p` bytes, answered with `d`. -/
  | radRx (p : Nat) (d : List Byte)
  /-- `RAD_TX(s)`: `RADIO.send` of a span in one call. -/
  | radTx (s : List Byte)
  /-- `RAD_RST(ok)`: `RADIO.reset` with its answer. -/
  | radRst (ok : Bool)
  /-- `SER_TX(s)`: `SERIAL.send` of a span in one call. -/
  | serTx (s : List Byte)
  /-- `ERR(v)`: a write of `v` to `errInd`. -/
  | err (v : Bool)
  /-- `TIMEOUT`: the parse ended by its deadline. -/
  | timeout
  deriving DecidableEq, Repr

/-- The eight error kinds with the info R250 records for each. They are handled inside their unit and stop nothing. -/
inductive ErrorKind where
  | oversizedOutboundPacket (count : Nat)
  | bufferOverflowDuringParse (cap : Nat)
  | invalidEscapeSequence (b : Byte)
  | protocolFlagMissing (b0 : Byte)
  | checksumMismatch (crc : Word)
  | frameTooShort (len : Nat)
  | radioResetFailure
  | unknownCommand (cmd : BitVec 4)
  deriving DecidableEq, Repr

/-- The faults: each stops the machine where no rule of the spec goes on. -/
inductive Fault where
  /-- A read of SMALL at or above `smallLen` (R44, U4: must fault). Raised by `readSmall`. Safe. -/
  | smallReadPastLength
  /-- A read of BIG at or above `bigLen` (R44, U4: must fault). Raised by `readBig`. Safe. -/
  | bigReadPastLength
  /-- A read of SMALL below `smallLen` at an index nothing has written, which no run reaches (log entry 6). Raised by
  `readSmall`. Safe. -/
  | smallUnwritten
  /-- A read of BIG below `bigLen` at an index nothing has written, which no run reaches (log entry 6). Raised by `readBig`.
  Safe. -/
  | bigUnwritten
  /-- A write of SMALL at or above `SMALL_CAP` (R41: not defined there), which no run reaches. Raised by `writeSmall`. Safe. -/
  | smallWriteOutOfRange
  /-- A write of BIG at or above `BIG_CAP` (R42: not defined there), which no run reaches. Raised by `writeBig`. Safe. -/
  | bigWriteOutOfRange
  /-- BIG is full while DIAG builds a frame (U1: "a model that finds it firing there must fault"); R151 rules it out for
  every text of R255. Raised by `diag`. Safe. -/
  | diagOverflow
  /-- A step in a parse whose parser state is `Timeout` or `Overflow`: no rule steps there (R181, R186; log entry 9), and no
  run reaches it. Raised by `fetch`. Safe. -/
  | parserTerminal
  deriving DecidableEq, Repr

/-- The refusals: what the spec says a model refuses. -/
inductive Refusal where
  /-- An instruction without a meaning; no arm of `exec` answers it. Safe. -/
  | notModelled (mnemonic : String)
  /-- A configuration that breaks the boot constraints (R282, R151, U6: refuse). Raised by `step`. Safe. -/
  | badConfiguration
  /-- A scripted `RADIO.receive` answer longer than the request (R30, D27, U5: refuse). Raised by RELAY and by POLL_RADIO
  when it runs RELAY. Safe. -/
  | radioContract
  deriving DecidableEq, Repr

/-- A byte space as (index, byte) pairs. Canonical form: indices strictly rising (`Memory.wf`). An index not listed holds no
value (R12, R23; log entry 6), so no entry can equal what an unlisted index reads as. -/
abbrev Memory := List Host.Cell

/-- What the environment will answer next at each input port of R30, oldest first. Where a list is empty the answer is a free
value of Config (log entry 3). -/
structure Ports where
  radioPeek : List Nat
  radioReceive : List (List Byte)
  radioReset : List Bool
  serialPeek : List Nat
  serialReceive : List SerialInput
  /-- While a parse waits: how many more steps may pass with nothing offered before `Tick` is (R185's fairness assumption; log entry
  4). None while no wait is in progress. -/
  serialWait : Option Nat
  deriving DecidableEq, Repr

/-- The state. The spec's own state is R10's table, the outputs of R17 and the trace of R31; `cfg`, `ports` and `draws` are
the model's carriers for the parameters (R6), the port answers (R30) and the free values. -/
structure State where
  /-- The parameters (R6), fixed for a run. -/
  cfg : Config.Params
  /-- The CRC accumulator (R11). -/
  crc : Word
  /-- Space SMALL (R12, R40). -/
  small : Memory
  /-- The number of valid bytes in SMALL (R12). -/
  smallLen : Nat
  /-- Space BIG (R15, R40). -/
  big : Memory
  /-- The number of valid bytes in BIG (R15). -/
  bigLen : Nat
  /-- TABLE, read-only (R18, R43). -/
  table : Vector Word 256
  /-- The parser state (R14). -/
  pstate : PState
  /-- The sequencer's position (R13). -/
  phase : Phase
  /-- The error-indicator latch (R16). -/
  errInd : Bool
  /-- The receive indicator RX_IND, unconstrained (R17). -/
  rxInd : Bool
  /-- The send indicator TX_IND, unconstrained (R17). -/
  txInd : Bool
  /-- The trace, oldest event first (R31). -/
  trace : List Event
  /-- The port answers the environment has in store (R30). -/
  ports : Ports
  /-- The counter of the free values drawn so far (log entry 3). -/
  draws : Nat
  deriving DecidableEq, Repr

/-- The state after power-on reset under the parameters `c` (R23, R280, R282). `crc`, `rxInd` and `txInd` have no reset value
in the spec: DESIGN CHOICE 0, false, false (log entries 5, 7). -/
def State.resetWith (c : Config.Params) : State where
  cfg := c
  crc := 0
  small := []
  smallLen := 0
  big := []
  bigLen := 0
  table := c.flexTable
  pstate := .awaitingFirstDelimiter
  phase := .pollRadio
  errInd := false
  rxInd := false
  txInd := false
  trace := []
  ports := { radioPeek := [], radioReceive := [], radioReset := [], serialPeek := [], serialReceive := [], serialWait := none }
  draws := 0

/-- The state after power-on reset (R23), under the configuration of log entry 1. -/
def State.reset : State := State.resetWith Config.testA

/-- The outcome of a step or of a meaning. -/
abbrev Result := Host.Outcome State Fault Refusal

end Sys2Proof.Machine
end

