-- ==== Sys2Proof/Machine/Operands.lean ====
section
/-! DEFINITION. The operand forms and the datapath functions: byte halves (R9, R45), the CRC step and its fold (R100, R101),
the stuffer function and widths (R72, R120), the frames (R61 to R64) and the texts (R255). They are functions of values; the
operations over the state use them. -/

namespace Sys2Proof.Machine

/-- `hi8(w) = w[15:8]` (R9). -/
def hi8 (w : Word) : Byte := w.extractLsb' 8 8

/-- `lo8(w) = w[7:0]` (R9). -/
def lo8 (w : Word) : Byte := w.extractLsb' 0 8

/-- `cat16(h, l)`, the big-endian assembly of two bytes (R9, R45). -/
def cat16 (h l : Byte) : Word := (h.zeroExtend 16 <<< 8) ||| l.zeroExtend 16

/-- `MemRead(TABLE, i, 2)` (R43): the index is 8 bits, so it is never out of range. -/
def tableAt (t : Vector Word 256) (i : Byte) : Word := t.get ⟨i.toNat, i.isLt⟩

/-- The one-byte CRC step (R100); the shift of a 16-bit value discards bits 15 to 8. -/
def upd (t : Vector Word 256) (c : Word) (b : Byte) : Word := (c <<< 8) ^^^ tableAt t (hi8 c ^^^ b)

/-- The CRC over a span from a starting value (R101). -/
def crcOf (t : Vector Word 256) (seed : Word) (s : List Byte) : Word := s.foldl (upd t) seed

/-- The seed of every frame computation (R106). -/
def crcSeed : Word := 0xFFFF

/-- The control byte of every outbound frame (R62). -/
def controlByte : Byte := 0x20

/-- The stuffer function (R120), by the input classes of R70. -/
def stuff (b : Byte) : List Byte :=
  if b = fend then [fesc, tfend] else if b = fesc then [fesc, tfesc] else [b]

/-- `stuffed(c)`: the stuffer's outputs in order (R61). -/
def stuffed (c : List Byte) : List Byte := c.flatMap stuff

/-- `w(b)`, the number of bytes the stuffer emits for `b` (R72). -/
def stuffWidth (b : Byte) : Nat := if b = fend ∨ b = fesc then 2 else 1

/-- The sum of `w` over a content (R72). -/
def contentWidth (c : List Byte) : Nat := (c.map stuffWidth).sum

/-- `K`, the flex CRC of the control byte and the payload (R62). -/
def frameCrc (t : Vector Word 256) (payload : List Byte) : Word := crcOf t crcSeed (controlByte :: payload)

/-- The content of an outbound frame: control byte, payload, CRC big-endian (R62). -/
def frameContent (t : Vector Word 256) (payload : List Byte) : List Byte :=
  controlByte :: payload ++ [hi8 (frameCrc t payload), lo8 (frameCrc t payload)]

/-- An outbound frame on the wire (R61, R62). -/
def frame (t : Vector Word 256) (payload : List Byte) : List Byte :=
  fend :: stuffed (frameContent t payload) ++ [fend]

/-- The 16-byte diagnostic header: the address bytes, then 0x03 and 0xF0 (R64, D13). -/
def diagHeader (c : Config.Params) : List Byte := c.diagAddr.toList ++ [0x03, 0xF0]

/-- The payload of a diagnostic frame (R63). -/
def diagPayload (c : Config.Params) (text : Text) : List Byte := diagHeader c ++ text

/-- `MSG_UNKNOWN(c)` (R255): entry c - 1 of the fourteen; `c` is 0x1 to 0xE wherever a rule asks for it. -/
def msgUnknown (c : Config.Params) (cmd : BitVec 4) : Text :=
  if h : cmd.toNat - 1 < 14 then c.msgUnknown.get ⟨cmd.toNat - 1, h⟩ else []

/-- `MSG(kind, info)` (R254, R255): the row of the kind; the texts take no info but the unknown command's (log entry 17). -/
def msg (c : Config.Params) : ErrorKind → Text
  | .oversizedOutboundPacket _ => c.msgPacketSize
  | .bufferOverflowDuringParse _ => c.msgOverflow
  | .invalidEscapeSequence _ => c.msgEscape
  | .protocolFlagMissing _ => c.msgProtocol
  | .checksumMismatch _ => c.msgCrc
  | .frameTooShort _ => c.msgShort
  | .radioResetFailure => c.msgResetFail
  | .unknownCommand cmd => msgUnknown c cmd

/-- The error codes (R250): this spec's names for an enumeration, visible at no port (D14). -/
def errorCode : ErrorKind → Nat
  | .oversizedOutboundPacket _ => 1
  | .bufferOverflowDuringParse _ => 2
  | .invalidEscapeSequence _ => 3
  | .protocolFlagMissing _ => 4
  | .checksumMismatch _ => 5
  | .frameTooShort _ => 6
  | .radioResetFailure => 7
  | .unknownCommand _ => 8

/-- Every text of R255. -/
def texts (c : Config.Params) : List Text :=
  [c.msgPacketSize, c.msgOverflow, c.msgEscape, c.msgProtocol, c.msgCrc, c.msgShort, c.msgResetFail] ++ c.msgUnknown.toList

/-- The length of the diagnostic frame of a text: `2 + sum of w` over its content (R72, R151). -/
def diagLength (c : Config.Params) (t : Text) : Nat :=
  2 + contentWidth (frameContent c.flexTable (diagPayload c t))

/-- The configuration constraint of a text (R151). The first disjunct is the rule's own sufficient condition, tried first. -/
def diagFits (c : Config.Params) (t : Text) : Bool :=
  decide (2 * t.length + 40 ≤ c.bigCap) || decide (diagLength c t ≤ c.bigCap)

/-- The boot constraints on the parameters (R282.1), with the texts ASCII (R255). -/
def validConfig (c : Config.Params) : Bool :=
  decide (c.smallCap = c.maxPayload) && decide (3 ≤ c.maxPayload) && (texts c).all fun t => isAscii t && diagFits c t

end Sys2Proof.Machine
end

