-- ==== Sys2Proof/Machine/Flags.lean ====
section
/-! DEFINITION. The trace and the indicators. The block has one flag, the error-indicator latch (R16, R20); these are all its
writers' operations and the pins that show it. -/

namespace Sys2Proof.Machine

/-- `emit E` (R9): append an event to the trace. -/
def emit (e : Event) (s : State) : State := { s with trace := s.trace ++ [e] }

/-- `errInd <- v; emit ERR(v)` (R16): every write of the latch emits its event. -/
def setErr (v : Bool) (s : State) : State := emit (.err v) { s with errInd := v }

/-- `unitStartClear()` (R237). -/
def unitStartClear (s : State) : State :=
  match s.cfg.errClear with
  | .atUnitStart => setErr false s
  | .never => s

/-- `n` on/off cycles of the indicator (R212); the waits of FLASH_DELAY are not represented (R8). -/
def flash : Nat → State → State
  | 0, s => s
  | n + 1, s => flash n (setErr false (setErr true s))

/-- The error pin: it shows `errInd` when it is present, otherwise no pin is driven (R16, R261). -/
def State.errPin (s : State) : Option Bool := if s.cfg.errPinPresent then some s.errInd else none

/-- The receive indicator's pin (R17, R261). -/
def State.rxPin (s : State) : Option Bool := if s.cfg.rxPinPresent then some s.rxInd else none

/-- The send indicator's pin (R17, R261). -/
def State.txPin (s : State) : Option Bool := if s.cfg.txPinPresent then some s.txInd else none

/-- The parse deadline is armed exactly while a parse is in progress (R21, R170: "no state the model holds"). -/
def State.deadlineArmed (s : State) : Bool := decide (s.phase = .parse)

/-- RX_IND and TX_IND are unconstrained at every step (R17): each step ends with a fresh free value in both. -/
def redrawIndicators (s : State) : State :=
  { s with rxInd := Config.freeRxInd s.draws, txInd := Config.freeTxInd s.draws, draws := s.draws + 1 }

end Sys2Proof.Machine
end

