-- ==== Sys2Proof/Machine/Ops.lean ====
section
/-! DEFINITION. The named operations over memory, ports and frames: reads and writes of SMALL and BIG (R41, R42, R44), the
draws of the input ports (R30), `put` and the stuffer (R120, R141), the assembly RELAY and DIAG share (R62, R63), DIAG (R150)
and the error procedure (R254), which is the block's exception entry; its return is the raising rule going on (R256). -/

namespace Sys2Proof.Machine

/-! ### Sequencing -/

/-- Go on with the next state; a stop stays a stop. -/
def andThen (r : Result) (f : State → Result) : Result :=
  match r with
  | .next s => f s
  | .fault e => .fault e
  | .refused e => .refused e

/-- Go on with the value of an access, or stop with its fault. -/
def withValue {α : Type} (x : Except Fault α) (f : α → Result) : Result :=
  match x with
  | .ok a => f a
  | .error e => .fault e

/-! ### Memory -/

/-- The canonical form of a byte space: indices strictly rising. -/
abbrev Memory.wf (m : Memory) : Prop := m.Pairwise fun a b => a.1 < b.1

/-- The byte at an index; an unlisted index holds no value. -/
def Memory.read : Memory → Nat → Option Byte
  | [], _ => none
  | (k, x) :: rest, i => if k = i then some x else Memory.read rest i

/-- Store a byte, keeping the canonical form. -/
def Memory.write : Memory → Nat → Byte → Memory
  | [], i, v => [(i, v)]
  | (k, x) :: rest, i, v =>
    if i < k then (i, v) :: (k, x) :: rest
    else if i = k then (i, v) :: rest
    else (k, x) :: Memory.write rest i v

/-- Store a span from an index upward. -/
def Memory.writeSpan : Memory → Nat → List Byte → Memory
  | m, _, [] => m
  | m, i, v :: vs => Memory.writeSpan (Memory.write m i v) (i + 1) vs

/-- `MemRead(SMALL, i, 1)`: defined below `smallLen` (R41), a fault from there up (R44). -/
def readSmall (i : Nat) (s : State) : Except Fault Byte :=
  if i < s.smallLen then
    match Memory.read s.small i with
    | some b => .ok b
    | none => .error .smallUnwritten
  else .error .smallReadPastLength

/-- `MemRead(BIG, i, 1)`: defined below `bigLen` (R42), a fault from there up (R44). -/
def readBig (i : Nat) (s : State) : Except Fault Byte :=
  if i < s.bigLen then
    match Memory.read s.big i with
    | some b => .ok b
    | none => .error .bigUnwritten
  else .error .bigReadPastLength

/-- `MemWrite(SMALL, i, 1, v)`: defined below `SMALL_CAP` (R41). -/
def writeSmall (i : Nat) (v : Byte) (s : State) : Except Fault State :=
  if i < s.cfg.smallCap then .ok { s with small := Memory.write s.small i v } else .error .smallWriteOutOfRange

/-- `MemWrite(BIG, i, 1, v)`: defined below `BIG_CAP` (R42). -/
def writeBig (i : Nat) (v : Byte) (s : State) : Except Fault State :=
  if i < s.cfg.bigCap then .ok { s with big := Memory.write s.big i v } else .error .bigWriteOutOfRange

/-- `n` successive reads from index `i`, each with the access `rd`. -/
def readSpan (rd : Nat → Except Fault Byte) : Nat → Nat → Except Fault (List Byte)
  | _, 0 => .ok []
  | i, n + 1 =>
    match rd i with
    | .error e => .error e
    | .ok b =>
      match readSpan rd (i + 1) n with
      | .error e => .error e
      | .ok bs => .ok (b :: bs)

/-- `small[i .. i+n)`, byte by byte (R46). -/
def readSmallSpan (i n : Nat) (s : State) : Except Fault (List Byte) := readSpan (fun j => readSmall j s) i n

/-- `big[i .. i+n)`, byte by byte (R46). -/
def readBigSpan (i n : Nat) (s : State) : Except Fault (List Byte) := readSpan (fun j => readBig j s) i n

/-- Store the radio's bytes in SMALL from index `i` (R144). -/
def writeSmallSpan : Nat → List Byte → State → Except Fault State
  | _, [], s => .ok s
  | i, v :: vs, s =>
    match writeSmall i v s with
    | .error e => .error e
    | .ok s' => writeSmallSpan (i + 1) vs s'

/-! ### Input ports: the scripted answer if there is one, else a free value (R30; log entry 3) -/

/-- `RADIO.peek`. -/
def takeRadioPeek (s : State) : Nat × State :=
  match s.ports.radioPeek with
  | p :: rest => (p, { s with ports := { s.ports with radioPeek := rest } })
  | [] => (Config.freeRadioPeek s.draws, { s with draws := s.draws + 1 })

/-- `RADIO.receive` for `p` bytes. A free answer is at most `p` bytes, as the port's contract says; a scripted one is taken
as it stands and checked by RELAY. -/
def takeRadioReceive (p : Nat) (s : State) : List Byte × State :=
  match s.ports.radioReceive with
  | d :: rest => (d, { s with ports := { s.ports with radioReceive := rest } })
  | [] => ((Config.freeRadioData s.draws).take p, { s with draws := s.draws + 1 })

/-- `RADIO.reset`. -/
def takeRadioReset (s : State) : Bool × State :=
  match s.ports.radioReset with
  | ok :: rest => (ok, { s with ports := { s.ports with radioReset := rest } })
  | [] => (Config.freeRadioReset s.draws, { s with draws := s.draws + 1 })

/-- `SERIAL.peek`. -/
def takeSerialPeek (s : State) : Nat × State :=
  match s.ports.serialPeek with
  | q :: rest => (q, { s with ports := { s.ports with serialPeek := rest } })
  | [] => (Config.freeSerialPeek s.draws, { s with draws := s.draws + 1 })

/-- What `SERIAL.receive` answers inside a parse, and what is then left of a wait. Without a scripted answer the free offer may be
nothing, but only for as many steps as a free number drawn when the wait begins allows: then it is `Tick`. So `Tick` may come at
any step, and if no byte is offered it comes in the end (R185). -/
def serialOffer (s : State) : Option SerialInput × Option Nat :=
  match s.ports.serialReceive with
  | x :: _ => (some x, none)
  | [] =>
    match Config.freeSerialOffer s.draws with
    | some x => (some x, none)
    | none =>
      match s.ports.serialWait.getD (Config.freeSerialWait s.draws) with
      | 0 => (some .tick, none)
      | n + 1 => (none, some n)

/-- `SERIAL.receive` for one byte inside a parse: a byte, `Tick`, or nothing offered yet. -/
def takeSerial (s : State) : Option SerialInput × State :=
  ((serialOffer s).1,
    { s with
      ports := { s.ports with serialReceive := s.ports.serialReceive.tail, serialWait := (serialOffer s).2 }
      draws := if s.ports.serialReceive.isEmpty then s.draws + 1 else s.draws })

/-! ### The CRC register and the frame assembly -/

/-- `crc <- upd(crc, b)` over a span (R101). -/
def crcRun (span : List Byte) (s : State) : State := { s with crc := crcOf s.table s.crc span }

/-- What a step of a build leaves: a state to go on with, BIG found full (R141 `buildOverflow`), or a fault. -/
inductive Build where
  | ok (s : State)
  | overflow (s : State)
  | fault (e : Fault)

/-- Go on with a build; an overflow ends it at once (R148). -/
def Build.andThen (r : Build) (f : State → Build) : Build :=
  match r with
  | .ok s => f s
  | .overflow s => .overflow s
  | .fault e => .fault e

/-- `put(v)` (R141). -/
def put (v : Byte) (s : State) : Build :=
  if s.bigLen = s.cfg.bigCap then .overflow s
  else
    match writeBig s.bigLen v s with
    | .ok s' => .ok { s' with bigLen := s.bigLen + 1 }
    | .error e => .fault e

/-- `put` for each byte in order. -/
def putAll : List Byte → State → Build
  | [], s => .ok s
  | v :: vs, s => (put v s).andThen (putAll vs)

/-- `stuffByte(b)` (R120): append `stuff(b)` byte by byte. -/
def stuffByte (b : Byte) (s : State) : Build := putAll (stuff b) s

/-- `crc <- upd(crc, b); stuffByte(b)` (R142, R150). -/
def takeByte (b : Byte) (s : State) : Build := stuffByte b (crcRun [b] s)

/-- The payload, byte by byte in stream order (R145). -/
def takeBytes : List Byte → State → Build
  | [], s => .ok s
  | b :: bs, s => (takeByte b s).andThen (takeBytes bs)

/-- Take `K` from `crc`, append it big-endian and stuffed, then the closing delimiter (R146). -/
def closeFrame (s : State) : Build :=
  ((stuffByte (hi8 s.crc) s).andThen (stuffByte (lo8 s.crc))).andThen (put fend)

/-- The assembly RELAY and DIAG share: empty BIG, seed, delimiter, control byte, payload, CRC, delimiter (R142, R150). -/
def buildFrame (payload : List Byte) (s : State) : Build :=
  (((put fend { s with bigLen := 0, crc := crcSeed }).andThen (takeByte controlByte)).andThen (takeBytes payload)).andThen
    closeFrame

/-- `emit SER_TX(big[0 .. bigLen))` in one call (R147). -/
def sendBig (s : State) : Result := withValue (readBigSpan 0 s.bigLen s) fun bs => .next (emit (.serTx bs) s)

/-! ### Reports and errors -/

/-- `DIAG(text)` (R150). An overflow of BIG cannot happen under R151 and faults if it does (U1). -/
def diag (text : Text) (s : State) : Result :=
  match buildFrame (diagPayload s.cfg text) s with
  | .ok s' => sendBig s'
  | .overflow _ => .fault .diagOverflow
  | .fault e => .fault e

/-- The error procedure (R254) of kinds 1 to 6: the diagnostic first, then the indicator. Nothing is saved; the raising rule
goes on with the state it leaves. -/
def raiseError (k : ErrorKind) (s : State) : Result :=
  andThen (diag (msg s.cfg k) s) fun s' => .next (setErr true s')

/-- A relay build that finds BIG full (R148): the frame is discarded and the error procedure run. -/
def relayOverflow (s : State) : Result := raiseError (.oversizedOutboundPacket s.bigLen) s

/-- A build step run by itself. BIG full is R148's overflow: only a relay build can find it so (R151, R152; log entry 10). -/
def runBuild (r : Build) : Result :=
  match r with
  | .ok s => .next s
  | .overflow s => relayOverflow s
  | .fault e => .fault e

end Sys2Proof.Machine
end

