-- ==== Sys2Proof/Machine/CrcEngine.lean ====
section
/-! DEFINITION. The CRC engine's operation (40_crc_engine.md). -/

namespace Sys2Proof.Machine

/-- `CRC_UPDATE` over a span (R101): it writes `crc` alone and cannot fail. -/
def execCrcUpdate (span : List Byte) (s : State) : Result := .next (crcRun span s)

end Sys2Proof.Machine
end

