-- ==== Sys2Proof/Machine/Builder.lean ====
section
/-! DEFINITION. The frame builder's entry points (42_frame_builder.md). -/

namespace Sys2Proof.Machine

/-- The relay build over the bytes RELAY has stored, its send (R145 to R147), or its overflow (R148). -/
def relayBuild (s : State) : Result :=
  withValue (readSmallSpan 0 s.smallLen s) fun payload =>
    match buildFrame payload s with
    | .ok s' => sendBig s'
    | .overflow s' => relayOverflow s'
    | .fault e => .fault e

/-- Store the radio's answer and set `smallLen` (R144), then build. -/
def relayStore (d : List Byte) (s : State) : Result :=
  withValue (writeSmallSpan 0 d s) fun s' => relayBuild { s' with smallLen := d.length }

/-- Ask the radio for `p` bytes (R144). An answer longer than `p` breaks the port's contract and is refused (R30, D27). -/
def relayReceive (p : Nat) (s : State) : Result :=
  let (d, s1) := takeRadioReceive p s
  if p < d.length then .refused .radioContract else relayStore d (emit (.radRx p d) s1)

/-- `RELAY(p)` (R142): the unit-start clear, the size check before any receive (R143), then the receive and the build. -/
def relay (p : Nat) (s : State) : Result :=
  let s1 := unitStartClear s
  if 2 * s1.cfg.maxPayload < p ∨ s1.cfg.smallCap < p then raiseError (.oversizedOutboundPacket p) s1
  else relayReceive p s1

/-- `RELAY` as an operation of its own (R142). -/
def execRelay (p : Nat) (s : State) : Result := relay p s

/-- `DIAG(text)` as an operation of its own (R150). -/
def execDiag (text : Text) (s : State) : Result := diag text s

end Sys2Proof.Machine
end

