-- ==== Sys2Proof/Machine/Dispatcher.lean ====
section
/-! DEFINITION. Validation and command dispatch (44_dispatcher.md). -/

namespace Sys2Proof.Machine

/-- The payload's length after a passed check (R206): it depends on whether `b0` is non-zero, and the bound is checked before
the subtraction. `none` is the underflow, which raises `FrameTooShort`. -/
def payloadLength (b0 : Byte) (len : Nat) : Option Nat :=
  if b0 ≠ 0 then (if len < 3 then none else some (len - 3))
  else (if len < 1 then none else some (len - 1))

/-- The radio send (R207), or nothing for an empty payload (R208). -/
def sendPayload (n : Nat) (s : State) : Result :=
  if 0 < n then withValue (readSmallSpan 1 n s) fun bs => .next (emit (.radTx bs) s) else .next s

/-- After a passed check: the payload's length and its send (R206, R207). -/
def deliver (s : State) : Result :=
  withValue (readSmall 0 s) fun b0 =>
    match payloadLength b0 s.smallLen with
    | none => raiseError (.frameTooShort s.smallLen) s
    | some n => sendPayload n s

/-- The inbound CRC check (R203): seed, every byte but the trailing two, compared with the trailing two big-endian. -/
def checkCrc (s : State) : Result :=
  withValue (readSmallSpan 0 (s.smallLen - 2) s) fun body =>
    let s1 := crcRun body { s with crc := crcSeed }
    withValue (readSmall (s1.smallLen - 2) s1) fun h =>
      withValue (readSmall (s1.smallLen - 1) s1) fun l =>
        if s1.crc ≠ cat16 h l then raiseError (.checksumMismatch s1.crc) s1 else deliver s1

/-- `DATA_FLEX` (R202): the minimum length (R201), then the check. -/
def execDataFlex (s : State) : Result :=
  if s.smallLen < 2 then raiseError (.frameTooShort s.smallLen) s else checkCrc s

/-- `DATA_NOFLAG` (R204): the minimum length (R201), else always `ProtocolFlagMissing`. -/
def execDataNoflag (s : State) : Result :=
  if s.smallLen < 2 then raiseError (.frameTooShort s.smallLen) s
  else withValue (readSmall 0 s) fun b0 => raiseError (.protocolFlagMissing b0) s

/-- `RESET` (R210): one reset request (R211); on failure three flash cycles (R212) and the report (R213). -/
def execReset (s : State) : Result :=
  let (ok, s1) := takeRadioReset s
  let s2 := emit (.radRst ok) s1
  if ok then .next s2 else diag (msg s2.cfg .radioResetFailure) (flash 3 s2)

/-- The report of an unknown command (R214): a diagnostic and nothing else. -/
def reportUnknown (cmd : BitVec 4) (s : State) : Result := diag (msg s.cfg (.unknownCommand cmd)) s

/-- `UNKNOWN_1` (R214). -/
def execUnknown1 (s : State) : Result := reportUnknown 0x1 s

/-- `UNKNOWN_2` (R214). -/
def execUnknown2 (s : State) : Result := reportUnknown 0x2 s

/-- `UNKNOWN_3` (R214). -/
def execUnknown3 (s : State) : Result := reportUnknown 0x3 s

/-- `UNKNOWN_4` (R214). -/
def execUnknown4 (s : State) : Result := reportUnknown 0x4 s

/-- `UNKNOWN_5` (R214). -/
def execUnknown5 (s : State) : Result := reportUnknown 0x5 s

/-- `UNKNOWN_6` (R214). -/
def execUnknown6 (s : State) : Result := reportUnknown 0x6 s

/-- `UNKNOWN_7` (R214). -/
def execUnknown7 (s : State) : Result := reportUnknown 0x7 s

/-- `UNKNOWN_8` (R214). -/
def execUnknown8 (s : State) : Result := reportUnknown 0x8 s

/-- `UNKNOWN_9` (R214). -/
def execUnknown9 (s : State) : Result := reportUnknown 0x9 s

/-- `UNKNOWN_A` (R214). -/
def execUnknownA (s : State) : Result := reportUnknown 0xA s

/-- `UNKNOWN_B` (R214). -/
def execUnknownB (s : State) : Result := reportUnknown 0xB s

/-- `UNKNOWN_C` (R214). -/
def execUnknownC (s : State) : Result := reportUnknown 0xC s

/-- `UNKNOWN_D` (R214). -/
def execUnknownD (s : State) : Result := reportUnknown 0xD s

/-- `UNKNOWN_E` (R214). -/
def execUnknownE (s : State) : Result := reportUnknown 0xE s

/-- `UNKNOWN(cmd)` of R200's last branch, for `cmd` in 0x1 to 0xE. -/
def execUnknown (cmd : BitVec 4) (s : State) : Result :=
  match cmd.toNat with
  | 0x1 => execUnknown1 s
  | 0x2 => execUnknown2 s
  | 0x3 => execUnknown3 s
  | 0x4 => execUnknown4 s
  | 0x5 => execUnknown5 s
  | 0x6 => execUnknown6 s
  | 0x7 => execUnknown7 s
  | 0x8 => execUnknown8 s
  | 0x9 => execUnknown9 s
  | 0xA => execUnknownA s
  | 0xB => execUnknownB s
  | 0xC => execUnknownC s
  | 0xD => execUnknownD s
  | _ => execUnknownE s

/-- `EMPTY_FRAME` (R216), by the parameter `EMPTY_FRAME_ACTION`. -/
def emptyFrame (s : State) : Result :=
  match s.cfg.emptyFrameAction with
  | .ignore => .next s
  | .report => raiseError (.frameTooShort 0) s

/-- `EMPTY_FRAME` as an operation of its own (R216). -/
def execEmptyFrame (s : State) : Result := emptyFrame s

/-- The choice of R200 on the command byte, in its order. -/
def dispatchCommand (b0 : Byte) (s : State) : Result :=
  if cmdOf b0 = 0x0 ∧ flexOf b0 = true then execDataFlex s
  else if cmdOf b0 = 0x0 ∧ flexOf b0 = false then execDataNoflag s
  else if cmdOf b0 = 0xF then execReset s
  else execUnknown (cmdOf b0) s

/-- `DISPATCH` (R200). -/
def dispatch (s : State) : Result :=
  if s.smallLen = 0 then emptyFrame s else withValue (readSmall 0 s) fun b0 => dispatchCommand b0 s

/-- `DISPATCH` as an operation of its own (R200). -/
def execDispatch (s : State) : Result := dispatch s

end Sys2Proof.Machine
end

