-- ==== Sys2Proof/Machine/Parser.lean ====
section
/-! DEFINITION. The frame parser's operations (43_frame_parser.md). The input is already taken (R181), by `fetch`. -/

namespace Sys2Proof.Machine

/-- `PARSE_START` (R170); the armed deadline is no state (R21). -/
def parseStart (s : State) : State :=
  { unitStartClear s with smallLen := 0, pstate := .awaitingFirstDelimiter, phase := .parse }

/-- `PARSE_START` as an operation of its own (R170). -/
def execParseStart (s : State) : Result := .next (parseStart s)

/-- `overflow()` (R180): the error procedure, then the terminal failure, without a dispatch. -/
def overflow (s : State) : Result :=
  andThen (raiseError (.bufferOverflowDuringParse s.cfg.smallCap) s) fun s' =>
    .next { s' with pstate := .overflow, phase := .pollRadio }

/-- `append(v)` (R178), and then, unless it overflowed (R180), what its rule goes on with. -/
def append (v : Byte) (s : State) (goOn : State → State) : Result :=
  if s.smallLen = s.cfg.smallCap then overflow s
  else withValue (writeSmall s.smallLen v s) fun s' => .next (goOn { s' with smallLen := s.smallLen + 1 })

/-- `pstate <- AwaitingData`. -/
def toAwaitingData (s : State) : State := { s with pstate := .awaitingData }

/-- `AFD_FEND` (R171). -/
def execAfdFend (s : State) : Result := .next (toAwaitingData s)

/-- `AFD_SKIP` (R172): the byte is consumed and nothing changes. -/
def execAfdSkip (_b : Byte) (s : State) : Result := .next s

/-- `AD_FEND` (R173): `Done`, the whole dispatch, then back to the poll loop (R235). -/
def execAdFend (s : State) : Result :=
  andThen (dispatch { s with pstate := .done }) fun s' => .next { s' with phase := .pollRadio }

/-- `AD_FESC` (R175). -/
def execAdFesc (s : State) : Result := .next { s with pstate := .escaped }

/-- `AD_DATA` (R174): the parser state stays. -/
def execAdData (b : Byte) (s : State) : Result := append b s fun s' => s'

/-- `ESC_TFEND` (R176): the real delimiter is stored. -/
def execEscTfend (s : State) : Result := append fend s toAwaitingData

/-- `ESC_TFESC` (R177): the real escape byte is stored. -/
def execEscTfesc (s : State) : Result := append fesc s toAwaitingData

/-- `ESC_BAD` (R179): the error procedure; the byte is dropped and the parse goes on. -/
def execEscBad (b : Byte) (s : State) : Result :=
  andThen (raiseError (.invalidEscapeSequence b) s) fun s' => .next (toAwaitingData s')

/-- `PARSE_TIMEOUT` (R184). -/
def execParseTimeout (s : State) : Result :=
  .next { emit .timeout { s with pstate := .timeout } with phase := .pollRadio }

end Sys2Proof.Machine
end

