-- ==== Sys2Proof/Machine/Sequencer.lean ====
section
/-! DEFINITION. The polling loop's operations (45_sequencer.md). -/

namespace Sys2Proof.Machine

/-- `POLL_RADIO` (R231): RELAY runs to completion inside the step (R232), and an error in it ends only the unit. -/
def execPollRadio (s : State) : Result :=
  let (p, s1) := takeRadioPeek s
  andThen (if 0 < p then relay p s1 else .next s1) fun s' => .next { s' with phase := .pollSerial }

/-- `POLL_SERIAL` (R233). -/
def execPollSerial (s : State) : Result :=
  let (q, s1) := takeSerialPeek s
  if 0 < q then .next (parseStart s1) else .next { s1 with phase := .pollRadio }

end Sys2Proof.Machine
end

