-- ==== Sys2Proof/Machine/Stuffer.lean ====
section
/-! DEFINITION. The byte stuffer's input classes (41_byte_stuffer.md), each run by itself on BIG. -/

namespace Sys2Proof.Machine

/-- `STUFF_FEND` (R121): `put(0xDB); put(0xDC)`. -/
def execStuffFend (s : State) : Result := runBuild (putAll [fesc, tfend] s)

/-- `STUFF_FESC` (R122): `put(0xDB); put(0xDD)`. -/
def execStuffFesc (s : State) : Result := runBuild (putAll [fesc, tfesc] s)

/-- `STUFF_LIT` (R123): `put(b)`. -/
def execStuffLit (b : Byte) (s : State) : Result := runBuild (put b s)

end Sys2Proof.Machine
end

