-- ==== Sys2Proof/Machine/Dispatch.lean ====
section
/-! DEFINITION. The meaning of every operation, one arm each. -/

namespace Sys2Proof.Machine

def exec (i : Instr) (s : State) : Host.Outcome State Fault Refusal :=
  match i with
  | .dataFlex _ _ => Sys2Proof.Machine.execDataFlex s
  | .dataNoflag _ _ => Sys2Proof.Machine.execDataNoflag s
  | .reset _ => Sys2Proof.Machine.execReset s
  | .unknown1 _ => Sys2Proof.Machine.execUnknown1 s
  | .unknown2 _ => Sys2Proof.Machine.execUnknown2 s
  | .unknown3 _ => Sys2Proof.Machine.execUnknown3 s
  | .unknown4 _ => Sys2Proof.Machine.execUnknown4 s
  | .unknown5 _ => Sys2Proof.Machine.execUnknown5 s
  | .unknown6 _ => Sys2Proof.Machine.execUnknown6 s
  | .unknown7 _ => Sys2Proof.Machine.execUnknown7 s
  | .unknown8 _ => Sys2Proof.Machine.execUnknown8 s
  | .unknown9 _ => Sys2Proof.Machine.execUnknown9 s
  | .unknownA _ => Sys2Proof.Machine.execUnknownA s
  | .unknownB _ => Sys2Proof.Machine.execUnknownB s
  | .unknownC _ => Sys2Proof.Machine.execUnknownC s
  | .unknownD _ => Sys2Proof.Machine.execUnknownD s
  | .unknownE _ => Sys2Proof.Machine.execUnknownE s
  | .afdFend => Sys2Proof.Machine.execAfdFend s
  | .afdSkip b => Sys2Proof.Machine.execAfdSkip b s
  | .adFend => Sys2Proof.Machine.execAdFend s
  | .adFesc => Sys2Proof.Machine.execAdFesc s
  | .adData b => Sys2Proof.Machine.execAdData b s
  | .escTfend => Sys2Proof.Machine.execEscTfend s
  | .escTfesc => Sys2Proof.Machine.execEscTfesc s
  | .escBad b => Sys2Proof.Machine.execEscBad b s
  | .parseTimeout => Sys2Proof.Machine.execParseTimeout s
  | .stuffFend => Sys2Proof.Machine.execStuffFend s
  | .stuffFesc => Sys2Proof.Machine.execStuffFesc s
  | .stuffLit b => Sys2Proof.Machine.execStuffLit b s
  | .crcUpdate span => Sys2Proof.Machine.execCrcUpdate span s
  | .pollRadio => Sys2Proof.Machine.execPollRadio s
  | .relay p => Sys2Proof.Machine.execRelay p s
  | .pollSerial => Sys2Proof.Machine.execPollSerial s
  | .parseStart => Sys2Proof.Machine.execParseStart s
  | .diag text => Sys2Proof.Machine.execDiag text s
  | .dispatch => Sys2Proof.Machine.execDispatch s
  | .emptyFrame => Sys2Proof.Machine.execEmptyFrame s

end Sys2Proof.Machine
end

