-- ==== Sys2Proof/Machine/Fetch.lean ====
section
/-! DEFINITION. What the sequencer runs next (R77, R181, R230): the choice of an operation by the state and the input, what a
step does around it, and how a table word is placed where the next step takes it. -/

namespace Sys2Proof.Machine

/-- What a step finds to do. -/
inductive Fetched where
  /-- An operation, with the state after its input is taken. -/
  | run (i : Instr) (s : State)
  /-- Nothing is offered on SERIAL.receive: the block waits (R30, R181). -/
  | wait (s : State)
  /-- No rule steps here. -/
  | stuck (e : Fault)

/-- The sequencer's choice. In a parse one input is taken and decoded by the parser state (R181). With `pstate = Done` still in
a parse, DISPATCH is what R77 selects (log entry 8); with the two failures nothing is (R181, log entry 9). -/
def fetch (s : State) : Fetched :=
  match s.phase with
  | .pollRadio => .run .pollRadio s
  | .pollSerial => .run .pollSerial s
  | .parse =>
    match s.pstate with
    | .done => .run .dispatch s
    | .timeout => .stuck .parserTerminal
    | .overflow => .stuck .parserTerminal
    | .awaitingFirstDelimiter => fetchInput .awaitingFirstDelimiter s
    | .awaitingData => fetchInput .awaitingData s
    | .escaped => fetchInput .escaped s
where
  /-- Take one input of the serial port and decode it (R69, R181). -/
  fetchInput (st : PState) (s : State) : Fetched :=
    match takeSerial s with
    | (none, s1) => .wait s1
    | (some x, s1) =>
      match decodeParser st x with
      | .ok i => .run i s1
      | .error _ => .stuck .parserTerminal

/-- What follows the operation in a step: a dispatch that the sequencer selected by `pstate = Done` leaves the parse (R235; log
entry 8), and the two unconstrained indicators take fresh values (R17). -/
def settle (before after : State) : State :=
  redrawIndicators
    (if before.phase = .parse ∧ before.pstate = .done then { after with phase := .pollRadio } else after)

/-- Place a code where the next step takes it. A command byte is the one byte of a finished frame (R65, R67); a parser input is
the next input of a parse in its parser state (R69). The stuffer's codes are given to no step, so they change nothing. -/
def placeCode (c : Code) (s : State) : State :=
  match c with
  | .command b0 => { s with phase := .parse, pstate := .done, small := [(0, b0)], smallLen := 1 }
  | .parser st x =>
    { s with phase := .parse, pstate := st, ports := { s.ports with serialReceive := x :: s.ports.serialReceive } }
  | .stuffer _ => s

end Sys2Proof.Machine
end

