-- ==== Sys2Proof/Machine/Step.lean ====
section
/-! DEFINITION. One step of the block, and the host's placing of a table word. -/

namespace Sys2Proof.Machine

/-- One step (R181, R230): a configuration that breaks the boot constraints is refused (R282); else the operation the
sequencer selects is run. With no serial input offered in a parse the block waits: only the draw counter, what is left of the
wait (R185) and the two unconstrained indicators move (log entry 4). -/
def step (s : State) : Host.Outcome State Fault Refusal :=
  if validConfig s.cfg then
    match fetch s with
    | .run i s1 =>
      match exec i s1 with
      | .next s2 => .next (settle s s2)
      | .fault e => .fault e
      | .refused e => .refused e
    | .wait s1 => .next (settle s s1)
    | .stuck e => .fault e
  else .refused .badConfiguration

/-- `s` with a table word placed where the next step takes it, in the context `tableCode` reads it in (log entry 12). RESET is
the one such operation that asks a port for an answer, so a command byte comes with one radio answer, `true`. -/
def State.withFetchWord (s : State) (nbits w : Nat) : State :=
  if nbits = 8 then
    placeCode (tableCode (BitVec.ofNat 8 w)) { s with ports := { s.ports with radioReset := true :: s.ports.radioReset } }
  else s

end Sys2Proof.Machine
end

