-- ==== Sys2Proof/Safety.lean ====
section
/-! DEFINITION. What counts as a legal state and a safe outcome, and the states that finished frames, reports and errors leave,
in the terms the claims use. -/

namespace Sys2Proof.Machine

/-- A parser state that still takes input (R14, R184). -/
def PState.takesInput : PState → Bool
  | .awaitingFirstDelimiter => true
  | .awaitingData => true
  | .escaped => true
  | .done => false
  | .timeout => false
  | .overflow => false

/-- A byte space whose indices below `len` all hold a value and which holds nothing at or above `cap`. -/
structure Memory.Holds (m : Memory) (len cap : Nat) : Prop where
  wf : Memory.wf m
  bounded : len ≤ cap
  written : ∀ i, i < len → (Memory.read m i).isSome
  inside : ∀ i, cap ≤ i → Memory.read m i = none

/-- The legal states: SMALL and BIG hold what their lengths say (R10, R12, R15, R41, R42), TABLE holds FLEX_TABLE (R18, R282),
and a parse in progress is in a state that takes input (R14, R186). -/
structure State.Inv (s : State) : Prop where
  small : Memory.Holds s.small s.smallLen s.cfg.smallCap
  big : Memory.Holds s.big s.bigLen s.cfg.bigCap
  table : s.table = s.cfg.flexTable
  parsing : s.phase = .parse → PState.takesInput s.pstate = true

/-- The boot constraints on the parameters, written out from R282.1, R151 with the widths of R72 and the frame of R62 to R64, and
R255: `SMALL_CAP = MAX_PAYLOAD`, `MAX_PAYLOAD >= 3`, and every text ASCII and its diagnostic frame no longer than `BIG_CAP`. -/
structure BootConstraints (c : Config.Params) : Prop where
  smallCap : c.smallCap = c.maxPayload
  maxPayload : 3 ≤ c.maxPayload
  ascii : ∀ t ∈ texts c, ∀ b ∈ t, b.toNat < 128
  diagFits : ∀ t ∈ texts c, ∀ content : List Byte, content = 0x20 :: c.diagAddr.toList ++ [0x03, 0xF0] ++ t →
    2 + ((content ++ [hi8 (crcOf c.flexTable 0xFFFF content), lo8 (crcOf c.flexTable 0xFFFF content)]).map fun b =>
      if b = 0xC0 ∨ b = 0xDB then 2 else 1).sum ≤ c.bigCap

/-- The environment keeps the radio's contract for a request of `p` bytes: the next scripted answer, if there is one, is at
most `p` bytes (R30). -/
def radioKeepsContract (s : State) (p : Nat) : Bool :=
  match s.ports.radioReceive with
  | [] => true
  | d :: _ => decide (d.length ≤ p)

/-- The contract for whatever count the next poll of the radio answers (R30). -/
def radioWillKeepContract (s : State) : Bool := radioKeepsContract s (takeRadioPeek s).1

/-- The frame of a payload fits BIG (R72, R151, R296). -/
abbrev frameFits (payload : List Byte) (s : State) : Prop := (frame s.table payload).length ≤ s.cfg.bigCap

/-- The state a finished build leaves: the frame in BIG from index 0, its length, its CRC (R141, R145, R146). -/
def afterBuild (payload : List Byte) (s : State) : State :=
  { s with
    crc := frameCrc s.table payload
    big := Memory.writeSpan s.big 0 (frame s.table payload)
    bigLen := (frame s.table payload).length }

/-- The state a sent frame leaves (R147). -/
def afterFrame (payload : List Byte) (s : State) : State :=
  emit (.serTx (frame s.table payload)) (afterBuild payload s)

/-- The state `DIAG(text)` leaves (R150). -/
def afterDiag (text : Text) (s : State) : State := afterFrame (diagPayload s.cfg text) s

/-- The state the error procedure leaves (R254). -/
def afterError (k : ErrorKind) (s : State) : State := setErr true (afterDiag (msg s.cfg k) s)

/-- The bytes of SMALL below `smallLen`, where all of them hold a value. -/
def smallBytes (s : State) : Option (List Byte) :=
  match readSmallSpan 0 s.smallLen s with
  | .ok bs => some bs
  | .error _ => none

/-- A send on the serial port. -/
def Event.isSerTx : Event → Bool
  | .serTx _ => true
  | _ => false

/-- A radio reset. -/
def Event.isRadRst : Event → Bool
  | .radRst _ => true
  | _ => false

/-- The value an event writes to the error-indicator latch. -/
def Event.latch : Event → Option Bool
  | .err v => some v
  | _ => none

/-- The last value a trace writes to the latch. -/
def lastLatch (trace : List Event) : Option Bool := (trace.filterMap Event.latch).getLast?

/-- The events of `t`'s trace after those of `s`. -/
def newEvents (s t : State) : List Event := t.trace.drop s.trace.length

/-- The generator of R102: eight right shifts by the reflected polynomial, then the exclusive-or. -/
def flexGen (i : Nat) : Word :=
  let shift (x : Word) : Word := if x.getLsbD 0 then (x >>> 1) ^^^ 0x8408 else x >>> 1
  shift (shift (shift (shift (shift (shift (shift (shift (BitVec.ofNat 16 i)))))))) ^^^ 0x0F87

/-- The state RELAY builds from: the unit-start clear done, the answer `d` taken, `RAD_RX(p, d)` emitted, `d` in SMALL. -/
def relayReceived (p : Nat) (s : State) : State :=
  let s1 := unitStartClear s
  let d := (takeRadioReceive p s1).1
  { emit (.radRx p d) (takeRadioReceive p s1).2 with small := Memory.writeSpan s1.small 0 d, smallLen := d.length }

/-- What one unit may leave to the next: everything but `crc`, BIG with its length, and the bytes of SMALL from `smallLen` up. -/
def sameVisible (s t : State) : Prop :=
  t = { s with crc := t.crc, big := t.big, bigLen := t.bigLen, small := t.small } ∧
  ∀ i, i < s.smallLen → Memory.read t.small i = Memory.read s.small i

end Sys2Proof.Machine
end

