-- ==== Sys2Proof/Certificates/Slice0/Obligations.lean ====
section
/-! DEFINITION. The statements for the provers. Each says in Lean what its entry of OBLIGATIONS.json says in words. `frameFits`
is the room condition of R151 and R296; a statement that has it as a hypothesis says what happens where the frame fits BIG. -/

open Sys2Proof Sys2Proof.Machine

/-! ### Encodings -/

/-- R67, R69, R70: words written out bit by bit from the tables decode to the operations they stand for. -/
def Obligations.SampleWordsDecode : Prop :=
  decode (.command 0b00100000#8) = .ok (.dataFlex 0 0) ∧
  decode (.command 0b11010000#8) = .ok (.dataNoflag 3 1) ∧
  decode (.command 0b11111111#8) = .ok (.reset 0xF) ∧
  decode (.command 0b00101010#8) = .ok (.unknownA 0x2) ∧
  decode (.parser .awaitingFirstDelimiter (.byte 0b11000000#8)) = .ok .afdFend ∧
  decode (.parser .awaitingData (.byte 0b11011100#8)) = .ok (.adData 0xDC) ∧
  decode (.parser .escaped (.byte 0b11000000#8)) = .ok (.escBad 0xC0) ∧
  decode (.parser .escaped .tick) = .ok .parseTimeout ∧
  decode (.stuffer 0b11011011#8) = .ok .stuffFesc

/-- R67, R69, R70: decoding the code of a well-formed operation gives it back, with every operand. -/
def Obligations.DecodeOfEncodeIsIdentity : Prop :=
  ∀ i : Instr, i.wf = true → ∀ c, encode i = some c → decode c = .ok i

/-- R67, R69, R70: what decodes is well formed, and its code is the one decoded; `Tick` is one input in three states (R184). -/
def Obligations.EncodeOfDecodeIsIdentity : Prop :=
  ∀ (c : Code) (i : Instr), decode c = .ok i →
    i.wf = true ∧ ((∀ st, c ≠ .parser st .tick) → encode i = some c) ∧ ((∃ st, c = .parser st .tick) → i = .parseTimeout)

/-- R67: the command rows' masks and matches partition the 256 values of `b0`, and the decoder picks the row that matches. -/
def Obligations.CommandRowsPartitionAllBytes : Prop :=
  ∀ b0 : Byte,
    encode (decodeCommand b0) = some (.command b0) ∧
    (∃ m v, tableRow (decodeCommand b0) = some (m, v) ∧ b0 &&& m = v) ∧
    ∀ (j : Instr) (c : Byte) (m v : Byte), encode j = some (.command c) → tableRow j = some (m, v) → b0 &&& m = v →
      tableRow (decodeCommand b0) = some (m, v)

/-! ### CRC and stuffing -/

/-- R104, which the spec marks as derived: the split law, for every table. -/
def Obligations.CrcSplitLaw : Prop :=
  ∀ (t : Vector Word 256) (c : Word) (us vs : List Byte), crcOf t c (us ++ vs) = crcOf t (crcOf t c us) vs

/-- R105, which the spec marks as derived: the residue law for every table, the residue of the default table (log entry 2), and
the residue of a whole outbound content. -/
def Obligations.CrcResidueLaw : Prop :=
  (∀ (t : Vector Word 256) (c : Word),
    crcOf t c [hi8 c, lo8 c] =
      ((lo8 (tableAt t 0)).zeroExtend 16 <<< 8) ^^^ tableAt t (hi8 (tableAt t 0))) ∧
  (∀ c : Word, crcOf Config.defaultTable c [hi8 c, lo8 c] = 0x7070) ∧
  (∀ (t : Vector Word 256) (d : List Byte),
    crcOf t crcSeed (frameContent t d) =
      ((lo8 (tableAt t 0)).zeroExtend 16 <<< 8) ^^^ tableAt t (hi8 (tableAt t 0)))

/-- R102, which the spec takes from general knowledge (log entry 2): every entry of the default table is what the rule's
generator gives. -/
def Obligations.DefaultTableMatchesGenerator : Prop :=
  ∀ i : Byte, tableAt Config.defaultTable i = flexGen i.toNat

/-- R127, which the spec marks as derived: no delimiter in a stuffed content, every escape byte directly followed by TFEND or TFESC, and the length. -/
def Obligations.StuffedContentFraming : Prop :=
  ∀ c : List Byte,
    (0xC0 : Byte) ∉ stuffed c ∧
    (∀ pre post : List Byte, stuffed c = pre ++ (0xDB : Byte) :: post →
      ∃ rest, post = (0xDC : Byte) :: rest ∨ post = (0xDD : Byte) :: rest) ∧
    (stuffed c).length = c.length + (c.filter fun b => b == 0xC0 || b == 0xDB).length ∧
    c.length ≤ (stuffed c).length ∧ (stuffed c).length ≤ 2 * c.length

/-- R72, which the spec marks as derived: the length of an outbound frame, and its bounds for a relay of `m` bytes. -/
def Obligations.OutboundFrameLength : Prop :=
  (∀ (t : Vector Word 256) (d : List Byte), (frame t d).length = 2 + contentWidth (frameContent t d)) ∧
  (∀ (t : Vector Word 256) (d : List Byte), d.length + 5 ≤ (frame t d).length ∧ (frame t d).length ≤ 2 * d.length + 7)

/-- R100, R101: CRC_UPDATE replaces the accumulator, byte by byte, with itself shifted left by eight and exclusive-ored with the
table entry at its high byte exclusive-ored with the byte; an empty span leaves it; nothing else changes. -/
def Obligations.CrcUpdateResult : Prop :=
  ∀ (span : List Byte) (s : State),
    exec (.crcUpdate span) s = .next
      { s with crc := span.foldl (fun c b => (c <<< 8) ^^^ s.table.get (c.extractLsb' 8 8 ^^^ b).toFin) s.crc }

/-- R120: the stuffer function in its three cases, and `stuffByte`, which appends its bytes to BIG at `bigLen` in order and
advances `bigLen` by their number, where they have room. -/
def Obligations.StufferFunction : Prop :=
  stuff 0xC0 = [0xDB, 0xDC] ∧ stuff 0xDB = [0xDB, 0xDD] ∧ (∀ b : Byte, b ≠ 0xC0 → b ≠ 0xDB → stuff b = [b]) ∧
  ∀ (b : Byte) (s : State), s.bigLen + (stuff b).length ≤ s.cfg.bigCap →
    stuffByte b s = .ok { s with big := Memory.writeSpan s.big s.bigLen (stuff b), bigLen := s.bigLen + (stuff b).length }

/-- R121 to R123: a stuffer operation with room in BIG appends its output bytes at `bigLen` and advances it, and changes
nothing else. -/
def Obligations.StuffOperationsAppend : Prop :=
  ∀ s : State,
    (s.bigLen + 2 ≤ s.cfg.bigCap →
      exec .stuffFend s = .next { s with
        big := Memory.write (Memory.write s.big s.bigLen 0xDB) (s.bigLen + 1) 0xDC, bigLen := s.bigLen + 2 }) ∧
    (s.bigLen + 2 ≤ s.cfg.bigCap →
      exec .stuffFesc s = .next { s with
        big := Memory.write (Memory.write s.big s.bigLen 0xDB) (s.bigLen + 1) 0xDD, bigLen := s.bigLen + 2 }) ∧
    (s.bigLen + 1 ≤ s.cfg.bigCap → ∀ b,
      exec (.stuffLit b) s = .next { s with big := Memory.write s.big s.bigLen b, bigLen := s.bigLen + 1 })

/-- R121 to R124, R148 and log entry 10 (the model's reading of a stuffer operation run by itself): without room the partial
output stays in BIG until the packet-size report overwrites it, and the error procedure is run. -/
def Obligations.StuffOperationsOverflow : Prop :=
  ∀ s : State,
    frameFits (diagPayload s.cfg s.cfg.msgPacketSize) s →
    (s.bigLen = s.cfg.bigCap →
      (∀ b, exec (.stuffLit b) s = .next (afterError (.oversizedOutboundPacket s.cfg.bigCap) s)) ∧
      exec .stuffFend s = .next (afterError (.oversizedOutboundPacket s.cfg.bigCap) s) ∧
      exec .stuffFesc s = .next (afterError (.oversizedOutboundPacket s.cfg.bigCap) s)) ∧
    (s.bigLen + 1 = s.cfg.bigCap →
      exec .stuffFend s = .next (afterError (.oversizedOutboundPacket s.cfg.bigCap)
        { s with big := Memory.write s.big s.bigLen 0xDB, bigLen := s.cfg.bigCap }) ∧
      exec .stuffFesc s = .next (afterError (.oversizedOutboundPacket s.cfg.bigCap)
        { s with big := Memory.write s.big s.bigLen 0xDB, bigLen := s.cfg.bigCap }))

/-! ### The frame builder -/

/-- R62, R142, R144 to R147: a relay whose count passes the size check and whose frame fits sends exactly one frame,
`[FEND] ++ stuffed([0x20] ++ d ++ CRC) ++ [FEND]`, for every answer `d` within the radio's contract. -/
def Obligations.RelaySendsTheFrame : Prop :=
  ∀ (p : Nat) (s : State),
    p ≤ 2 * s.cfg.maxPayload → p ≤ s.cfg.smallCap → radioKeepsContract s p = true →
    frameFits (takeRadioReceive p (unitStartClear s)).1 s →
    exec (.relay p) s = .next (afterFrame (takeRadioReceive p (unitStartClear s)).1 (relayReceived p s)) ∧
    ∃ clear, (clear = [] ∨ clear = [Event.err false]) ∧
      (afterFrame (takeRadioReceive p (unitStartClear s)).1 (relayReceived p s)).trace =
        s.trace ++ clear ++ [.radRx p (takeRadioReceive p (unitStartClear s)).1,
          .serTx (0xC0 :: stuffed (0x20 :: (takeRadioReceive p (unitStartClear s)).1 ++
            [hi8 (crcOf s.table 0xFFFF (0x20 :: (takeRadioReceive p (unitStartClear s)).1)),
             lo8 (crcOf s.table 0xFFFF (0x20 :: (takeRadioReceive p (unitStartClear s)).1))]) ++ [0xC0])]

/-- R143: a count above either bound is rejected before any receive: the packet-size report and the indicator, nothing else;
the radio keeps its bytes. -/
def Obligations.RelayRejectsLargeCount : Prop :=
  ∀ (p : Nat) (s : State),
    (2 * s.cfg.maxPayload < p ∨ s.cfg.smallCap < p) →
    frameFits (diagPayload s.cfg s.cfg.msgPacketSize) s →
    ∃ t, exec (.relay p) s = .next t ∧
      t = afterError (.oversizedOutboundPacket p) (unitStartClear s) ∧ t.ports = s.ports ∧ t.small = s.small ∧
      t.smallLen = s.smallLen ∧ t.errInd = true

/-- R148: a relay build that does not fit BIG sends no relay frame; the radio's answer is followed by the packet-size
report and the indicator, and BIG is left with the report. -/
def Obligations.RelayOverflowReports : Prop :=
  ∀ (p : Nat) (s : State),
    p ≤ 2 * s.cfg.maxPayload → p ≤ s.cfg.smallCap → radioKeepsContract s p = true →
    ¬ frameFits (takeRadioReceive p (unitStartClear s)).1 s →
    frameFits (diagPayload s.cfg s.cfg.msgPacketSize) s →
    ∃ t, exec (.relay p) s = .next t ∧ t.errInd = true ∧
      t.trace = (unitStartClear s).trace ++ [.radRx p (takeRadioReceive p (unitStartClear s)).1,
        .serTx (frame s.table (diagPayload s.cfg s.cfg.msgPacketSize)), .err true] ∧
      t.bigLen = (frame s.table (diagPayload s.cfg s.cfg.msgPacketSize)).length ∧
      readBigSpan 0 t.bigLen t = .ok (frame s.table (diagPayload s.cfg s.cfg.msgPacketSize))

/-- R144, D27: a radio answer longer than the request is refused. -/
def Obligations.RelayRefusesLongAnswer : Prop :=
  ∀ (p : Nat) (s : State), p ≤ 2 * s.cfg.maxPayload → p ≤ s.cfg.smallCap → radioKeepsContract s p = false →
    exec (.relay p) s = .refused .radioContract

/-- R63, R64, R150, R152: DIAG sends exactly the diagnostic frame of its text, once, and writes neither SMALL nor `errInd`; an
overflow of BIG, which R151 rules out for the texts of R255, faults (U1). The header is the model's reading of R64, fourteen
address bytes and two more (log entry 15). -/
def Obligations.DiagSendsTheFrame : Prop :=
  ∀ (text : Text) (s : State),
    (frameFits (s.cfg.diagAddr.toList ++ [0x03, 0xF0] ++ text) s →
      ∃ t, exec (.diag text) s = .next t ∧
        t = afterFrame (s.cfg.diagAddr.toList ++ [0x03, 0xF0] ++ text) s ∧
        t.trace = s.trace ++ [.serTx (frame s.table (s.cfg.diagAddr.toList ++ [0x03, 0xF0] ++ text))]) ∧
    (¬ frameFits (s.cfg.diagAddr.toList ++ [0x03, 0xF0] ++ text) s → exec (.diag text) s = .fault .diagOverflow)

/-- R254: the error procedure of every kind 1 to 6 whose report fits sends the diagnostic first and then sets the indicator; SMALL,
the parser state and the phase are left alone. -/
def Obligations.ErrorProcedureOrder : Prop :=
  ∀ (k : ErrorKind) (s : State), errorCode k ≤ 6 → frameFits (diagPayload s.cfg (msg s.cfg k)) s →
    ∃ t, raiseError k s = .next t ∧ t.errInd = true ∧
      t.trace = s.trace ++ [.serTx (frame s.table (diagPayload s.cfg (msg s.cfg k))), .err true] ∧
      t.small = s.small ∧ t.smallLen = s.smallLen ∧ t.pstate = s.pstate ∧ t.phase = s.phase ∧ t.ports = s.ports

/-! ### The frame parser -/

/-- R170, R171, R172, R175, R184: the parser operations that store nothing and report nothing. -/
def Obligations.ParserQuietOperations : Prop :=
  ∀ s : State,
    exec .parseStart s = .next
      { unitStartClear s with smallLen := 0, pstate := .awaitingFirstDelimiter, phase := .parse } ∧
    exec .afdFend s = .next { s with pstate := .awaitingData } ∧
    (∀ b, exec (.afdSkip b) s = .next s) ∧
    exec .adFesc s = .next { s with pstate := .escaped } ∧
    exec .parseTimeout s = .next
      { s with pstate := .timeout, trace := s.trace ++ [.timeout], phase := .pollRadio }

/-- R174, R176, R177, R178: with room in SMALL the byte is stored at `smallLen` (the real delimiter and escape byte for the
escaped ones), `smallLen` advances, and the parser is in AwaitingData. -/
def Obligations.ParserStoresBytes : Prop :=
  ∀ s : State, s.smallLen < s.cfg.smallCap →
    (∀ b, exec (.adData b) s = .next
      { s with small := Memory.write s.small s.smallLen b, smallLen := s.smallLen + 1 }) ∧
    exec .escTfend s = .next
      { s with small := Memory.write s.small s.smallLen 0xC0, smallLen := s.smallLen + 1, pstate := .awaitingData } ∧
    exec .escTfesc s = .next
      { s with small := Memory.write s.small s.smallLen 0xDB, smallLen := s.smallLen + 1, pstate := .awaitingData }

/-- R174, R176, R177, R180: on a full SMALL each of the storing operations overflows: report, indicator, Overflow, and back to
PollRadio without a dispatch; nothing is stored. -/
def Obligations.ParserOverflowEndsParse : Prop :=
  ∀ s : State, s.smallLen = s.cfg.smallCap → frameFits (diagPayload s.cfg s.cfg.msgOverflow) s →
    ∀ i : Instr, (i = .escTfend ∨ i = .escTfesc ∨ ∃ b, i = .adData b) →
      exec i s = .next
        { afterError (.bufferOverflowDuringParse s.cfg.smallCap) s with pstate := .overflow, phase := .pollRadio }

/-- R179: an invalid escape is reported and signalled, the byte is dropped, and the same frame goes on. -/
def Obligations.InvalidEscapeGoesOn : Prop :=
  ∀ (b : Byte) (s : State), frameFits (diagPayload s.cfg s.cfg.msgEscape) s →
    ∃ t, exec (.escBad b) s = .next t ∧
      t = { afterError (.invalidEscapeSequence b) s with pstate := .awaitingData } ∧
      t.small = s.small ∧ t.smallLen = s.smallLen ∧ t.phase = s.phase

/-- R173, R235: AD_FEND is Done, then the whole dispatch, then PollRadio. -/
def Obligations.ClosingDelimiterDispatches : Prop :=
  ∀ s t : State, exec .dispatch { s with pstate := .done } = .next t →
    exec .adFend s = .next { t with phase := .pollRadio }

/-- R173, R202, R207: DISPATCH of a finished good data frame sends its payload, and AD_FEND ends the parse with it. -/
def Obligations.ClosingDelimiterDelivers : Prop :=
  ∀ (s : State) (b0 : Byte) (payload : List Byte),
    smallBytes s = some (b0 :: payload ++
      [hi8 (crcOf s.table 0xFFFF (b0 :: payload)), lo8 (crcOf s.table 0xFFFF (b0 :: payload))]) →
    b0 &&& 0x2F = 0x20 → payload ≠ [] →
    exec .dispatch s = .next
      { s with crc := crcOf s.table 0xFFFF (b0 :: payload), trace := s.trace ++ [.radTx payload] } ∧
    exec .adFend s = .next
      { s with
        crc := crcOf s.table 0xFFFF (b0 :: payload), pstate := .done, phase := .pollRadio,
        trace := s.trace ++ [.radTx payload] }

/-- R294, which the spec marks as derived: FESC FEND inside a frame does not end it: over the two steps the frame goes on with the bytes it had, after one
report. -/
def Obligations.EscapedDelimiterDoesNotEndFrame : Prop :=
  ∀ (s : State) (rest : List SerialInput),
    validConfig s.cfg = true → s.table = s.cfg.flexTable → s.phase = .parse → s.pstate = .awaitingData →
    s.ports.serialReceive = .byte 0xDB :: .byte 0xC0 :: rest →
    ∃ t, Host.Core.run core 2 s = .next t ∧
      t.phase = .parse ∧ t.pstate = .awaitingData ∧ t.small = s.small ∧ t.smallLen = s.smallLen ∧
      t.ports.serialReceive = rest ∧
      t.trace = s.trace ++ [.serTx (frame s.table (diagPayload s.cfg s.cfg.msgEscape)), .err true]

/-- R126, which the spec marks as derived: from AwaitingFirstDelimiter, a parser fed `[FEND] ++ stuffed(c)` with no Tick, for any `c` that fits SMALL, has
exactly `c` in SMALL, is in AwaitingData, and has emitted nothing; the closing FEND then ends the parse in Done. -/
def Obligations.StuffedFrameRoundTrip : Prop :=
  ∀ (s : State) (c : List Byte) (rest : List SerialInput),
    validConfig s.cfg = true → State.Inv s → s.phase = .parse → s.pstate = .awaitingFirstDelimiter → s.smallLen = 0 →
    c.length ≤ s.cfg.smallCap →
    s.ports.serialReceive = (0xC0 :: stuffed c ++ [0xC0]).map SerialInput.byte ++ rest →
    (∃ t, Host.Core.run core (1 + (stuffed c).length) s = .next t ∧
      t.phase = .parse ∧ t.pstate = .awaitingData ∧ smallBytes t = some c ∧ t.trace = s.trace) ∧
    ∃ u, Host.Core.run core (2 + (stuffed c).length) s = .next u ∧
      u.phase = .pollRadio ∧ u.pstate = .done ∧ smallBytes u = some c ∧ u.ports.serialReceive = rest

/-! ### Validation and dispatch -/

/-- R67, R200: DISPATCH on a frame that is not empty runs the command its first byte decodes to. -/
def Obligations.DispatchRunsDecodedCommand : Prop :=
  ∀ (s : State) (b0 : Byte), readSmall 0 s = .ok b0 → exec .dispatch s = exec (decodeCommand b0) s

/-- R200, R216: DISPATCH and EMPTY_FRAME on an empty frame, under each value of the parameter. -/
def Obligations.EmptyFrameResult : Prop :=
  ∀ s : State,
    (s.smallLen = 0 → exec .dispatch s = exec .emptyFrame s) ∧
    (s.cfg.emptyFrameAction = .ignore → exec .emptyFrame s = .next s) ∧
    (s.cfg.emptyFrameAction = .report → frameFits (diagPayload s.cfg s.cfg.msgShort) s →
      exec .emptyFrame s = .next (afterError (.frameTooShort 0) s))

/-- R202, R203, R206, R207, R208: DATA_FLEX on a frame with a matching CRC. With a non-zero first byte the payload is sent
without it and without the CRC; with a zero first byte (the branch R217 shows unreachable) only that byte is dropped; an empty
payload sends nothing. -/
def Obligations.DataFlexDelivers : Prop :=
  ∀ (s : State) (port : BitVec 2) (b4 : BitVec 1) (b0 : Byte) (payload : List Byte) (k : Word),
    k = crcOf s.table 0xFFFF (b0 :: payload) → smallBytes s = some (b0 :: payload ++ [hi8 k, lo8 k]) →
    (b0 ≠ 0 → payload ≠ [] →
      exec (.dataFlex port b4) s = .next { s with crc := k, trace := s.trace ++ [.radTx payload] }) ∧
    (b0 ≠ 0 → payload = [] → exec (.dataFlex port b4) s = .next { s with crc := k }) ∧
    (b0 = 0 → exec (.dataFlex port b4) s =
      .next { s with crc := k, trace := s.trace ++ [.radTx (payload ++ [hi8 k, lo8 k])] })

/-- R202, R203, R205, R206: the two errors DATA_FLEX finds in a frame of two bytes or more. A CRC that differs from the trailing two
bytes rejects the frame: one report, the indicator, no radio send. The two bytes FF FF, the only two-byte content whose CRC matches,
which no dispatch reaches (R217), make the length left for the payload underflow, and FrameTooShort is reported. -/
def Obligations.DataFlexReportsErrors : Prop :=
  ∀ (s : State) (port : BitVec 2) (b4 : BitVec 1),
    (∀ (body : List Byte) (h l : Byte),
      smallBytes s = some (body ++ [h, l]) → crcOf s.table 0xFFFF body ≠ cat16 h l →
      frameFits (diagPayload s.cfg s.cfg.msgCrc) s →
      exec (.dataFlex port b4) s = .next (afterError (.checksumMismatch (crcOf s.table 0xFFFF body)) s)) ∧
    (smallBytes s = some [0xFF, 0xFF] → frameFits (diagPayload s.cfg s.cfg.msgShort) s →
      exec (.dataFlex port b4) s = .next (afterError (.frameTooShort 2) s))

/-- R201: both data commands report FrameTooShort for a frame below two bytes, before anything else; a dispatched frame of one
byte whose low nibble is 0 is always FrameTooShort, whatever its flag bit. -/
def Obligations.DataFramesNeedTwoBytes : Prop :=
  ∀ (s : State), frameFits (diagPayload s.cfg s.cfg.msgShort) s →
    (s.smallLen < 2 → ∀ (port : BitVec 2) (b4 : BitVec 1),
      exec (.dataFlex port b4) s = .next (afterError (.frameTooShort s.smallLen) s) ∧
      exec (.dataNoflag port b4) s = .next (afterError (.frameTooShort s.smallLen) s)) ∧
    (∀ b0 : Byte, smallBytes s = some [b0] → b0 &&& 0x0F = 0x00 →
      exec .dispatch s = .next (afterError (.frameTooShort 1) s))

/-- R204: DATA_NOFLAG always reports: FrameTooShort below two bytes, else ProtocolFlagMissing, and so does a dispatched frame
whose first byte has `b0 & 0x2F = 0`; nothing is ever sent to the radio. -/
def Obligations.DataNoflagAlwaysReports : Prop :=
  ∀ (s : State),
    (∀ (port : BitVec 2) (b4 : BitVec 1),
      (s.smallLen < 2 → frameFits (diagPayload s.cfg s.cfg.msgShort) s →
        exec (.dataNoflag port b4) s = .next (afterError (.frameTooShort s.smallLen) s)) ∧
      (∀ b0, 2 ≤ s.smallLen → readSmall 0 s = .ok b0 → frameFits (diagPayload s.cfg s.cfg.msgProtocol) s →
        exec (.dataNoflag port b4) s = .next (afterError (.protocolFlagMissing b0) s))) ∧
    (∀ b0, readSmall 0 s = .ok b0 → b0 &&& 0x2F = 0x00 →
      (s.smallLen = 1 → frameFits (diagPayload s.cfg s.cfg.msgShort) s →
        exec .dispatch s = .next (afterError (.frameTooShort 1) s)) ∧
      (2 ≤ s.smallLen → frameFits (diagPayload s.cfg s.cfg.msgProtocol) s →
        exec .dispatch s = .next (afterError (.protocolFlagMissing b0) s))) ∧
    (∀ t d, readSmall 0 s = .ok d → d &&& 0x2F = 0x00 → exec .dispatch s = .next t →
      ∀ span, Event.radTx span ∉ newEvents s t)

/-- R210 to R213: RESET asks the radio once; success ends it; failure is exactly three on/off cycles and then the report, with
the indicator left off. -/
def Obligations.ResetResult : Prop :=
  ∀ (hi : BitVec 4) (s : State),
    ((takeRadioReset s).1 = true →
      exec (.reset hi) s = .next { (takeRadioReset s).2 with trace := s.trace ++ [.radRst true] }) ∧
    ((takeRadioReset s).1 = false → frameFits (diagPayload s.cfg s.cfg.msgResetFail) s →
      exec (.reset hi) s = .next
        { afterDiag s.cfg.msgResetFail (takeRadioReset s).2 with
          errInd := false
          trace := s.trace ++ [.radRst false, .err true, .err false, .err true, .err false, .err true, .err false,
            .serTx (frame s.table (diagPayload s.cfg s.cfg.msgResetFail))] })

/-- R214, R255: each of the fourteen unknown commands sends the diagnostic of its own text, and writes no indicator. -/
def Obligations.UnknownCommandsReport : Prop :=
  ∀ (hi : BitVec 4) (s : State) (i : Instr) (c : Fin 14),
    (i, c) ∈ [(Instr.unknown1 hi, (0 : Fin 14)), (.unknown2 hi, 1), (.unknown3 hi, 2), (.unknown4 hi, 3), (.unknown5 hi, 4),
      (.unknown6 hi, 5), (.unknown7 hi, 6), (.unknown8 hi, 7), (.unknown9 hi, 8), (.unknownA hi, 9), (.unknownB hi, 10),
      (.unknownC hi, 11), (.unknownD hi, 12), (.unknownE hi, 13)] →
    frameFits (diagPayload s.cfg (s.cfg.msgUnknown.get c)) s →
    ∃ t, exec i s = .next t ∧ t = afterDiag (s.cfg.msgUnknown.get c) s ∧ t.errInd = s.errInd ∧
      t.trace = s.trace ++ [.serTx (frame s.table (diagPayload s.cfg (s.cfg.msgUnknown.get c)))]

/-- R217 (d), which the spec marks as derived: whatever a step does, and whatever a dispatch by itself does, a frame reaches the
radio only if SMALL holds a frame whose low nibble is 0, whose bit 5 is set, which has at least four bytes and whose CRC matches; and
then what is sent is its payload. A step that sends one is a step of a parse. -/
def Obligations.OnlyGoodFramesReachTheRadio : Prop :=
  ∀ (s t : State) (span : List Byte),
    (exec .dispatch s = .next t ∨ step s = .next t) → Event.radTx span ∈ newEvents s t →
    (step s = .next t → s.phase = .parse) ∧
    ∃ (b0 : Byte) (h l : Byte), smallBytes s = some (b0 :: span ++ [h, l]) ∧ b0 &&& 0x0F = 0x00 ∧ b0.getLsbD 5 = true ∧
      4 ≤ s.smallLen ∧ crcOf s.table 0xFFFF (b0 :: span) = cat16 h l

/-- R215, which the spec marks as derived: a dispatch, every command it can run, and the closing delimiter that runs one write no byte of SMALL, read no serial
input, and send on the serial port at most one frame; TABLE, the parameters and BIG from BIG_CAP up stay. -/
def Obligations.DispatchWritesNoFrameByte : Prop :=
  ∀ (s t : State) (i : Instr),
    (i = .dispatch ∨ i = .emptyFrame ∨ i = .adFend ∨ ∃ b0, i = decodeCommand b0) → exec i s = .next t →
    t.small = s.small ∧ t.smallLen = s.smallLen ∧ t.ports.serialReceive = s.ports.serialReceive ∧
    t.ports.serialPeek = s.ports.serialPeek ∧ t.cfg = s.cfg ∧ t.table = s.table ∧
    (i ≠ .adFend → t.pstate = s.pstate ∧ t.phase = s.phase) ∧
    (∀ a, s.cfg.bigCap ≤ a → Memory.read t.big a = Memory.read s.big a) ∧
    ((newEvents s t).filter Event.isSerTx).length ≤ 1

/-! ### The sequencer -/

/-- R231: POLL_RADIO with no radio bytes only moves to PollSerial; with some it runs RELAY and then moves. -/
def Obligations.PollRadioResult : Prop :=
  ∀ s : State,
    ((takeRadioPeek s).1 = 0 → exec .pollRadio s = .next { (takeRadioPeek s).2 with phase := .pollSerial }) ∧
    (∀ t, 0 < (takeRadioPeek s).1 → exec (.relay (takeRadioPeek s).1) (takeRadioPeek s).2 = .next t →
      exec .pollRadio s = .next { t with phase := .pollSerial }) ∧
    (∀ d rest, s.ports.radioReceive = d :: rest → 0 < (takeRadioPeek s).1 →
      (takeRadioPeek s).1 ≤ 2 * s.cfg.maxPayload → (takeRadioPeek s).1 ≤ s.cfg.smallCap → d.length ≤ (takeRadioPeek s).1 →
      frameFits d s →
      exec .pollRadio s = .next
        { afterFrame d (relayReceived (takeRadioPeek s).1 (takeRadioPeek s).2) with phase := .pollSerial })

/-- R170, R233: POLL_SERIAL starts a parse when a byte is ready and else goes back to PollRadio. -/
def Obligations.PollSerialResult : Prop :=
  ∀ s : State,
    ((takeSerialPeek s).1 = 0 → exec .pollSerial s = .next { (takeSerialPeek s).2 with phase := .pollRadio }) ∧
    (0 < (takeSerialPeek s).1 → exec .pollSerial s = exec .parseStart (takeSerialPeek s).2 ∧
      ∃ t, exec .pollSerial s = .next t ∧ t.phase = .parse ∧ t.pstate = .awaitingFirstDelimiter ∧ t.smallLen = 0)

/-- R181, R234: in a parse that takes input, a step takes one input, which ends any wait (log entry 4), and runs the operation it
decodes to, and then gives the two unconstrained indicators fresh values (log entry 7). -/
def Obligations.StepRunsDecodedInput : Prop :=
  ∀ (s : State) (x : SerialInput) (rest : List SerialInput) (i : Instr),
    validConfig s.cfg = true → s.phase = .parse → s.ports.serialReceive = x :: rest →
    decode (.parser s.pstate x) = .ok i →
    step s =
      match exec i { s with ports := { s.ports with serialReceive := rest, serialWait := none } } with
      | .next t => .next (redrawIndicators t)
      | .fault e => .fault e
      | .refused e => .refused e

/-- R77, R200, R231, R233 and the model's choices of log entries 3, 4, 7 and 8: what a step does elsewhere. In the poll phases it
runs the poll. In a parse that stands in Done it runs DISPATCH, which runs the command `small[0]` decodes to, and leaves the parse:
the spec has no such step of its own (log entry 8). In a parse with no scripted input it runs what the free offer decodes to (log
entry 3). Where the free offer is nothing it waits, one step less than the wait may still last, and where no step of the wait is left
the input is `Tick`: a waiting step is the model's own, since in the spec the block takes no step while it waits (log entry 4). Every
step gives the two unconstrained indicators fresh values (log entry 7). -/
def Obligations.StepElsewhere : Prop :=
  ∀ s : State, validConfig s.cfg = true →
    (∀ t, s.phase = .pollRadio → exec .pollRadio s = .next t → step s = .next (redrawIndicators t)) ∧
    (∀ t, s.phase = .pollSerial → exec .pollSerial s = .next t → step s = .next (redrawIndicators t)) ∧
    (∀ b0 t, s.phase = .parse → s.pstate = .done → readSmall 0 s = .ok b0 → exec (decodeCommand b0) s = .next t →
      step s = .next (redrawIndicators { t with phase := .pollRadio })) ∧
    (s.phase = .parse → PState.takesInput s.pstate = true → s.ports.serialReceive = [] →
      match Config.freeSerialOffer s.draws, s.ports.serialWait.getD (Config.freeSerialWait s.draws) with
      | none, n + 1 =>
        step s = .next (redrawIndicators { s with ports := { s.ports with serialWait := some n }, draws := s.draws + 1 })
      | x, _ =>
        ∃ i, decode (.parser s.pstate (x.getD .tick)) = .ok i ∧
          step s =
            match exec i { s with ports := { s.ports with serialWait := none }, draws := s.draws + 1 } with
            | .next t => .next (redrawIndicators t)
            | .fault e => .fault e
            | .refused e => .refused e)

/-- R185's fairness assumption, which R8 and D7 put into the model as log entry 4 says: no parse waits forever. From every state in a
parse that takes input, after at most as many steps as the wait may still last the block has changed nothing of the parse and is
offered an input, a byte or `Tick`, and its next step runs the operation that input decodes to. No clock gives the bound: it is a free
number. -/
def Obligations.ParseNeverWaitsForever : Prop :=
  ∀ s : State, validConfig s.cfg = true → s.phase = .parse → PState.takesInput s.pstate = true →
    ∃ k, k ≤ s.ports.serialWait.getD (Config.freeSerialWait s.draws) ∧
      ∃ (t : State) (x : SerialInput) (i : Instr), Host.Core.run core k s = .next t ∧
        t.phase = .parse ∧ t.pstate = s.pstate ∧ t.small = s.small ∧ t.smallLen = s.smallLen ∧ t.trace = s.trace ∧
        (takeSerial t).1 = some x ∧ decode (.parser s.pstate x) = .ok i ∧
        ∀ u, exec i (takeSerial t).2 = .next u → step t = .next (redrawIndicators u)

/-- R282.1, R151, U6: the boot constraints are exactly what the machine checks, and under a configuration that breaks one of them no
step is taken. They are `SMALL_CAP = MAX_PAYLOAD`, `MAX_PAYLOAD >= 3`, every text of R255 ASCII, and the diagnostic frame of every
one of them no longer than `BIG_CAP`. That they are checked at every step is the model's choice, and so is that a text that is not ASCII
is refused (log entry 19). -/
def Obligations.StepRefusesBadConfiguration : Prop :=
  (∀ c : Config.Params, validConfig c = true ↔ BootConstraints c) ∧
  ∀ s : State,
    (s.cfg.smallCap ≠ s.cfg.maxPayload → step s = .refused .badConfiguration) ∧
    (s.cfg.maxPayload < 3 → step s = .refused .badConfiguration) ∧
    (∀ t ∈ texts s.cfg, isAscii t = false → step s = .refused .badConfiguration) ∧
    (∀ t ∈ texts s.cfg, s.cfg.bigCap < (frame s.cfg.flexTable (s.cfg.diagAddr.toList ++ [0x03, 0xF0] ++ t)).length →
      step s = .refused .badConfiguration)

/-- R231 to R235: the sequencer's order. A step that goes on leads from PollRadio to PollSerial, from PollSerial to PollRadio
or into a new parse, and from a parse to the same parse or to PollRadio in a terminal parser state (R186). -/
def Obligations.SequencerOrder : Prop :=
  ∀ s t : State, step s = .next t →
    (s.phase = .pollRadio → t.phase = .pollSerial ∧ t.pstate = s.pstate) ∧
    (s.phase = .pollSerial →
      (t.phase = .pollRadio ∧ t.pstate = s.pstate) ∨
      (t.phase = .parse ∧ t.pstate = .awaitingFirstDelimiter ∧ t.smallLen = 0)) ∧
    (s.phase = .parse →
      (t.phase = .parse ∧ PState.takesInput t.pstate = true) ∨
      (t.phase = .pollRadio ∧ (t.pstate = .done ∨ t.pstate = .overflow ∨ t.pstate = .timeout)))

/-- R237: the unit-start clear, by the parameter, is the first thing RELAY and PARSE_START do. -/
def Obligations.UnitStartClearComesFirst : Prop :=
  ∀ (s t : State) (i : Instr), (i = .parseStart ∨ ∃ p, i = .relay p) → exec i s = .next t →
    (s.cfg.errClear = .atUnitStart → ∃ es, t.trace = s.trace ++ .err false :: es) ∧
    (s.cfg.errClear = .never → i = .parseStart → t.trace = s.trace ∧ t.errInd = s.errInd)

/-! ### Frames -/

/-- The operations of the parser and the sequencer that store nothing, and CRC_UPDATE: memory, BIG's length, TABLE and the parameters
unchanged, and every other register but the ones their rules write: `crc` for CRC_UPDATE; the parser state for AFD_FEND, AD_FESC and
PARSE_TIMEOUT, which also ends the parse and traces it; what a parse start writes for PARSE_START; for POLL_SERIAL its answer, the
phase, and what a parse start writes where it starts one. -/
def Obligations.FrameOfNonStoringOperations : Prop :=
  ∀ (s t : State) (i : Instr),
    (i = .afdFend ∨ i = .adFesc ∨ i = .parseTimeout ∨ i = .pollSerial ∨ i = .parseStart ∨ (∃ b, i = .afdSkip b) ∨
      ∃ span, i = .crcUpdate span) →
    exec i s = .next t →
    t.cfg = s.cfg ∧ t.table = s.table ∧
    (∀ a, Memory.read t.small a = Memory.read s.small a) ∧ (∀ a, Memory.read t.big a = Memory.read s.big a) ∧
    t.bigLen = s.bigLen ∧
    ((∀ span, i ≠ .crcUpdate span) → t.crc = s.crc) ∧
    ((i ≠ .pollSerial ∧ i ≠ .parseStart) → t.smallLen = s.smallLen ∧ t.errInd = s.errInd) ∧
    ((i ≠ .pollSerial ∧ i ≠ .parseStart ∧ i ≠ .parseTimeout) → t.trace = s.trace ∧ t.phase = s.phase) ∧
    (((∃ b, i = .afdSkip b) ∨ ∃ span, i = .crcUpdate span) → t.pstate = s.pstate) ∧
    (i ≠ .pollSerial → t.ports = s.ports ∧ t.draws = s.draws) ∧
    (i = .pollSerial →
      t.ports = { s.ports with serialPeek := s.ports.serialPeek.tail } ∧
      t.draws = (if s.ports.serialPeek = [] then s.draws + 1 else s.draws) ∧
      ((takeSerialPeek s).1 = 0 →
        t.smallLen = s.smallLen ∧ t.errInd = s.errInd ∧ t.trace = s.trace ∧ t.pstate = s.pstate))

/-- The storing operations of the parser: with room, one byte of SMALL at `smallLen` and nothing of BIG; on a full SMALL nothing
of SMALL, and of BIG only the bytes of the overflow report. -/
def Obligations.FrameOfStoringOperations : Prop :=
  ∀ (s t : State) (i : Instr),
    (i = .escTfend ∨ i = .escTfesc ∨ ∃ b, i = .adData b) → exec i s = .next t →
    t.cfg = s.cfg ∧ t.table = s.table ∧ t.ports = s.ports ∧ t.draws = s.draws ∧
    (∀ a, a ≠ s.smallLen → Memory.read t.small a = Memory.read s.small a) ∧
    (s.smallLen ≠ s.cfg.smallCap →
      (∀ a, Memory.read t.big a = Memory.read s.big a) ∧ t.bigLen = s.bigLen ∧ t.crc = s.crc ∧ t.errInd = s.errInd ∧
      t.trace = s.trace ∧ t.phase = s.phase) ∧
    (s.smallLen = s.cfg.smallCap →
      (∀ a, Memory.read t.small a = Memory.read s.small a) ∧ t.smallLen = s.smallLen ∧
      ∀ a, (frame s.table (diagPayload s.cfg s.cfg.msgOverflow)).length ≤ a → Memory.read t.big a = Memory.read s.big a)

/-- The operations whose only store is one report in BIG: of BIG only the bytes of the report's frame change, of SMALL none. -/
def Obligations.FrameOfReportingOperations : Prop :=
  ∀ (s t : State) (i : Instr) (text : Text),
    ((i = .diag text) ∨ (∃ b, i = .escBad b ∧ text = s.cfg.msgEscape) ∨
      (∃ hi, i = .reset hi ∧ text = s.cfg.msgResetFail) ∨ (i = .emptyFrame ∧ text = s.cfg.msgShort) ∨
      (∃ port b4, i = .dataNoflag port b4 ∧ text = if s.smallLen < 2 then s.cfg.msgShort else s.cfg.msgProtocol) ∨
      (∃ b, b &&& 0x0F ≠ 0x00 ∧ b &&& 0x0F ≠ 0x0F ∧ i = decodeCommand b ∧ text = msgUnknown s.cfg (cmdOf b))) →
    exec i s = .next t →
    t.cfg = s.cfg ∧ t.table = s.table ∧ t.phase = s.phase ∧
    t.small = s.small ∧ t.smallLen = s.smallLen ∧
    ((∀ b, i ≠ .escBad b) → t.pstate = s.pstate) ∧
    ((∀ hi, i ≠ .reset hi) → t.ports = s.ports ∧ t.draws = s.draws) ∧
    (∀ a, (frame s.table (diagPayload s.cfg text)).length ≤ a → Memory.read t.big a = Memory.read s.big a) ∧
    ((i = .diag text ∨ ∃ b, i = decodeCommand b ∧ b &&& 0x0F ≠ 0x00 ∧ b &&& 0x0F ≠ 0x0F) → t.errInd = s.errInd)

/-- DATA_FLEX: no byte of SMALL; of BIG only the bytes of the report it sends, and none when it sends none: either it sends nothing on
the serial port, or its only events are that one report and the indicator. -/
def Obligations.FrameOfDataFlex : Prop :=
  ∀ (s t : State) (port : BitVec 2) (b4 : BitVec 1), exec (.dataFlex port b4) s = .next t →
    t.cfg = s.cfg ∧ t.table = s.table ∧ t.phase = s.phase ∧ t.pstate = s.pstate ∧
    t.small = s.small ∧ t.smallLen = s.smallLen ∧ t.ports = s.ports ∧ t.draws = s.draws ∧
    ((t.big = s.big ∧ t.bigLen = s.bigLen ∧ t.errInd = s.errInd ∧ ∀ e ∈ newEvents s t, Event.isSerTx e = false) ∨
      ∃ text, (text = s.cfg.msgCrc ∨ text = s.cfg.msgShort) ∧ t.errInd = true ∧
        newEvents s t = [.serTx (frame s.table (diagPayload s.cfg text)), .err true] ∧
        ∀ a, (frame s.table (diagPayload s.cfg text)).length ≤ a → Memory.read t.big a = Memory.read s.big a)

/-- RELAY: of SMALL only the bytes of the radio's answer; of BIG nothing from BIG_CAP up, and where the relay frame is sent
nothing beyond it; the parser state and the sequencer are left alone. -/
def Obligations.FrameOfRelay : Prop :=
  ∀ (s t : State) (p : Nat), exec (.relay p) s = .next t →
    t.cfg = s.cfg ∧ t.table = s.table ∧ t.phase = s.phase ∧ t.pstate = s.pstate ∧
    (∀ a, (takeRadioReceive p (unitStartClear s)).1.length ≤ a → Memory.read t.small a = Memory.read s.small a) ∧
    (∀ a, s.cfg.bigCap ≤ a → Memory.read t.big a = Memory.read s.big a) ∧
    ((2 * s.cfg.maxPayload < p ∨ s.cfg.smallCap < p) → t.small = s.small ∧ t.smallLen = s.smallLen ∧ t.ports = s.ports) ∧
    (p ≤ 2 * s.cfg.maxPayload → p ≤ s.cfg.smallCap → frameFits (takeRadioReceive p (unitStartClear s)).1 s →
      ∀ a, (frame s.table (takeRadioReceive p (unitStartClear s)).1).length ≤ a →
        Memory.read t.big a = Memory.read s.big a)

/-- POLL_RADIO: with no radio bytes, nothing but the answer taken and the phase; with some, what RELAY may change. The serial port's
answers and the radio's reset answers stay in store. -/
def Obligations.FrameOfPollRadio : Prop :=
  ∀ s t : State, exec .pollRadio s = .next t →
    t.cfg = s.cfg ∧ t.table = s.table ∧ t.pstate = s.pstate ∧
    (∀ a, s.cfg.bigCap ≤ a → Memory.read t.big a = Memory.read s.big a) ∧
    (∀ a, (takeRadioPeek s).1 ≤ a → Memory.read t.small a = Memory.read s.small a) ∧
    t.ports = { s.ports with radioPeek := s.ports.radioPeek.tail, radioReceive := t.ports.radioReceive } ∧
    ((takeRadioPeek s).1 = 0 →
      t.ports.radioReceive = s.ports.radioReceive ∧
      t.draws = (if s.ports.radioPeek = [] then s.draws + 1 else s.draws) ∧
      t.small = s.small ∧ t.smallLen = s.smallLen ∧ t.big = s.big ∧ t.bigLen = s.bigLen ∧ t.crc = s.crc ∧
      t.errInd = s.errInd ∧ t.trace = s.trace)

/-! ### Invariants and rules of the whole machine -/

/-- R23, R280: the reset state under every configuration has the values R23 gives and an empty trace, and every
read of SMALL and BIG faults; `crc`, `rxInd` and `txInd`, to which the spec gives no value, are not stated. -/
def Obligations.ResetState : Prop :=
  ∀ c : Config.Params,
    (State.resetWith c).smallLen = 0 ∧ (State.resetWith c).bigLen = 0 ∧
    (State.resetWith c).pstate = .awaitingFirstDelimiter ∧ (State.resetWith c).phase = .pollRadio ∧
    (State.resetWith c).errInd = false ∧ (State.resetWith c).table = c.flexTable ∧ (State.resetWith c).trace = [] ∧
    (∀ i, readSmall i (State.resetWith c) = .error .smallReadPastLength) ∧
    (∀ i, readBig i (State.resetWith c) = .error .bigReadPastLength)

/-- The reset state under every configuration is a legal state. -/
def Obligations.ResetStateIsLegal : Prop := ∀ c : Config.Params, State.Inv (State.resetWith c)

/-- R10, R12, R15, R18, R41, R42, R186: every step from a legal state leads to a legal state. -/
def Obligations.StepKeepsLegalStates : Prop :=
  ∀ s t : State, State.Inv s → step s = .next t → State.Inv t

/-- §7, R44, R152, R256: no input stops the machine. From a legal state under a configuration that meets the boot constraints,
whatever the serial link offers, a step goes on, if the radio keeps its contract. -/
def Obligations.NoInputStopsTheMachine : Prop :=
  ∀ s : State, State.Inv s → validConfig s.cfg = true → radioWillKeepContract s = true → ∃ t, step s = .next t

/-- R18, R19: no step writes TABLE or a parameter. -/
def Obligations.TableAndParametersNeverChange : Prop :=
  ∀ s t : State, step s = .next t → t.table = s.table ∧ t.cfg = s.cfg

/-- R16: every write of the latch emits its event: after every step from a state whose latch shows the last `ERR` event of its
trace, the latch shows the last `ERR` event. -/
def Obligations.LatchShowsLastErrEvent : Prop :=
  ∀ s t : State, step s = .next t → (∀ v, lastLatch s.trace = some v → s.errInd = v) →
    ∀ v, lastLatch t.trace = some v → t.errInd = v

/-- R31, R52: the trace only grows: a step adds its events at the end. -/
def Obligations.TraceOnlyGrows : Prop :=
  ∀ s t : State, step s = .next t → ∃ es, t.trace = s.trace ++ es

/-- R182, R295: in a parse a step asks the radio for no bytes, and unless it leaves the parser in Done, which only the closing
delimiter and its dispatch do, it makes no radio call at all; a radio reset is asked for at most once. -/
def Obligations.RadioIsNotServedDuringParse : Prop :=
  ∀ s t : State, step s = .next t → s.phase = .parse →
    t.ports.radioPeek = s.ports.radioPeek ∧ t.ports.radioReceive = s.ports.radioReceive ∧
    (∀ p d, Event.radRx p d ∉ newEvents s t) ∧
    (t.pstate ≠ .done →
      t.ports.radioReset = s.ports.radioReset ∧ ∀ e ∈ newEvents s t, (∀ d, e ≠ .radTx d) ∧ ∀ ok, e ≠ .radRst ok) ∧
    ((newEvents s t).filter Event.isRadRst).length ≤ 1

/-- R11, R12, R44, R56: no information leaks between frames. Two states that differ only in `crc`, BIG and the bytes of SMALL at
or above `smallLen` step alike: the same trace, and states that again differ only there. -/
def Obligations.StaleContentsAreNeverObserved : Prop :=
  ∀ s t s' : State, sameVisible s t → step s = .next s' → ∃ t', step t = .next t' ∧ sameVisible s' t'
end

