-- ==== Sys2Proof/Laws/State.lean ====
section
/-! SUPPORT. What each named update of the state leaves in each field, so that no proof unfolds one. -/

namespace Sys2Proof.Machine

section emit
variable (e : Event) (s : State)

@[simp] theorem emit_cfg : (emit e s).cfg = s.cfg := rfl
@[simp] theorem emit_crc : (emit e s).crc = s.crc := rfl
@[simp] theorem emit_small : (emit e s).small = s.small := rfl
@[simp] theorem emit_smallLen : (emit e s).smallLen = s.smallLen := rfl
@[simp] theorem emit_big : (emit e s).big = s.big := rfl
@[simp] theorem emit_bigLen : (emit e s).bigLen = s.bigLen := rfl
@[simp] theorem emit_table : (emit e s).table = s.table := rfl
@[simp] theorem emit_pstate : (emit e s).pstate = s.pstate := rfl
@[simp] theorem emit_phase : (emit e s).phase = s.phase := rfl
@[simp] theorem emit_errInd : (emit e s).errInd = s.errInd := rfl
@[simp] theorem emit_rxInd : (emit e s).rxInd = s.rxInd := rfl
@[simp] theorem emit_txInd : (emit e s).txInd = s.txInd := rfl
@[simp] theorem emit_trace : (emit e s).trace = s.trace ++ [e] := rfl
@[simp] theorem emit_ports : (emit e s).ports = s.ports := rfl
@[simp] theorem emit_draws : (emit e s).draws = s.draws := rfl

end emit

section setErr
variable (v : Bool) (s : State)

@[simp] theorem setErr_cfg : (setErr v s).cfg = s.cfg := rfl
@[simp] theorem setErr_crc : (setErr v s).crc = s.crc := rfl
@[simp] theorem setErr_small : (setErr v s).small = s.small := rfl
@[simp] theorem setErr_smallLen : (setErr v s).smallLen = s.smallLen := rfl
@[simp] theorem setErr_big : (setErr v s).big = s.big := rfl
@[simp] theorem setErr_bigLen : (setErr v s).bigLen = s.bigLen := rfl
@[simp] theorem setErr_table : (setErr v s).table = s.table := rfl
@[simp] theorem setErr_pstate : (setErr v s).pstate = s.pstate := rfl
@[simp] theorem setErr_phase : (setErr v s).phase = s.phase := rfl
@[simp] theorem setErr_errInd : (setErr v s).errInd = v := rfl
@[simp] theorem setErr_rxInd : (setErr v s).rxInd = s.rxInd := rfl
@[simp] theorem setErr_txInd : (setErr v s).txInd = s.txInd := rfl
@[simp] theorem setErr_trace : (setErr v s).trace = s.trace ++ [.err v] := rfl
@[simp] theorem setErr_ports : (setErr v s).ports = s.ports := rfl
@[simp] theorem setErr_draws : (setErr v s).draws = s.draws := rfl

end setErr

section crcRun
variable (bs : List Byte) (s : State)

@[simp] theorem crcRun_cfg : (crcRun bs s).cfg = s.cfg := rfl
@[simp] theorem crcRun_crc : (crcRun bs s).crc = crcOf s.table s.crc bs := rfl
@[simp] theorem crcRun_small : (crcRun bs s).small = s.small := rfl
@[simp] theorem crcRun_smallLen : (crcRun bs s).smallLen = s.smallLen := rfl
@[simp] theorem crcRun_big : (crcRun bs s).big = s.big := rfl
@[simp] theorem crcRun_bigLen : (crcRun bs s).bigLen = s.bigLen := rfl
@[simp] theorem crcRun_table : (crcRun bs s).table = s.table := rfl
@[simp] theorem crcRun_pstate : (crcRun bs s).pstate = s.pstate := rfl
@[simp] theorem crcRun_phase : (crcRun bs s).phase = s.phase := rfl
@[simp] theorem crcRun_errInd : (crcRun bs s).errInd = s.errInd := rfl
@[simp] theorem crcRun_rxInd : (crcRun bs s).rxInd = s.rxInd := rfl
@[simp] theorem crcRun_txInd : (crcRun bs s).txInd = s.txInd := rfl
@[simp] theorem crcRun_trace : (crcRun bs s).trace = s.trace := rfl
@[simp] theorem crcRun_ports : (crcRun bs s).ports = s.ports := rfl
@[simp] theorem crcRun_draws : (crcRun bs s).draws = s.draws := rfl

end crcRun

section redrawIndicators
variable (s : State)

@[simp] theorem redrawIndicators_cfg : (redrawIndicators s).cfg = s.cfg := rfl
@[simp] theorem redrawIndicators_crc : (redrawIndicators s).crc = s.crc := rfl
@[simp] theorem redrawIndicators_small : (redrawIndicators s).small = s.small := rfl
@[simp] theorem redrawIndicators_smallLen : (redrawIndicators s).smallLen = s.smallLen := rfl
@[simp] theorem redrawIndicators_big : (redrawIndicators s).big = s.big := rfl
@[simp] theorem redrawIndicators_bigLen : (redrawIndicators s).bigLen = s.bigLen := rfl
@[simp] theorem redrawIndicators_table : (redrawIndicators s).table = s.table := rfl
@[simp] theorem redrawIndicators_pstate : (redrawIndicators s).pstate = s.pstate := rfl
@[simp] theorem redrawIndicators_phase : (redrawIndicators s).phase = s.phase := rfl
@[simp] theorem redrawIndicators_errInd : (redrawIndicators s).errInd = s.errInd := rfl
@[simp] theorem redrawIndicators_rxInd : (redrawIndicators s).rxInd = Config.freeRxInd s.draws := rfl
@[simp] theorem redrawIndicators_txInd : (redrawIndicators s).txInd = Config.freeTxInd s.draws := rfl
@[simp] theorem redrawIndicators_trace : (redrawIndicators s).trace = s.trace := rfl
@[simp] theorem redrawIndicators_ports : (redrawIndicators s).ports = s.ports := rfl
@[simp] theorem redrawIndicators_draws : (redrawIndicators s).draws = s.draws + 1 := rfl

end redrawIndicators

section toAwaitingData
variable (s : State)

@[simp] theorem toAwaitingData_cfg : (toAwaitingData s).cfg = s.cfg := rfl
@[simp] theorem toAwaitingData_crc : (toAwaitingData s).crc = s.crc := rfl
@[simp] theorem toAwaitingData_small : (toAwaitingData s).small = s.small := rfl
@[simp] theorem toAwaitingData_smallLen : (toAwaitingData s).smallLen = s.smallLen := rfl
@[simp] theorem toAwaitingData_big : (toAwaitingData s).big = s.big := rfl
@[simp] theorem toAwaitingData_bigLen : (toAwaitingData s).bigLen = s.bigLen := rfl
@[simp] theorem toAwaitingData_table : (toAwaitingData s).table = s.table := rfl
@[simp] theorem toAwaitingData_pstate : (toAwaitingData s).pstate = .awaitingData := rfl
@[simp] theorem toAwaitingData_phase : (toAwaitingData s).phase = s.phase := rfl
@[simp] theorem toAwaitingData_errInd : (toAwaitingData s).errInd = s.errInd := rfl
@[simp] theorem toAwaitingData_rxInd : (toAwaitingData s).rxInd = s.rxInd := rfl
@[simp] theorem toAwaitingData_txInd : (toAwaitingData s).txInd = s.txInd := rfl
@[simp] theorem toAwaitingData_trace : (toAwaitingData s).trace = s.trace := rfl
@[simp] theorem toAwaitingData_ports : (toAwaitingData s).ports = s.ports := rfl
@[simp] theorem toAwaitingData_draws : (toAwaitingData s).draws = s.draws := rfl

end toAwaitingData

section unitStartClear
variable (s : State)

@[simp] theorem unitStartClear_cfg : (unitStartClear s).cfg = s.cfg := by
  unfold unitStartClear; split <;> rfl
@[simp] theorem unitStartClear_crc : (unitStartClear s).crc = s.crc := by
  unfold unitStartClear; split <;> rfl
@[simp] theorem unitStartClear_small : (unitStartClear s).small = s.small := by
  unfold unitStartClear; split <;> rfl
@[simp] theorem unitStartClear_smallLen : (unitStartClear s).smallLen = s.smallLen := by
  unfold unitStartClear; split <;> rfl
@[simp] theorem unitStartClear_big : (unitStartClear s).big = s.big := by
  unfold unitStartClear; split <;> rfl
@[simp] theorem unitStartClear_bigLen : (unitStartClear s).bigLen = s.bigLen := by
  unfold unitStartClear; split <;> rfl
@[simp] theorem unitStartClear_table : (unitStartClear s).table = s.table := by
  unfold unitStartClear; split <;> rfl
@[simp] theorem unitStartClear_pstate : (unitStartClear s).pstate = s.pstate := by
  unfold unitStartClear; split <;> rfl
@[simp] theorem unitStartClear_phase : (unitStartClear s).phase = s.phase := by
  unfold unitStartClear; split <;> rfl
@[simp] theorem unitStartClear_rxInd : (unitStartClear s).rxInd = s.rxInd := by
  unfold unitStartClear; split <;> rfl
@[simp] theorem unitStartClear_txInd : (unitStartClear s).txInd = s.txInd := by
  unfold unitStartClear; split <;> rfl
@[simp] theorem unitStartClear_ports : (unitStartClear s).ports = s.ports := by
  unfold unitStartClear; split <;> rfl
@[simp] theorem unitStartClear_draws : (unitStartClear s).draws = s.draws := by
  unfold unitStartClear; split <;> rfl

/-- The clear of R237 under each value of `ERR_CLEAR`. -/
theorem unitStartClear_atUnitStart (h : s.cfg.errClear = .atUnitStart) : unitStartClear s = setErr false s := by
  simp [unitStartClear, h]

theorem unitStartClear_never (h : s.cfg.errClear = .never) : unitStartClear s = s := by
  simp [unitStartClear, h]

end unitStartClear

section flash
variable (n : Nat) (s : State)

@[simp] theorem flash_cfg : (flash n s).cfg = s.cfg := by
  induction n generalizing s with
  | zero => rfl
  | succ n ih => simp [flash, ih]
@[simp] theorem flash_crc : (flash n s).crc = s.crc := by
  induction n generalizing s with
  | zero => rfl
  | succ n ih => simp [flash, ih]
@[simp] theorem flash_small : (flash n s).small = s.small := by
  induction n generalizing s with
  | zero => rfl
  | succ n ih => simp [flash, ih]
@[simp] theorem flash_smallLen : (flash n s).smallLen = s.smallLen := by
  induction n generalizing s with
  | zero => rfl
  | succ n ih => simp [flash, ih]
@[simp] theorem flash_big : (flash n s).big = s.big := by
  induction n generalizing s with
  | zero => rfl
  | succ n ih => simp [flash, ih]
@[simp] theorem flash_bigLen : (flash n s).bigLen = s.bigLen := by
  induction n generalizing s with
  | zero => rfl
  | succ n ih => simp [flash, ih]
@[simp] theorem flash_table : (flash n s).table = s.table := by
  induction n generalizing s with
  | zero => rfl
  | succ n ih => simp [flash, ih]
@[simp] theorem flash_pstate : (flash n s).pstate = s.pstate := by
  induction n generalizing s with
  | zero => rfl
  | succ n ih => simp [flash, ih]
@[simp] theorem flash_phase : (flash n s).phase = s.phase := by
  induction n generalizing s with
  | zero => rfl
  | succ n ih => simp [flash, ih]
@[simp] theorem flash_rxInd : (flash n s).rxInd = s.rxInd := by
  induction n generalizing s with
  | zero => rfl
  | succ n ih => simp [flash, ih]
@[simp] theorem flash_txInd : (flash n s).txInd = s.txInd := by
  induction n generalizing s with
  | zero => rfl
  | succ n ih => simp [flash, ih]
@[simp] theorem flash_ports : (flash n s).ports = s.ports := by
  induction n generalizing s with
  | zero => rfl
  | succ n ih => simp [flash, ih]
@[simp] theorem flash_draws : (flash n s).draws = s.draws := by
  induction n generalizing s with
  | zero => rfl
  | succ n ih => simp [flash, ih]

/-- The flash pattern ends with the latch off, whatever it held (R212). -/
theorem flash_succ_errInd : (flash (n + 1) s).errInd = false := by
  induction n generalizing s with
  | zero => rfl
  | succ n ih => exact ih (setErr false (setErr true s))

theorem flash_trace : (flash n s).trace = s.trace ++ (List.replicate n [Event.err true, Event.err false]).flatten := by
  induction n generalizing s with
  | zero => simp [flash]
  | succ n ih => simp [flash, ih, List.replicate_succ]

end flash

/-! The input ports touch the scripted answers and the draw counter alone. -/

section takeRadioPeek
variable (s : State)

@[simp] theorem takeRadioPeek_cfg : (takeRadioPeek s).2.cfg = s.cfg := by
  unfold takeRadioPeek; split <;> rfl
@[simp] theorem takeRadioPeek_crc : (takeRadioPeek s).2.crc = s.crc := by
  unfold takeRadioPeek; split <;> rfl
@[simp] theorem takeRadioPeek_small : (takeRadioPeek s).2.small = s.small := by
  unfold takeRadioPeek; split <;> rfl
@[simp] theorem takeRadioPeek_smallLen : (takeRadioPeek s).2.smallLen = s.smallLen := by
  unfold takeRadioPeek; split <;> rfl
@[simp] theorem takeRadioPeek_big : (takeRadioPeek s).2.big = s.big := by
  unfold takeRadioPeek; split <;> rfl
@[simp] theorem takeRadioPeek_bigLen : (takeRadioPeek s).2.bigLen = s.bigLen := by
  unfold takeRadioPeek; split <;> rfl
@[simp] theorem takeRadioPeek_table : (takeRadioPeek s).2.table = s.table := by
  unfold takeRadioPeek; split <;> rfl
@[simp] theorem takeRadioPeek_pstate : (takeRadioPeek s).2.pstate = s.pstate := by
  unfold takeRadioPeek; split <;> rfl
@[simp] theorem takeRadioPeek_phase : (takeRadioPeek s).2.phase = s.phase := by
  unfold takeRadioPeek; split <;> rfl
@[simp] theorem takeRadioPeek_errInd : (takeRadioPeek s).2.errInd = s.errInd := by
  unfold takeRadioPeek; split <;> rfl
@[simp] theorem takeRadioPeek_rxInd : (takeRadioPeek s).2.rxInd = s.rxInd := by
  unfold takeRadioPeek; split <;> rfl
@[simp] theorem takeRadioPeek_txInd : (takeRadioPeek s).2.txInd = s.txInd := by
  unfold takeRadioPeek; split <;> rfl
@[simp] theorem takeRadioPeek_trace : (takeRadioPeek s).2.trace = s.trace := by
  unfold takeRadioPeek; split <;> rfl

/-- All takeRadioPeek does to the ports. -/
@[simp] theorem takeRadioPeek_ports : (takeRadioPeek s).2.ports = { s.ports with radioPeek := s.ports.radioPeek.tail } := by
  rcases s with ⟨_, _, _, _, _, _, _, _, _, _, _, _, _, ⟨_ | _, _ | _, _ | _, _ | _, _, _⟩, _⟩ <;> rfl
/-- All takeRadioPeek does to the draw counter. -/
@[simp] theorem takeRadioPeek_draws : (takeRadioPeek s).2.draws = if s.ports.radioPeek = [] then s.draws + 1 else s.draws := by
  unfold takeRadioPeek; cases h : s.ports.radioPeek <;> simp

end takeRadioPeek

section takeRadioReceive
variable (p : Nat) (s : State)

@[simp] theorem takeRadioReceive_cfg : (takeRadioReceive p s).2.cfg = s.cfg := by
  unfold takeRadioReceive; split <;> rfl
@[simp] theorem takeRadioReceive_crc : (takeRadioReceive p s).2.crc = s.crc := by
  unfold takeRadioReceive; split <;> rfl
@[simp] theorem takeRadioReceive_small : (takeRadioReceive p s).2.small = s.small := by
  unfold takeRadioReceive; split <;> rfl
@[simp] theorem takeRadioReceive_smallLen : (takeRadioReceive p s).2.smallLen = s.smallLen := by
  unfold takeRadioReceive; split <;> rfl
@[simp] theorem takeRadioReceive_big : (takeRadioReceive p s).2.big = s.big := by
  unfold takeRadioReceive; split <;> rfl
@[simp] theorem takeRadioReceive_bigLen : (takeRadioReceive p s).2.bigLen = s.bigLen := by
  unfold takeRadioReceive; split <;> rfl
@[simp] theorem takeRadioReceive_table : (takeRadioReceive p s).2.table = s.table := by
  unfold takeRadioReceive; split <;> rfl
@[simp] theorem takeRadioReceive_pstate : (takeRadioReceive p s).2.pstate = s.pstate := by
  unfold takeRadioReceive; split <;> rfl
@[simp] theorem takeRadioReceive_phase : (takeRadioReceive p s).2.phase = s.phase := by
  unfold takeRadioReceive; split <;> rfl
@[simp] theorem takeRadioReceive_errInd : (takeRadioReceive p s).2.errInd = s.errInd := by
  unfold takeRadioReceive; split <;> rfl
@[simp] theorem takeRadioReceive_rxInd : (takeRadioReceive p s).2.rxInd = s.rxInd := by
  unfold takeRadioReceive; split <;> rfl
@[simp] theorem takeRadioReceive_txInd : (takeRadioReceive p s).2.txInd = s.txInd := by
  unfold takeRadioReceive; split <;> rfl
@[simp] theorem takeRadioReceive_trace : (takeRadioReceive p s).2.trace = s.trace := by
  unfold takeRadioReceive; split <;> rfl

/-- All takeRadioReceive does to the ports. -/
@[simp] theorem takeRadioReceive_ports : (takeRadioReceive p s).2.ports = { s.ports with radioReceive := s.ports.radioReceive.tail } := by
  rcases s with ⟨_, _, _, _, _, _, _, _, _, _, _, _, _, ⟨_ | _, _ | _, _ | _, _ | _, _, _⟩, _⟩ <;> rfl
/-- All takeRadioReceive does to the draw counter. -/
@[simp] theorem takeRadioReceive_draws : (takeRadioReceive p s).2.draws = if s.ports.radioReceive = [] then s.draws + 1 else s.draws := by
  unfold takeRadioReceive; cases h : s.ports.radioReceive <;> simp

end takeRadioReceive

section takeRadioReset
variable (s : State)

@[simp] theorem takeRadioReset_cfg : (takeRadioReset s).2.cfg = s.cfg := by
  unfold takeRadioReset; split <;> rfl
@[simp] theorem takeRadioReset_crc : (takeRadioReset s).2.crc = s.crc := by
  unfold takeRadioReset; split <;> rfl
@[simp] theorem takeRadioReset_small : (takeRadioReset s).2.small = s.small := by
  unfold takeRadioReset; split <;> rfl
@[simp] theorem takeRadioReset_smallLen : (takeRadioReset s).2.smallLen = s.smallLen := by
  unfold takeRadioReset; split <;> rfl
@[simp] theorem takeRadioReset_big : (takeRadioReset s).2.big = s.big := by
  unfold takeRadioReset; split <;> rfl
@[simp] theorem takeRadioReset_bigLen : (takeRadioReset s).2.bigLen = s.bigLen := by
  unfold takeRadioReset; split <;> rfl
@[simp] theorem takeRadioReset_table : (takeRadioReset s).2.table = s.table := by
  unfold takeRadioReset; split <;> rfl
@[simp] theorem takeRadioReset_pstate : (takeRadioReset s).2.pstate = s.pstate := by
  unfold takeRadioReset; split <;> rfl
@[simp] theorem takeRadioReset_phase : (takeRadioReset s).2.phase = s.phase := by
  unfold takeRadioReset; split <;> rfl
@[simp] theorem takeRadioReset_errInd : (takeRadioReset s).2.errInd = s.errInd := by
  unfold takeRadioReset; split <;> rfl
@[simp] theorem takeRadioReset_rxInd : (takeRadioReset s).2.rxInd = s.rxInd := by
  unfold takeRadioReset; split <;> rfl
@[simp] theorem takeRadioReset_txInd : (takeRadioReset s).2.txInd = s.txInd := by
  unfold takeRadioReset; split <;> rfl
@[simp] theorem takeRadioReset_trace : (takeRadioReset s).2.trace = s.trace := by
  unfold takeRadioReset; split <;> rfl

/-- All takeRadioReset does to the ports. -/
@[simp] theorem takeRadioReset_ports : (takeRadioReset s).2.ports = { s.ports with radioReset := s.ports.radioReset.tail } := by
  rcases s with ⟨_, _, _, _, _, _, _, _, _, _, _, _, _, ⟨_ | _, _ | _, _ | _, _ | _, _, _⟩, _⟩ <;> rfl
/-- All takeRadioReset does to the draw counter. -/
@[simp] theorem takeRadioReset_draws : (takeRadioReset s).2.draws = if s.ports.radioReset = [] then s.draws + 1 else s.draws := by
  unfold takeRadioReset; cases h : s.ports.radioReset <;> simp

end takeRadioReset

section takeSerialPeek
variable (s : State)

@[simp] theorem takeSerialPeek_cfg : (takeSerialPeek s).2.cfg = s.cfg := by
  unfold takeSerialPeek; split <;> rfl
@[simp] theorem takeSerialPeek_crc : (takeSerialPeek s).2.crc = s.crc := by
  unfold takeSerialPeek; split <;> rfl
@[simp] theorem takeSerialPeek_small : (takeSerialPeek s).2.small = s.small := by
  unfold takeSerialPeek; split <;> rfl
@[simp] theorem takeSerialPeek_smallLen : (takeSerialPeek s).2.smallLen = s.smallLen := by
  unfold takeSerialPeek; split <;> rfl
@[simp] theorem takeSerialPeek_big : (takeSerialPeek s).2.big = s.big := by
  unfold takeSerialPeek; split <;> rfl
@[simp] theorem takeSerialPeek_bigLen : (takeSerialPeek s).2.bigLen = s.bigLen := by
  unfold takeSerialPeek; split <;> rfl
@[simp] theorem takeSerialPeek_table : (takeSerialPeek s).2.table = s.table := by
  unfold takeSerialPeek; split <;> rfl
@[simp] theorem takeSerialPeek_pstate : (takeSerialPeek s).2.pstate = s.pstate := by
  unfold takeSerialPeek; split <;> rfl
@[simp] theorem takeSerialPeek_phase : (takeSerialPeek s).2.phase = s.phase := by
  unfold takeSerialPeek; split <;> rfl
@[simp] theorem takeSerialPeek_errInd : (takeSerialPeek s).2.errInd = s.errInd := by
  unfold takeSerialPeek; split <;> rfl
@[simp] theorem takeSerialPeek_rxInd : (takeSerialPeek s).2.rxInd = s.rxInd := by
  unfold takeSerialPeek; split <;> rfl
@[simp] theorem takeSerialPeek_txInd : (takeSerialPeek s).2.txInd = s.txInd := by
  unfold takeSerialPeek; split <;> rfl
@[simp] theorem takeSerialPeek_trace : (takeSerialPeek s).2.trace = s.trace := by
  unfold takeSerialPeek; split <;> rfl

/-- All takeSerialPeek does to the ports. -/
@[simp] theorem takeSerialPeek_ports : (takeSerialPeek s).2.ports = { s.ports with serialPeek := s.ports.serialPeek.tail } := by
  rcases s with ⟨_, _, _, _, _, _, _, _, _, _, _, _, _, ⟨_ | _, _ | _, _ | _, _ | _, _, _⟩, _⟩ <;> rfl
/-- All takeSerialPeek does to the draw counter. -/
@[simp] theorem takeSerialPeek_draws : (takeSerialPeek s).2.draws = if s.ports.serialPeek = [] then s.draws + 1 else s.draws := by
  unfold takeSerialPeek; cases h : s.ports.serialPeek <;> simp

end takeSerialPeek

section takeSerial
variable (s : State)

@[simp] theorem takeSerial_cfg : (takeSerial s).2.cfg = s.cfg := rfl
@[simp] theorem takeSerial_crc : (takeSerial s).2.crc = s.crc := rfl
@[simp] theorem takeSerial_small : (takeSerial s).2.small = s.small := rfl
@[simp] theorem takeSerial_smallLen : (takeSerial s).2.smallLen = s.smallLen := rfl
@[simp] theorem takeSerial_big : (takeSerial s).2.big = s.big := rfl
@[simp] theorem takeSerial_bigLen : (takeSerial s).2.bigLen = s.bigLen := rfl
@[simp] theorem takeSerial_table : (takeSerial s).2.table = s.table := rfl
@[simp] theorem takeSerial_pstate : (takeSerial s).2.pstate = s.pstate := rfl
@[simp] theorem takeSerial_phase : (takeSerial s).2.phase = s.phase := rfl
@[simp] theorem takeSerial_errInd : (takeSerial s).2.errInd = s.errInd := rfl
@[simp] theorem takeSerial_rxInd : (takeSerial s).2.rxInd = s.rxInd := rfl
@[simp] theorem takeSerial_txInd : (takeSerial s).2.txInd = s.txInd := rfl
@[simp] theorem takeSerial_trace : (takeSerial s).2.trace = s.trace := rfl
theorem takeSerial_fst : (takeSerial s).1 = (serialOffer s).1 := rfl
@[simp] theorem takeSerial_radioPeek : (takeSerial s).2.ports.radioPeek = s.ports.radioPeek := rfl
@[simp] theorem takeSerial_radioReceive : (takeSerial s).2.ports.radioReceive = s.ports.radioReceive := rfl
@[simp] theorem takeSerial_radioReset : (takeSerial s).2.ports.radioReset = s.ports.radioReset := rfl
@[simp] theorem takeSerial_serialPeek : (takeSerial s).2.ports.serialPeek = s.ports.serialPeek := rfl
@[simp] theorem takeSerial_serialReceive : (takeSerial s).2.ports.serialReceive = s.ports.serialReceive.tail := rfl
@[simp] theorem takeSerial_serialWait : (takeSerial s).2.ports.serialWait = (serialOffer s).2 := rfl

end takeSerial

section afterBuild
variable (payload : List Byte) (s : State)

@[simp] theorem afterBuild_cfg : (afterBuild payload s).cfg = s.cfg := rfl
@[simp] theorem afterBuild_crc : (afterBuild payload s).crc = frameCrc s.table payload := rfl
@[simp] theorem afterBuild_small : (afterBuild payload s).small = s.small := rfl
@[simp] theorem afterBuild_smallLen : (afterBuild payload s).smallLen = s.smallLen := rfl
@[simp] theorem afterBuild_big : (afterBuild payload s).big = Memory.writeSpan s.big 0 (frame s.table payload) := rfl
@[simp] theorem afterBuild_bigLen : (afterBuild payload s).bigLen = (frame s.table payload).length := rfl
@[simp] theorem afterBuild_table : (afterBuild payload s).table = s.table := rfl
@[simp] theorem afterBuild_pstate : (afterBuild payload s).pstate = s.pstate := rfl
@[simp] theorem afterBuild_phase : (afterBuild payload s).phase = s.phase := rfl
@[simp] theorem afterBuild_errInd : (afterBuild payload s).errInd = s.errInd := rfl
@[simp] theorem afterBuild_rxInd : (afterBuild payload s).rxInd = s.rxInd := rfl
@[simp] theorem afterBuild_txInd : (afterBuild payload s).txInd = s.txInd := rfl
@[simp] theorem afterBuild_trace : (afterBuild payload s).trace = s.trace := rfl
@[simp] theorem afterBuild_ports : (afterBuild payload s).ports = s.ports := rfl
@[simp] theorem afterBuild_draws : (afterBuild payload s).draws = s.draws := rfl

end afterBuild

section afterFrame
variable (payload : List Byte) (s : State)

@[simp] theorem afterFrame_cfg : (afterFrame payload s).cfg = s.cfg := rfl
@[simp] theorem afterFrame_crc : (afterFrame payload s).crc = frameCrc s.table payload := rfl
@[simp] theorem afterFrame_small : (afterFrame payload s).small = s.small := rfl
@[simp] theorem afterFrame_smallLen : (afterFrame payload s).smallLen = s.smallLen := rfl
@[simp] theorem afterFrame_big : (afterFrame payload s).big = Memory.writeSpan s.big 0 (frame s.table payload) := rfl
@[simp] theorem afterFrame_bigLen : (afterFrame payload s).bigLen = (frame s.table payload).length := rfl
@[simp] theorem afterFrame_table : (afterFrame payload s).table = s.table := rfl
@[simp] theorem afterFrame_pstate : (afterFrame payload s).pstate = s.pstate := rfl
@[simp] theorem afterFrame_phase : (afterFrame payload s).phase = s.phase := rfl
@[simp] theorem afterFrame_errInd : (afterFrame payload s).errInd = s.errInd := rfl
@[simp] theorem afterFrame_rxInd : (afterFrame payload s).rxInd = s.rxInd := rfl
@[simp] theorem afterFrame_txInd : (afterFrame payload s).txInd = s.txInd := rfl
@[simp] theorem afterFrame_trace : (afterFrame payload s).trace = s.trace ++ [.serTx (frame s.table payload)] := rfl
@[simp] theorem afterFrame_ports : (afterFrame payload s).ports = s.ports := rfl
@[simp] theorem afterFrame_draws : (afterFrame payload s).draws = s.draws := rfl

end afterFrame

section afterDiag
variable (text : Text) (s : State)

@[simp] theorem afterDiag_cfg : (afterDiag text s).cfg = s.cfg := rfl
@[simp] theorem afterDiag_crc : (afterDiag text s).crc = frameCrc s.table (diagPayload s.cfg text) := rfl
@[simp] theorem afterDiag_small : (afterDiag text s).small = s.small := rfl
@[simp] theorem afterDiag_smallLen : (afterDiag text s).smallLen = s.smallLen := rfl
@[simp] theorem afterDiag_big : (afterDiag text s).big = Memory.writeSpan s.big 0 (frame s.table (diagPayload s.cfg text)) := rfl
@[simp] theorem afterDiag_bigLen : (afterDiag text s).bigLen = (frame s.table (diagPayload s.cfg text)).length := rfl
@[simp] theorem afterDiag_table : (afterDiag text s).table = s.table := rfl
@[simp] theorem afterDiag_pstate : (afterDiag text s).pstate = s.pstate := rfl
@[simp] theorem afterDiag_phase : (afterDiag text s).phase = s.phase := rfl
@[simp] theorem afterDiag_errInd : (afterDiag text s).errInd = s.errInd := rfl
@[simp] theorem afterDiag_rxInd : (afterDiag text s).rxInd = s.rxInd := rfl
@[simp] theorem afterDiag_txInd : (afterDiag text s).txInd = s.txInd := rfl
@[simp] theorem afterDiag_trace : (afterDiag text s).trace = s.trace ++ [.serTx (frame s.table (diagPayload s.cfg text))] := rfl
@[simp] theorem afterDiag_ports : (afterDiag text s).ports = s.ports := rfl
@[simp] theorem afterDiag_draws : (afterDiag text s).draws = s.draws := rfl

end afterDiag

section afterError
variable (k : ErrorKind) (s : State)

@[simp] theorem afterError_cfg : (afterError k s).cfg = s.cfg := rfl
@[simp] theorem afterError_crc : (afterError k s).crc = frameCrc s.table (diagPayload s.cfg (msg s.cfg k)) := rfl
@[simp] theorem afterError_small : (afterError k s).small = s.small := rfl
@[simp] theorem afterError_smallLen : (afterError k s).smallLen = s.smallLen := rfl
@[simp] theorem afterError_big : (afterError k s).big = Memory.writeSpan s.big 0 (frame s.table (diagPayload s.cfg (msg s.cfg k))) := rfl
@[simp] theorem afterError_bigLen : (afterError k s).bigLen = (frame s.table (diagPayload s.cfg (msg s.cfg k))).length := rfl
@[simp] theorem afterError_table : (afterError k s).table = s.table := rfl
@[simp] theorem afterError_pstate : (afterError k s).pstate = s.pstate := rfl
@[simp] theorem afterError_phase : (afterError k s).phase = s.phase := rfl
@[simp] theorem afterError_errInd : (afterError k s).errInd = true := rfl
@[simp] theorem afterError_rxInd : (afterError k s).rxInd = s.rxInd := rfl
@[simp] theorem afterError_txInd : (afterError k s).txInd = s.txInd := rfl
@[simp] theorem afterError_trace : (afterError k s).trace = (s.trace ++ [.serTx (frame s.table (diagPayload s.cfg (msg s.cfg k)))]) ++ [.err true] := rfl
@[simp] theorem afterError_ports : (afterError k s).ports = s.ports := rfl
@[simp] theorem afterError_draws : (afterError k s).draws = s.draws := rfl

end afterError

section sequencing
variable {α : Type} (s : State) (e : Fault) (r : Refusal) (f : State → Result) (g : α → Result) (a : α)

@[simp] theorem andThen_next : andThen (.next s) f = f s := rfl
@[simp] theorem andThen_fault : andThen (.fault e) f = .fault e := rfl
@[simp] theorem andThen_refused : andThen (.refused r) f = .refused r := rfl
@[simp] theorem withValue_ok : withValue (.ok a) g = g a := rfl
@[simp] theorem withValue_error : withValue (.error e) g = .fault e := rfl

/-- What a sequenced outcome that goes on has gone through. -/
theorem andThen_eq_next {r : Result} {f : State → Result} {t : State} :
    andThen r f = .next t ↔ ∃ s', r = .next s' ∧ f s' = .next t := by
  cases r <;> simp [andThen]

theorem withValue_eq_next {x : Except Fault α} {g : α → Result} {t : State} :
    withValue x g = .next t ↔ ∃ a, x = .ok a ∧ g a = .next t := by
  cases x <;> simp [withValue]

end sequencing

end Sys2Proof.Machine
end

