-- ==== Sys2Proof/Laws/Memory.lean ====
section
/-! SUPPORT. The laws of the byte spaces: read after write, the canonical form, and spans. -/

namespace Sys2Proof.Machine

theorem Memory.read_write (m : Memory) (i j : Nat) (v : Byte) :
    Memory.read (Memory.write m i v) j = if j = i then some v else Memory.read m j := by
  induction m with
  | nil =>
    by_cases h : i = j
    · simp [Memory.write, Memory.read, h]
    · simp [Memory.write, Memory.read, h, Ne.symm h]
  | cons c rest ih =>
    obtain ⟨k, x⟩ := c
    simp only [Memory.write]
    split
    · by_cases h : i = j
      · simp [Memory.read, h]
      · simp [Memory.read, h, Ne.symm h]
    · split
      · next hik =>
        subst hik
        by_cases h : i = j
        · simp [Memory.read, h]
        · simp [Memory.read, h, Ne.symm h]
      · next hlt hne =>
        simp only [Memory.read, ih]
        by_cases hk : k = j
        · subst hk
          simp [Ne.symm hne]
        · simp [hk]

@[simp] theorem Memory.read_write_same (m : Memory) (i : Nat) (v : Byte) :
    Memory.read (Memory.write m i v) i = some v := by
  simp [Memory.read_write]

theorem Memory.read_write_other {m : Memory} {i j : Nat} {v : Byte} (h : j ≠ i) :
    Memory.read (Memory.write m i v) j = Memory.read m j := by
  simp [Memory.read_write, h]

theorem Memory.mem_write {m : Memory} {i : Nat} {v : Byte} {c : Host.Cell} (h : c ∈ Memory.write m i v) :
    c = (i, v) ∨ c ∈ m := by
  induction m with
  | nil => simpa [Memory.write] using h
  | cons d rest ih =>
    obtain ⟨k, x⟩ := d
    simp only [Memory.write] at h
    split at h
    · simpa using h
    · split at h
      · rcases List.mem_cons.1 h with h | h
        · exact .inl h
        · exact .inr (List.mem_cons_of_mem _ h)
      · rcases List.mem_cons.1 h with h | h
        · exact .inr (h ▸ List.mem_cons_self)
        · exact (ih h).imp_right (List.mem_cons_of_mem _)

/-- A write keeps the canonical form. -/
theorem Memory.wf_write {m : Memory} (h : Memory.wf m) (i : Nat) (v : Byte) : Memory.wf (Memory.write m i v) := by
  induction m with
  | nil => simp [Memory.write, Memory.wf]
  | cons c rest ih =>
    obtain ⟨k, x⟩ := c
    have ⟨hk, hr⟩ := List.pairwise_cons.1 h
    simp only [Memory.write]
    split
    · next hi =>
      refine List.pairwise_cons.2 ⟨fun d hd => ?_, h⟩
      rcases List.mem_cons.1 hd with rfl | hd
      · exact hi
      · exact Nat.lt_trans hi (hk d hd)
    · split
      · next hi =>
        subst hi
        exact List.pairwise_cons.2 ⟨hk, hr⟩
      · next hlt hne =>
        refine List.pairwise_cons.2 ⟨fun d hd => ?_, ih hr⟩
        rcases Memory.mem_write hd with rfl | hd
        · show k < i
          omega
        · exact hk d hd

/-- Storing a span keeps the canonical form. -/
theorem Memory.wf_writeSpan {m : Memory} (h : Memory.wf m) (i : Nat) (vs : List Byte) :
    Memory.wf (Memory.writeSpan m i vs) := by
  induction vs generalizing m i with
  | nil => exact h
  | cons v vs ih => exact ih (Memory.wf_write h i v) (i + 1)

theorem Memory.wf_nil : Memory.wf [] := List.Pairwise.nil

theorem Memory.read_nil (i : Nat) : Memory.read [] i = none := rfl

/-- What a stored span reads as, and that it leaves every other index alone. -/
theorem Memory.read_writeSpan (m : Memory) (i j : Nat) (vs : List Byte) :
    Memory.read (Memory.writeSpan m i vs) j =
      if i ≤ j ∧ j < i + vs.length then vs[j - i]? else Memory.read m j := by
  induction vs generalizing m i with
  | nil =>
    have h : ¬(i ≤ j ∧ j < i + ([] : List Byte).length) := by simp
    rw [if_neg h]; rfl
  | cons v vs ih =>
    simp only [Memory.writeSpan, ih, Memory.read_write, List.length_cons]
    by_cases h1 : j = i
    · subst h1
      simp
    · by_cases h2 : i + 1 ≤ j ∧ j < i + 1 + vs.length
      · have h3 : i ≤ j ∧ j < i + (vs.length + 1) := by omega
        obtain ⟨n, hn⟩ : ∃ n, j - i = n + 1 := ⟨j - i - 1, by omega⟩
        have h4 : j - (i + 1) = n := by omega
        simp [h2, h3, hn, h4]
      · have h3 : ¬(i ≤ j ∧ j < i + (vs.length + 1)) := by omega
        rw [if_neg h2, if_neg h3, if_neg h1]

theorem Memory.writeSpan_append (m : Memory) (i : Nat) (us vs : List Byte) :
    Memory.writeSpan m i (us ++ vs) = Memory.writeSpan (Memory.writeSpan m i us) (i + us.length) vs := by
  induction us generalizing m i with
  | nil => rfl
  | cons u us ih =>
    simp only [List.cons_append, Memory.writeSpan, ih, List.length_cons]
    congr 1
    omega

/-- A span stored from an index upward leaves what lies below it. -/
theorem Memory.read_writeSpan_below {m : Memory} {i j : Nat} {vs : List Byte} (h : j < i) :
    Memory.read (Memory.writeSpan m i vs) j = Memory.read m j := by
  rw [Memory.read_writeSpan, if_neg (by omega)]

/-! ### Spans of reads -/

theorem readSpan_ok {rd : Nat → Except Fault Byte} {i : Nat} {vs : List Byte}
    (h : ∀ k (hk : k < vs.length), rd (i + k) = .ok vs[k]) : readSpan rd i vs.length = .ok vs := by
  induction vs generalizing i with
  | nil => rfl
  | cons v vs ih =>
    have h0 : rd i = .ok v := h 0 (by simp)
    have hr : readSpan rd (i + 1) vs.length = .ok vs := ih fun k hk => by
      have := h (k + 1) (by simpa using hk)
      rw [show i + 1 + k = i + (k + 1) by omega, this]
      simp
    simp [readSpan, h0, hr]

theorem readSpan_length {rd : Nat → Except Fault Byte} {i n : Nat} {vs : List Byte}
    (h : readSpan rd i n = .ok vs) : vs.length = n := by
  induction n generalizing i vs with
  | zero => simp only [readSpan, Except.ok.injEq] at h; subst h; rfl
  | succ n ih =>
    simp only [readSpan] at h
    split at h
    · simp at h
    · split at h
      · simp at h
      · next hr =>
        simp only [Except.ok.injEq] at h
        subst h
        simp [ih hr]

/-- A span of reads that all succeed succeeds, with the bytes of the single reads. -/
theorem readSpan_of_reads {rd : Nat → Except Fault Byte} {i n : Nat}
    (h : ∀ k, k < n → ∃ b, rd (i + k) = .ok b) :
    ∃ vs, readSpan rd i n = .ok vs ∧ vs.length = n ∧ ∀ k (hk : k < vs.length), rd (i + k) = .ok vs[k] := by
  induction n generalizing i with
  | zero => exact ⟨[], rfl, rfl, by simp⟩
  | succ n ih =>
    obtain ⟨b, hb⟩ := h 0 (by omega)
    obtain ⟨vs, hv, hl, hk⟩ := ih (i := i + 1) fun k hk => by
      obtain ⟨c, hc⟩ := h (k + 1) (by omega)
      exact ⟨c, by rw [show i + 1 + k = i + (k + 1) by omega]; exact hc⟩
    refine ⟨b :: vs, by simp only [readSpan]; rw [show rd i = .ok b from hb]; simp [hv], by simp [hl], fun k hk' => ?_⟩
    cases k with
    | zero => exact hb
    | succ k =>
      have := hk k (by simpa using hk')
      rw [show i + (k + 1) = i + 1 + k by omega, this]
      simp

theorem readSpan_congr {rd rd' : Nat → Except Fault Byte} (h : ∀ j, rd j = rd' j) (i n : Nat) :
    readSpan rd i n = readSpan rd' i n := by
  rw [show rd = rd' from funext h]

theorem readSmall_ok {s : State} {i : Nat} {b : Byte} (hi : i < s.smallLen) (h : Memory.read s.small i = some b) :
    readSmall i s = .ok b := by
  simp [readSmall, hi, h]

theorem readSmall_pastLength {s : State} {i : Nat} (hi : s.smallLen ≤ i) :
    readSmall i s = .error .smallReadPastLength := by
  simp [readSmall, Nat.not_lt.2 hi]

theorem readBig_ok {s : State} {i : Nat} {b : Byte} (hi : i < s.bigLen) (h : Memory.read s.big i = some b) :
    readBig i s = .ok b := by
  simp [readBig, hi, h]

theorem readBig_pastLength {s : State} {i : Nat} (hi : s.bigLen ≤ i) :
    readBig i s = .error .bigReadPastLength := by
  simp [readBig, Nat.not_lt.2 hi]

/-- Reading back the bytes a span of BIG was written with. -/
theorem readBigSpan_writeSpan {s : State} {vs : List Byte} {m : Memory} (hm : s.big = Memory.writeSpan m 0 vs)
    (hl : s.bigLen = vs.length) : readBigSpan 0 vs.length s = .ok vs := by
  refine readSpan_ok fun k hk => readBig_ok (by omega) ?_
  rw [hm, Memory.read_writeSpan, if_pos (by omega)]
  simp only [Nat.zero_add, Nat.sub_zero]
  exact List.getElem?_eq_getElem hk

/-- The same for SMALL. -/
theorem readSmallSpan_writeSpan {s : State} {vs : List Byte} {m : Memory} (hm : s.small = Memory.writeSpan m 0 vs)
    (hl : s.smallLen = vs.length) : readSmallSpan 0 vs.length s = .ok vs := by
  refine readSpan_ok fun k hk => readSmall_ok (by omega) ?_
  rw [hm, Memory.read_writeSpan, if_pos (by omega)]
  simp only [Nat.zero_add, Nat.sub_zero]
  exact List.getElem?_eq_getElem hk

/-- Where every byte below the length is written, every span below the length reads. -/
theorem readSmallSpan_of_holds {s : State} {cap i n : Nat} (h : Memory.Holds s.small s.smallLen cap)
    (hn : i + n ≤ s.smallLen) :
    ∃ vs, readSmallSpan i n s = .ok vs ∧ vs.length = n ∧
      ∀ k (hk : k < vs.length), readSmall (i + k) s = .ok vs[k] := by
  refine readSpan_of_reads fun k hk => ?_
  obtain ⟨b, hb⟩ := Option.isSome_iff_exists.1 (h.written (i + k) (by omega))
  exact ⟨b, readSmall_ok (by omega) hb⟩

theorem readSmall_of_holds {s : State} {cap i : Nat} (h : Memory.Holds s.small s.smallLen cap) (hi : i < s.smallLen) :
    ∃ b, readSmall i s = .ok b := by
  obtain ⟨b, hb⟩ := Option.isSome_iff_exists.1 (h.written i hi)
  exact ⟨b, readSmall_ok hi hb⟩

/-- A byte stored at the length extends what a space holds. -/
theorem Memory.Holds.push {m : Memory} {len cap : Nat} (h : Memory.Holds m len cap) (hl : len < cap) (v : Byte) :
    Memory.Holds (Memory.write m len v) (len + 1) cap where
  wf := Memory.wf_write h.wf len v
  bounded := hl
  written i hi := by
    rw [Memory.read_write]
    split
    · rfl
    · exact h.written i (by omega)
  inside i hi := by
    rw [Memory.read_write_other (by omega)]
    exact h.inside i hi

/-- A span stored from index 0 is what the space holds afterwards, whatever it held before. -/
theorem Memory.Holds.ofSpan {m : Memory} {len cap : Nat} (h : Memory.Holds m len cap) {vs : List Byte}
    (hl : vs.length ≤ cap) : Memory.Holds (Memory.writeSpan m 0 vs) vs.length cap where
  wf := Memory.wf_writeSpan h.wf 0 vs
  bounded := hl
  written i hi := by
    rw [Memory.read_writeSpan, if_pos (by omega)]
    simpa using hi
  inside i hi := by
    rw [Memory.read_writeSpan, if_neg (by omega)]
    exact h.inside i hi

/-- A shorter length holds too. -/
theorem Memory.Holds.shorten {m : Memory} {len cap : Nat} (h : Memory.Holds m len cap) {n : Nat} (hn : n ≤ len) :
    Memory.Holds m n cap where
  wf := h.wf
  bounded := Nat.le_trans hn h.bounded
  written i hi := h.written i (Nat.lt_of_lt_of_le hi hn)
  inside := h.inside

/-- The reset state's spaces are in canonical form. -/
theorem reset_memories_wf (c : Config.Params) :
    Memory.wf (State.resetWith c).small ∧ Memory.wf (State.resetWith c).big := ⟨Memory.wf_nil, Memory.wf_nil⟩

theorem Memory.Holds.nil (cap : Nat) : Memory.Holds [] 0 cap where
  wf := Memory.wf_nil
  bounded := Nat.zero_le _
  written i hi := absurd hi (Nat.not_lt_zero i)
  inside _ _ := rfl

/-- Storing the radio's bytes (R144) succeeds when they fit SMALL, and is a span write. -/
theorem writeSmallSpan_ok {s : State} {i : Nat} {d : List Byte} (h : i + d.length ≤ s.cfg.smallCap) :
    writeSmallSpan i d s = .ok { s with small := Memory.writeSpan s.small i d } := by
  induction d generalizing i s with
  | nil => rfl
  | cons v vs ih =>
    have hi : i < s.cfg.smallCap := by simp only [List.length_cons] at h; omega
    have hw : writeSmall i v s = .ok { s with small := Memory.write s.small i v } := by simp [writeSmall, hi]
    simp only [writeSmallSpan, hw]
    rw [ih (by simp only [List.length_cons] at h; simpa using (by omega))]
    rfl

end Sys2Proof.Machine
end

