-- ==== Sys2Proof/Laws/Frames.lean ====
section
/-! SUPPORT. What the frame assembly, DIAG and the error procedure can do, in closed form: one law for each shared operation. -/

namespace Sys2Proof.Machine

/-! ### The stuffer's arithmetic -/

theorem stuff_length (b : Byte) : (stuff b).length = stuffWidth b := by
  unfold stuff stuffWidth
  by_cases h1 : b = fend
  · simp [h1]
  · by_cases h2 : b = fesc
    · subst h2; rfl
    · simp [h1, h2]

@[simp] theorem stuffed_nil : stuffed [] = [] := rfl

@[simp] theorem stuffed_cons (b : Byte) (c : List Byte) : stuffed (b :: c) = stuff b ++ stuffed c := rfl

@[simp] theorem stuffed_append (c d : List Byte) : stuffed (c ++ d) = stuffed c ++ stuffed d := by
  simp [stuffed]

theorem stuffed_length (c : List Byte) : (stuffed c).length = contentWidth c := by
  induction c with
  | nil => rfl
  | cons b c ih => simp [contentWidth, stuff_length, ih] at *

theorem contentWidth_append (c d : List Byte) : contentWidth (c ++ d) = contentWidth c + contentWidth d := by
  simp [contentWidth]

theorem contentWidth_le (c : List Byte) : contentWidth c ≤ 2 * c.length := by
  induction c with
  | nil => simp [contentWidth]
  | cons b c ih =>
    have : stuffWidth b ≤ 2 := by unfold stuffWidth; split <;> omega
    simp only [contentWidth, List.map_cons, List.sum_cons, List.length_cons] at *
    omega

theorem le_contentWidth (c : List Byte) : c.length ≤ contentWidth c := by
  induction c with
  | nil => simp [contentWidth]
  | cons b c ih =>
    have : 1 ≤ stuffWidth b := by unfold stuffWidth; split <;> omega
    simp only [contentWidth, List.map_cons, List.sum_cons, List.length_cons] at *
    omega

theorem frame_length (t : Vector Word 256) (payload : List Byte) :
    (frame t payload).length = 2 + contentWidth (frameContent t payload) := by
  simp only [frame, List.length_append, List.length_cons, List.length_nil, stuffed_length]
  omega

@[simp] theorem crcOf_nil (t : Vector Word 256) (c : Word) : crcOf t c [] = c := rfl

@[simp] theorem crcOf_cons (t : Vector Word 256) (c : Word) (b : Byte) (bs : List Byte) :
    crcOf t c (b :: bs) = crcOf t (upd t c b) bs := rfl

/-- The two halves of a word assemble to it (R9, R45). -/
theorem cat16_halves (c : Word) : cat16 (hi8 c) (lo8 c) = c := by
  unfold cat16 hi8 lo8
  ext i hi
  by_cases h : i < 8
  · simp [h, BitVec.getLsbD_eq_getElem, hi]
  · have h1 : i - 8 < 8 := by omega
    have h2 : 8 + (i - 8) = i := by omega
    simp [h, h1, h2, BitVec.getLsbD_eq_getElem, hi]

/-! ### Appending to BIG -/

/-- The state after `vs` are appended to BIG and `crc` is set. -/
def appended (vs : List Byte) (c : Word) (s : State) : State :=
  { s with crc := c, big := Memory.writeSpan s.big s.bigLen vs, bigLen := s.bigLen + vs.length }

/-- What a build step does: from a state under table `t`, it appends `vs` of the CRC it starts with and leaves `nc` of it;
or, where they do not fit, BIG is full with as many of them as fitted. -/
def Appends (t : Vector Word 256) (f : State → Build) (vs : Word → List Byte) (nc : Word → Word) : Prop :=
  ∀ s, s.table = t → s.bigLen ≤ s.cfg.bigCap →
    if s.bigLen + (vs s.crc).length ≤ s.cfg.bigCap then f s = .ok (appended (vs s.crc) (nc s.crc) s)
    else ∃ c, f s = .overflow (appended ((vs s.crc).take (s.cfg.bigCap - s.bigLen)) c s)

theorem appended_appended (us vs : List Byte) (c d : Word) (s : State) :
    appended vs d (appended us c s) = appended (us ++ vs) d s := by
  simp [appended, Memory.writeSpan_append, Nat.add_assoc]

theorem Appends.comp {t : Vector Word 256} {f g : State → Build} {us vs : Word → List Byte} {nc nd : Word → Word}
    (hf : Appends t f us nc) (hg : Appends t g vs nd) :
    Appends t (fun s => (f s).andThen g) (fun c => us c ++ vs (nc c)) (fun c => nd (nc c)) := by
  intro s ht hl
  have h1 := hf s ht hl
  by_cases hu : s.bigLen + (us s.crc).length ≤ s.cfg.bigCap
  · rw [if_pos hu] at h1
    have h2 := hg (appended (us s.crc) (nc s.crc) s) ht hu
    simp only [appended, Nat.add_assoc] at h2
    simp only [h1, Build.andThen, List.length_append]
    split
    · next hv =>
      rw [if_pos (by omega)] at h2
      rw [show appended (us s.crc) (nc s.crc) s = { s with crc := nc s.crc, big := Memory.writeSpan s.big s.bigLen (us s.crc), bigLen := s.bigLen + (us s.crc).length } from rfl, h2]
      simp [appended, Memory.writeSpan_append]
    · next hv =>
      rw [if_neg (by omega)] at h2
      obtain ⟨c, hc⟩ := h2
      refine ⟨c, ?_⟩
      rw [show appended (us s.crc) (nc s.crc) s = { s with crc := nc s.crc, big := Memory.writeSpan s.big s.bigLen (us s.crc), bigLen := s.bigLen + (us s.crc).length } from rfl, hc]
      have hm : (us s.crc).length ≤ s.cfg.bigCap - s.bigLen := by omega
      simp only [appended, List.take_append, List.take_of_length_le hm, Memory.writeSpan_append, List.length_append]
      rw [show s.cfg.bigCap - (s.bigLen + (us s.crc).length) = s.cfg.bigCap - s.bigLen - (us s.crc).length by omega]
  · rw [if_neg hu] at h1
    obtain ⟨c, hc⟩ := h1
    simp only [List.length_append]
    rw [if_neg (by omega)]
    refine ⟨c, ?_⟩
    simp only [hc, Build.andThen]
    rw [List.take_append_of_le_length (by omega)]

/-- `put` appends its byte (R141). -/
theorem put_appends (t : Vector Word 256) (v : Byte) : Appends t (put v) (fun _ => [v]) id := by
  intro s _ hl
  simp only [List.length_singleton]
  split
  · next h =>
    simp [put, writeBig, appended, Memory.writeSpan, show s.bigLen ≠ s.cfg.bigCap by omega, show s.bigLen < s.cfg.bigCap by omega]
  · next h =>
    have he : s.bigLen = s.cfg.bigCap := by omega
    refine ⟨s.crc, ?_⟩
    simp only [put, he, appended, Nat.sub_self, List.take_zero, Memory.writeSpan, List.length_nil, Nat.add_zero, if_pos]
    rw [← he]

theorem Appends.nil (t : Vector Word 256) : Appends t Build.ok (fun _ => []) id := by
  intro s _ hl
  simp [appended, Memory.writeSpan, hl]

theorem putAll_appends (t : Vector Word 256) (vs : List Byte) : Appends t (putAll vs) (fun _ => vs) id := by
  induction vs with
  | nil => exact Appends.nil t
  | cons v vs ih => exact (put_appends t v).comp ih

theorem stuffByte_appends (t : Vector Word 256) (b : Byte) : Appends t (stuffByte b) (fun _ => stuff b) id :=
  putAll_appends t (stuff b)

theorem takeByte_appends (t : Vector Word 256) (b : Byte) :
    Appends t (takeByte b) (fun _ => stuff b) (fun c => upd t c b) := by
  intro s ht hl
  have h := stuffByte_appends t b (crcRun [b] s) ht hl
  subst ht
  simpa [takeByte, appended, crcRun, crcOf] using h

theorem takeBytes_appends (t : Vector Word 256) (bs : List Byte) :
    Appends t (takeBytes bs) (fun _ => stuffed bs) (fun c => crcOf t c bs) := by
  induction bs with
  | nil => exact Appends.nil t
  | cons b bs ih => exact (takeByte_appends t b).comp ih

theorem closeFrame_appends (t : Vector Word 256) :
    Appends t closeFrame (fun c => stuffed [hi8 c, lo8 c] ++ [fend]) id := by
  intro s ht hl
  have h := ((stuffByte_appends t (hi8 s.crc)).comp (stuffByte_appends t (lo8 s.crc))).comp (put_appends t fend) s ht hl
  simpa [closeFrame] using h

/-- The assembly of RELAY and DIAG (R142, R150): the whole frame where it fits BIG; where it does not, BIG is full with its
beginning. -/
theorem buildFrame_law (payload : List Byte) (s : State) :
    if (frame s.table payload).length ≤ s.cfg.bigCap then buildFrame payload s = .ok (afterBuild payload s)
    else ∃ c, buildFrame payload s = .overflow
      { s with crc := c, big := Memory.writeSpan s.big 0 ((frame s.table payload).take s.cfg.bigCap), bigLen := s.cfg.bigCap } := by
  have h := (((put_appends s.table fend).comp (takeByte_appends s.table controlByte)).comp
    (takeBytes_appends s.table payload)).comp (closeFrame_appends s.table)
    { s with bigLen := 0, crc := crcSeed } rfl (Nat.zero_le _)
  have hf : frame s.table payload = [fend] ++ stuff controlByte ++ stuffed payload ++
      (stuffed [hi8 (frameCrc s.table payload), lo8 (frameCrc s.table payload)] ++ [fend]) := by
    simp [frame, frameContent]
  simp only [id] at h
  rw [show crcOf s.table (upd s.table crcSeed controlByte) payload = frameCrc s.table payload from rfl, ← hf] at h
  simp only [Nat.zero_add, Nat.sub_zero] at h
  split
  · next hfit =>
    rw [if_pos hfit] at h
    simpa [buildFrame, afterBuild, appended] using h
  · next hfit =>
    rw [if_neg hfit] at h
    obtain ⟨c, hc⟩ := h
    refine ⟨c, ?_⟩
    have hm : min s.cfg.bigCap (frame s.table payload).length = s.cfg.bigCap := by omega
    simpa [buildFrame, appended, hm] using hc

theorem buildFrame_fits {payload : List Byte} {s : State} (h : frameFits payload s) :
    buildFrame payload s = .ok (afterBuild payload s) := by
  have := buildFrame_law payload s
  rwa [if_pos h] at this

theorem buildFrame_overflows {payload : List Byte} {s : State} (h : ¬ frameFits payload s) :
    ∃ c, buildFrame payload s = .overflow
      { s with crc := c, big := Memory.writeSpan s.big 0 ((frame s.table payload).take s.cfg.bigCap), bigLen := s.cfg.bigCap } := by
  have := buildFrame_law payload s
  rwa [if_neg h] at this

/-- The send of a finished build (R147). -/
theorem sendBig_afterBuild (payload : List Byte) (s : State) :
    sendBig (afterBuild payload s) = .next (afterFrame payload s) := by
  have h : readBigSpan 0 (frame s.table payload).length (afterBuild payload s) = .ok (frame s.table payload) :=
    readBigSpan_writeSpan (m := s.big) rfl rfl
  simp only [sendBig, afterBuild_bigLen, h, withValue_ok]
  rfl

/-- `DIAG` (R150) where its frame fits: exactly one `SER_TX` of the frame (R152). -/
theorem diag_fits {text : Text} {s : State} (h : frameFits (diagPayload s.cfg text) s) :
    diag text s = .next (afterDiag text s) := by
  simp only [diag, buildFrame_fits h, sendBig_afterBuild]
  rfl

/-- `DIAG` where its frame does not fit faults (U1); R151 rules this out for the texts of R255. -/
theorem diag_overflows {text : Text} {s : State} (h : ¬ frameFits (diagPayload s.cfg text) s) :
    diag text s = .fault .diagOverflow := by
  obtain ⟨c, hc⟩ := buildFrame_overflows h
  simp only [diag, hc]

/-- The error procedure (R254) where its diagnostic fits. -/
theorem raiseError_fits {k : ErrorKind} {s : State} (h : frameFits (diagPayload s.cfg (msg s.cfg k)) s) :
    raiseError k s = .next (afterError k s) := by
  simp only [raiseError, diag_fits h, andThen_next]
  rfl

/-- The sufficient condition of R151. -/
theorem diagLength_le (c : Config.Params) (t : Text) : diagLength c t ≤ 2 * t.length + 40 := by
  have := contentWidth_le (frameContent c.flexTable (diagPayload c t))
  have hl : (frameContent c.flexTable (diagPayload c t)).length = t.length + 19 := by
    simp [frameContent, diagPayload, diagHeader]; omega
  unfold diagLength
  omega

/-- The two disjuncts of `diagFits` say no more than the constraint of R151. -/
theorem diagFits_iff {c : Config.Params} {t : Text} :
    diagFits c t = true ↔ (frame c.flexTable (diagPayload c t)).length ≤ c.bigCap := by
  have hl := diagLength_le c t
  have he : (frame c.flexTable (diagPayload c t)).length = diagLength c t := frame_length _ _
  simp only [diagFits, Bool.or_eq_true, decide_eq_true_eq, he]
  omega

theorem frameFits_of_diagFits {s : State} {t : Text} (ht : s.table = s.cfg.flexTable) (h : diagFits s.cfg t = true) :
    frameFits (diagPayload s.cfg t) s := by
  rw [frameFits, ht]
  exact diagFits_iff.1 h

theorem msgUnknown_mem (c : Config.Params) {cmd : BitVec 4} (h0 : cmd ≠ 0) (hF : cmd ≠ 0xF) :
    msgUnknown c cmd ∈ texts c := by
  have h1 : cmd.toNat ≠ 0 := fun h => h0 (BitVec.eq_of_toNat_eq h)
  have h2 : cmd.toNat ≠ 15 := fun h => hF (BitVec.eq_of_toNat_eq h)
  have h3 := cmd.isLt
  have hl : cmd.toNat - 1 < 14 := by omega
  unfold msgUnknown texts
  rw [dif_pos hl]
  refine List.mem_append_right _ (Vector.mem_toList_iff.2 ?_)
  rw [Vector.get_eq_getElem]
  exact Vector.getElem_mem _

/-- The kinds whose text is a row of R255: all but an unknown command that is none of 0x1 to 0xE. -/
def ErrorKind.listed : ErrorKind → Prop
  | .unknownCommand cmd => cmd ≠ 0 ∧ cmd ≠ 0xF
  | _ => True

theorem msg_mem {k : ErrorKind} (c : Config.Params) (h : ErrorKind.listed k) : msg c k ∈ texts c := by
  cases k with
  | unknownCommand cmd => exact msgUnknown_mem c h.1 h.2
  | _ => simp [msg, texts]

theorem validConfig_fits {c : Config.Params} (h : validConfig c = true) {t : Text} (ht : t ∈ texts c) :
    diagFits c t = true := by
  simp only [validConfig, Bool.and_eq_true, List.all_eq_true] at h
  exact (h.2 t ht).2

/-- Under the boot constraints (R282) every report of R255 fits (R151). -/
theorem report_fits {s : State} (hv : validConfig s.cfg = true) (ht : s.table = s.cfg.flexTable) {k : ErrorKind}
    (hk : ErrorKind.listed k) : frameFits (diagPayload s.cfg (msg s.cfg k)) s :=
  frameFits_of_diagFits ht (validConfig_fits hv (msg_mem s.cfg hk))

end Sys2Proof.Machine
end

