-- ==== Sys2Proof/Laws/Ops.lean ====
section
/-! SUPPORT. What each shared operation can do, said once: where it goes on, the state it leaves. -/

namespace Sys2Proof.Machine

/-! ### Reports and errors -/

theorem diag_eq (text : Text) (s : State) :
    diag text s = if frameFits (diagPayload s.cfg text) s then .next (afterDiag text s) else .fault .diagOverflow := by
  split
  · next h => exact diag_fits h
  · next h => exact diag_overflows h

theorem diag_next {text : Text} {s t : State} (h : diag text s = .next t) : t = afterDiag text s := by
  rw [diag_eq] at h
  split at h
  · exact (Host.Outcome.next.inj h).symm
  · cases h

theorem raiseError_eq (k : ErrorKind) (s : State) :
    raiseError k s =
      if frameFits (diagPayload s.cfg (msg s.cfg k)) s then .next (afterError k s) else .fault .diagOverflow := by
  unfold raiseError
  rw [diag_eq]
  split <;> rfl

theorem raiseError_next {k : ErrorKind} {s t : State} (h : raiseError k s = .next t) : t = afterError k s := by
  rw [raiseError_eq] at h
  split at h
  · exact (Host.Outcome.next.inj h).symm
  · cases h

/-- A report that is sent fits BIG. -/
theorem diag_next_fits {text : Text} {s t : State} (h : diag text s = .next t) :
    frameFits (diagPayload s.cfg text) s := by
  by_contra hf
  rw [diag_overflows hf] at h
  cases h

theorem raiseError_next_fits {k : ErrorKind} {s t : State} (h : raiseError k s = .next t) :
    frameFits (diagPayload s.cfg (msg s.cfg k)) s := by
  by_contra hf
  rw [raiseError_eq, if_neg hf] at h
  cases h

/-- A report overwrites `crc`, BIG's beginning and `bigLen`, whatever `crc` held (R290). -/
theorem afterError_ignores_crc (k : ErrorKind) (c : Word) (s : State) : afterError k { s with crc := c } = afterError k s := rfl

theorem afterError_info {k k' : ErrorKind} {s : State} (h : msg s.cfg k = msg s.cfg k') : afterError k s = afterError k' s := by
  unfold afterError
  rw [h]

/-! ### The stuffer's operations -/

/-- A build step run by itself, from a state where it appends `vs`: with room the bytes are appended; without, R148's error
follows the partial output. -/
theorem runBuild_appends {f : State → Build} {vs : Word → List Byte} {s : State}
    (hf : Appends s.table f vs id) (hl : s.bigLen ≤ s.cfg.bigCap) :
    runBuild (f s) =
      if s.bigLen + (vs s.crc).length ≤ s.cfg.bigCap then .next (appended (vs s.crc) s.crc s)
      else raiseError (.oversizedOutboundPacket s.cfg.bigCap)
        (appended ((vs s.crc).take (s.cfg.bigCap - s.bigLen)) s.crc s) := by
  have h := hf s rfl hl
  by_cases hv : s.bigLen + (vs s.crc).length ≤ s.cfg.bigCap
  · rw [if_pos hv] at h ⊢
    rw [h]; rfl
  · rw [if_neg hv] at h ⊢
    obtain ⟨c, hc⟩ := h
    have hm : s.bigLen + min (s.cfg.bigCap - s.bigLen) (vs s.crc).length = s.cfg.bigCap := by omega
    rw [hc]
    simp only [runBuild, relayOverflow, raiseError_eq]
    rfl

/-! ### The relay -/

/-- Whether R143 rejects a count. -/
abbrev relayTooLarge (p : Nat) (s : State) : Prop := 2 * s.cfg.maxPayload < p ∨ s.cfg.smallCap < p

theorem relay_tooLarge {p : Nat} {s : State} (h : relayTooLarge p s) :
    relay p s = raiseError (.oversizedOutboundPacket p) (unitStartClear s) := by
  simp only [relay, unitStartClear_cfg]
  rw [if_pos h]

theorem relayReceived_small (p : Nat) (s : State) :
    (relayReceived p s).small = Memory.writeSpan s.small 0 (takeRadioReceive p (unitStartClear s)).1 := by
  simp [relayReceived]

/-- The relay's build over the bytes it stored (R145 to R148). -/
theorem relayBuild_eq {s : State} {d : List Byte} {m : Memory} (hm : s.small = Memory.writeSpan m 0 d)
    (hl : s.smallLen = d.length) :
    relayBuild s =
      if frameFits d s then .next (afterFrame d s)
      else raiseError (.oversizedOutboundPacket s.cfg.bigCap)
        { s with big := Memory.writeSpan s.big 0 ((frame s.table d).take s.cfg.bigCap), bigLen := s.cfg.bigCap } := by
  simp only [relayBuild, hl, readSmallSpan_writeSpan hm hl, withValue_ok]
  by_cases h : frameFits d s
  · rw [if_pos h, buildFrame_fits h]
    exact sendBig_afterBuild d s
  · obtain ⟨c, hc⟩ := buildFrame_overflows h
    rw [if_neg h, hc]
    simp only [relayOverflow, raiseError_eq, hl]
    rfl

theorem takeRadioReceive_length (p : Nat) (s : State) :
    radioKeepsContract s p = true ↔ (takeRadioReceive p s).1.length ≤ p := by
  unfold radioKeepsContract takeRadioReceive
  cases s.ports.radioReceive <;> simp

@[simp] theorem radioKeepsContract_unitStartClear (p : Nat) (s : State) :
    radioKeepsContract (unitStartClear s) p = radioKeepsContract s p := by
  simp [radioKeepsContract]

/-- `RELAY` past the size check (R144 to R148). -/
theorem relay_eq {p : Nat} {s : State} (hp : ¬ relayTooLarge p s) :
    relay p s =
      if radioKeepsContract s p then
        if frameFits (takeRadioReceive p (unitStartClear s)).1 s then
          .next (afterFrame (takeRadioReceive p (unitStartClear s)).1 (relayReceived p s))
        else raiseError (.oversizedOutboundPacket s.cfg.bigCap)
          { relayReceived p s with
            big := Memory.writeSpan s.big 0
              ((frame s.table (takeRadioReceive p (unitStartClear s)).1).take s.cfg.bigCap)
            bigLen := s.cfg.bigCap }
      else .refused .radioContract := by
  simp only [relay, unitStartClear_cfg]
  rw [if_neg hp]
  simp only [relayReceive]
  have hc := takeRadioReceive_length p (unitStartClear s)
  rw [radioKeepsContract_unitStartClear] at hc
  by_cases hk : radioKeepsContract s p = true
  · have hd := hc.1 hk
    rw [if_neg (Nat.not_lt.2 hd), if_pos hk]
    have hcap : ¬ s.cfg.smallCap < p := fun h => hp (.inr h)
    have hw : writeSmallSpan 0 (takeRadioReceive p (unitStartClear s)).1
        (emit (.radRx p (takeRadioReceive p (unitStartClear s)).1) (takeRadioReceive p (unitStartClear s)).2) = _ :=
      writeSmallSpan_ok (by simp; omega)
    simp only [relayStore, hw, withValue_ok]
    rw [relayBuild_eq (m := s.small) (d := (takeRadioReceive p (unitStartClear s)).1) (by simp) rfl]
    simp [relayReceived, frameFits]
  · rw [if_neg hk, if_pos (by have := mt hc.2 hk; omega)]

/-- Where a relay goes on. -/
theorem relay_next {p : Nat} {s t : State} (h : relay p s = .next t) :
    (relayTooLarge p s ∧ t = afterError (.oversizedOutboundPacket p) (unitStartClear s) ∧
      frameFits (diagPayload s.cfg s.cfg.msgPacketSize) s) ∨
    (¬ relayTooLarge p s ∧ t = afterFrame (takeRadioReceive p (unitStartClear s)).1 (relayReceived p s) ∧
      frameFits (takeRadioReceive p (unitStartClear s)).1 s ∧ (takeRadioReceive p (unitStartClear s)).1.length ≤ p) ∨
    (¬ relayTooLarge p s ∧ ¬ frameFits (takeRadioReceive p (unitStartClear s)).1 s ∧
      (takeRadioReceive p (unitStartClear s)).1.length ≤ p ∧
      t = afterError (.oversizedOutboundPacket s.cfg.bigCap)
        { relayReceived p s with
          big := Memory.writeSpan s.big 0
            ((frame s.table (takeRadioReceive p (unitStartClear s)).1).take s.cfg.bigCap)
          bigLen := s.cfg.bigCap } ∧
      frameFits (diagPayload s.cfg s.cfg.msgPacketSize) s) := by
  by_cases hp : relayTooLarge p s
  · rw [relay_tooLarge hp] at h
    exact .inl ⟨hp, raiseError_next h, by simpa [frameFits, msg] using raiseError_next_fits h⟩
  · rw [relay_eq hp] at h
    split at h
    · next hk =>
      rw [← radioKeepsContract_unitStartClear, takeRadioReceive_length] at hk
      split at h
      · next hf => exact .inr (.inl ⟨hp, (Host.Outcome.next.inj h).symm, hf, hk⟩)
      · next hf => exact .inr (.inr ⟨hp, hf, hk, raiseError_next h,
          by simpa [frameFits, relayReceived, msg] using raiseError_next_fits h⟩)
    · cases h

/-! ### The parser's storing operation -/

theorem overflow_next {s t : State} (h : overflow s = .next t) :
    t = { afterError (.bufferOverflowDuringParse s.cfg.smallCap) s with pstate := .overflow, phase := .pollRadio } := by
  obtain ⟨u, hu, ht⟩ := andThen_eq_next.1 h
  rw [raiseError_next hu] at ht
  exact (Host.Outcome.next.inj ht).symm

theorem append_full {v : Byte} {s : State} {goOn : State → State} (h : s.smallLen = s.cfg.smallCap) :
    append v s goOn = overflow s := if_pos h

theorem append_room {v : Byte} {s : State} {goOn : State → State} (h : s.smallLen < s.cfg.smallCap) :
    append v s goOn = .next (goOn { s with small := Memory.write s.small s.smallLen v, smallLen := s.smallLen + 1 }) := by
  simp [append, writeSmall, h, Nat.ne_of_lt h]

theorem append_next {v : Byte} {s t : State} {goOn : State → State} (h : append v s goOn = .next t) :
    (s.smallLen = s.cfg.smallCap ∧
      t = { afterError (.bufferOverflowDuringParse s.cfg.smallCap) s with pstate := .overflow, phase := .pollRadio }) ∨
    (s.smallLen < s.cfg.smallCap ∧
      t = goOn { s with small := Memory.write s.small s.smallLen v, smallLen := s.smallLen + 1 }) := by
  by_cases hc : s.smallLen = s.cfg.smallCap
  · rw [append_full hc] at h
    exact .inl ⟨hc, overflow_next h⟩
  · by_cases hl : s.smallLen < s.cfg.smallCap
    · rw [append_room hl] at h
      exact .inr ⟨hl, (Host.Outcome.next.inj h).symm⟩
    · simp [append, hc, writeSmall, hl] at h

/-! ### The dispatcher -/

/-- The bytes below `smallLen`, read one by one and as spans. -/
theorem smallBytes_length {s : State} {bs : List Byte} (h : smallBytes s = some bs) : bs.length = s.smallLen := by
  unfold smallBytes at h
  split at h
  · next vs hv =>
    cases h
    exact readSpan_length hv
  · cases h

theorem readSpan_split {rd : Nat → Except Fault Byte} {i n : Nat} {vs : List Byte} (h : readSpan rd i n = .ok vs) :
    ∀ k (hk : k < vs.length), rd (i + k) = .ok vs[k] := by
  induction n generalizing i vs with
  | zero =>
    simp only [readSpan, Except.ok.injEq] at h
    subst h
    exact fun k hk => absurd hk (Nat.not_lt_zero k)
  | succ n ih =>
    simp only [readSpan] at h
    split at h
    · cases h
    · next b hb =>
      split at h
      · cases h
      · next bs hr =>
        cases h
        intro k hk
        cases k with
        | zero => exact hb
        | succ k =>
          have := ih hr k (by simpa using hk)
          rw [show i + (k + 1) = i + 1 + k by omega, this]
          simp

theorem readSmall_of_smallBytes {s : State} {bs : List Byte} (h : smallBytes s = some bs) {k : Nat} (hk : k < bs.length) :
    readSmall k s = .ok bs[k] := by
  unfold smallBytes at h
  split at h
  · next vs hv =>
    cases h
    simpa using readSpan_split hv k hk
  · cases h

/-- The converse: the single reads give the bytes. -/
theorem smallBytes_of_reads {s : State} {bs : List Byte} (hl : bs.length = s.smallLen)
    (h : ∀ k (hk : k < bs.length), readSmall k s = .ok bs[k]) : smallBytes s = some bs := by
  have : readSmallSpan 0 s.smallLen s = .ok bs := by
    rw [← hl]
    exact readSpan_ok fun k hk => by simpa using h k hk
  simp [smallBytes, this]

/-- A span below the length is the corresponding part of the bytes. -/
theorem readSmallSpan_of_smallBytes {s : State} {pre mid post : List Byte} (h : smallBytes s = some (pre ++ mid ++ post)) :
    readSmallSpan pre.length mid.length s = .ok mid := by
  refine readSpan_ok fun k hk => ?_
  rw [readSmall_of_smallBytes h (by simp; omega)]
  simp [List.getElem_append_left, hk]

theorem payloadLength_nonzero {b0 : Byte} {len n : Nat} (h : b0 ≠ 0) (hn : payloadLength b0 len = some n) :
    3 ≤ len ∧ n = len - 3 := by
  unfold payloadLength at hn
  rw [if_pos h] at hn
  by_cases hl : len < 3
  · rw [if_pos hl] at hn; cases hn
  · rw [if_neg hl] at hn
    exact ⟨Nat.not_lt.1 hl, (Option.some.inj hn).symm⟩

theorem payloadLength_zero {len n : Nat} (hn : payloadLength 0 len = some n) : 1 ≤ len ∧ n = len - 1 := by
  unfold payloadLength at hn
  rw [if_neg (not_not.2 rfl)] at hn
  by_cases hl : len < 1
  · rw [if_pos hl] at hn; cases hn
  · rw [if_neg hl] at hn
    exact ⟨Nat.not_lt.1 hl, (Option.some.inj hn).symm⟩

/-- The payload's span lies below the length (R206: "the bound is checked before the subtraction"). -/
theorem payloadLength_le {b0 : Byte} {len n : Nat} (hn : payloadLength b0 len = some n) : 1 + n ≤ len := by
  by_cases h : b0 = 0
  · subst h
    have := payloadLength_zero hn
    omega
  · have := payloadLength_nonzero h hn
    omega

theorem sendPayload_next {n : Nat} {s t : State} (h : sendPayload n s = .next t) :
    (n = 0 ∧ t = s) ∨ (0 < n ∧ ∃ bs, readSmallSpan 1 n s = .ok bs ∧ t = emit (.radTx bs) s) := by
  unfold sendPayload at h
  split at h
  · next hn =>
    obtain ⟨bs, hb, ht⟩ := withValue_eq_next.1 h
    exact .inr ⟨hn, bs, hb, (Host.Outcome.next.inj ht).symm⟩
  · next hn => exact .inl ⟨by omega, (Host.Outcome.next.inj h).symm⟩

/-- Where the delivery of a checked frame goes on (R206 to R208). -/
theorem deliver_next {s t : State} (h : deliver s = .next t) :
    (∃ b0, readSmall 0 s = .ok b0 ∧ payloadLength b0 s.smallLen = none ∧ t = afterError (.frameTooShort s.smallLen) s) ∨
    (∃ b0, readSmall 0 s = .ok b0 ∧ payloadLength b0 s.smallLen = some 0 ∧ t = s) ∨
    (∃ b0 n bs, readSmall 0 s = .ok b0 ∧ payloadLength b0 s.smallLen = some n ∧ 0 < n ∧
      readSmallSpan 1 n s = .ok bs ∧ t = emit (.radTx bs) s) := by
  obtain ⟨b0, hb, h⟩ := withValue_eq_next.1 h
  cases hp : payloadLength b0 s.smallLen with
  | none =>
    rw [hp] at h
    exact .inl ⟨b0, hb, hp, raiseError_next h⟩
  | some n =>
    rw [hp] at h
    rcases sendPayload_next h with ⟨rfl, rfl⟩ | ⟨hn, bs, hr, rfl⟩
    · exact .inr (.inl ⟨b0, hb, hp, rfl⟩)
    · exact .inr (.inr ⟨b0, n, bs, hb, hp, hn, hr, rfl⟩)

/-- Where the CRC check goes on (R203). -/
theorem checkCrc_next {s t : State} (h : checkCrc s = .next t) :
    ∃ body hb lb, readSmallSpan 0 (s.smallLen - 2) s = .ok body ∧ readSmall (s.smallLen - 2) s = .ok hb ∧
      readSmall (s.smallLen - 1) s = .ok lb ∧
      ((crcOf s.table crcSeed body ≠ cat16 hb lb ∧
          t = afterError (.checksumMismatch (crcOf s.table crcSeed body)) s) ∨
        (crcOf s.table crcSeed body = cat16 hb lb ∧ deliver { s with crc := crcOf s.table crcSeed body } = .next t)) := by
  obtain ⟨body, hbody, h⟩ := withValue_eq_next.1 h
  obtain ⟨hb, hhb, h⟩ := withValue_eq_next.1 h
  obtain ⟨lb, hlb, h⟩ := withValue_eq_next.1 h
  refine ⟨body, hb, lb, hbody, hhb, hlb, ?_⟩
  split at h
  · next hne => exact .inl ⟨hne, raiseError_next h⟩
  · next heq => exact .inr ⟨not_not.1 heq, h⟩

/-- Where DATA_FLEX goes on (R202). -/
theorem execDataFlex_next {s t : State} (h : execDataFlex s = .next t) :
    (s.smallLen < 2 ∧ t = afterError (.frameTooShort s.smallLen) s) ∨ (2 ≤ s.smallLen ∧ checkCrc s = .next t) := by
  unfold execDataFlex at h
  split at h
  · next hl => exact .inl ⟨hl, raiseError_next h⟩
  · next hl => exact .inr ⟨by omega, h⟩

/-- Where DATA_NOFLAG goes on (R204). -/
theorem execDataNoflag_next {s t : State} (h : execDataNoflag s = .next t) :
    (s.smallLen < 2 ∧ t = afterError (.frameTooShort s.smallLen) s) ∨
    (2 ≤ s.smallLen ∧ ∃ b0, readSmall 0 s = .ok b0 ∧ t = afterError (.protocolFlagMissing b0) s) := by
  unfold execDataNoflag at h
  split at h
  · next hl => exact .inl ⟨hl, raiseError_next h⟩
  · next hl =>
    obtain ⟨b0, hb, h⟩ := withValue_eq_next.1 h
    exact .inr ⟨by omega, b0, hb, raiseError_next h⟩

/-- Where RESET goes on (R210). -/
theorem execReset_next {s t : State} (h : execReset s = .next t) :
    ((takeRadioReset s).1 = true ∧ t = emit (.radRst true) (takeRadioReset s).2) ∨
    ((takeRadioReset s).1 = false ∧
      t = afterDiag s.cfg.msgResetFail (flash 3 (emit (.radRst false) (takeRadioReset s).2))) := by
  simp only [execReset] at h
  cases hr : (takeRadioReset s).1 with
  | true =>
    rw [hr, if_pos rfl] at h
    exact .inl ⟨rfl, (Host.Outcome.next.inj h).symm⟩
  | false =>
    rw [hr, if_neg (by decide)] at h
    have := diag_next h
    simp only [emit_cfg, takeRadioReset_cfg, msg] at this
    exact .inr ⟨rfl, this⟩

/-- Where EMPTY_FRAME goes on (R216). -/
theorem emptyFrame_next {s t : State} (h : emptyFrame s = .next t) :
    (s.cfg.emptyFrameAction = .ignore ∧ t = s) ∨
    (s.cfg.emptyFrameAction = .report ∧ t = afterError (.frameTooShort 0) s) := by
  unfold emptyFrame at h
  split at h
  · next ha => exact .inl ⟨ha, (Host.Outcome.next.inj h).symm⟩
  · next ha => exact .inr ⟨ha, raiseError_next h⟩

/-- UNKNOWN is one report by the command code (R214). -/
theorem execUnknown_eq {c : BitVec 4} (h0 : c ≠ 0) (hF : c ≠ 0xF) (s : State) : execUnknown c s = reportUnknown c s := by
  revert h0 hF
  revert c
  have : ∀ n : Fin 16, (BitVec.ofFin n : BitVec 4) ≠ 0 → (BitVec.ofFin n : BitVec 4) ≠ 0xF →
      execUnknown (BitVec.ofFin n) s = reportUnknown (BitVec.ofFin n) s := by
    intro n
    fin_cases n <;> intro h0 hF <;> first | rfl | exact absurd rfl h0 | exact absurd rfl hF
  exact fun {c} => this c.toFin

/-- Where the choice of R200 goes on. -/
theorem dispatchCommand_next {b0 : Byte} {s t : State} (h : dispatchCommand b0 s = .next t) :
    (cmdOf b0 = 0 ∧ flexOf b0 = true ∧ execDataFlex s = .next t) ∨
    (cmdOf b0 = 0 ∧ flexOf b0 = false ∧ execDataNoflag s = .next t) ∨
    (cmdOf b0 = 0xF ∧ execReset s = .next t) ∨
    (cmdOf b0 ≠ 0 ∧ cmdOf b0 ≠ 0xF ∧ t = afterDiag (msgUnknown s.cfg (cmdOf b0)) s) := by
  unfold dispatchCommand at h
  split at h
  · next hc => exact .inl ⟨hc.1, hc.2, h⟩
  · next h1 =>
    split at h
    · next hc => exact .inr (.inl ⟨hc.1, hc.2, h⟩)
    · next h2 =>
      have h0 : cmdOf b0 ≠ 0 := fun h0 => by
        cases hf : flexOf b0
        · exact h2 ⟨h0, hf⟩
        · exact h1 ⟨h0, hf⟩
      split at h
      · next hc => exact .inr (.inr (.inl ⟨hc, h⟩))
      · next hF =>
        rw [execUnknown_eq h0 hF] at h
        exact .inr (.inr (.inr ⟨h0, hF, diag_next h⟩))

/-- Where DISPATCH goes on (R200). -/
theorem dispatch_next {s t : State} (h : dispatch s = .next t) :
    (s.smallLen = 0 ∧ emptyFrame s = .next t) ∨
    (s.smallLen ≠ 0 ∧ ∃ b0, readSmall 0 s = .ok b0 ∧ dispatchCommand b0 s = .next t) := by
  unfold dispatch at h
  split at h
  · next hl => exact .inl ⟨hl, h⟩
  · next hl =>
    obtain ⟨b0, hb, h⟩ := withValue_eq_next.1 h
    exact .inr ⟨hl, b0, hb, h⟩

/-- What a dispatch that goes on has done to the state. -/
inductive DispatchCase (s t : State) : Prop where
  | ignored (hl : s.smallLen = 0) (ht : t = s)
  | empty (c : Word) (ht : t = { s with crc := c })
  | sent (c : Word) (b0 : Byte) (n : Nat) (bs : List Byte) (hc : cmdOf b0 = 0 ∧ flexOf b0 = true) (hb : readSmall 0 s = .ok b0)
      (hn : payloadLength b0 s.smallLen = some n) (hp : 0 < n) (hr : readSmallSpan 1 n s = .ok bs)
      (hk : ∃ body h l, readSmallSpan 0 (s.smallLen - 2) s = .ok body ∧ readSmall (s.smallLen - 2) s = .ok h ∧
        readSmall (s.smallLen - 1) s = .ok l ∧ crcOf s.table crcSeed body = cat16 h l)
      (ht : t = emit (.radTx bs) { s with crc := c })
  | failed (k : ErrorKind) (hk : ErrorKind.listed k) (hf : frameFits (diagPayload s.cfg (msg s.cfg k)) s) (ht : t = afterError k s)
  | resetDone (hr : (takeRadioReset s).1 = true) (ht : t = emit (.radRst true) (takeRadioReset s).2)
  | resetFailed (hr : (takeRadioReset s).1 = false) (hf : frameFits (diagPayload s.cfg s.cfg.msgResetFail) s)
      (ht : t = afterDiag s.cfg.msgResetFail (flash 3 (emit (.radRst false) (takeRadioReset s).2)))
  | unknown (cmd : BitVec 4) (h0 : cmd ≠ 0) (hF : cmd ≠ 0xF) (hf : frameFits (diagPayload s.cfg (msgUnknown s.cfg cmd)) s)
      (ht : t = afterDiag (msgUnknown s.cfg cmd) s)

theorem DispatchCase.raised {k : ErrorKind} {s s' t : State} (h : raiseError k s' = .next t)
    (hs : afterError k s' = afterError k s)
    (hd : frameFits (diagPayload s'.cfg (msg s'.cfg k)) s' → frameFits (diagPayload s.cfg (msg s.cfg k)) s)
    (hk : ErrorKind.listed k) : DispatchCase s t :=
  .failed k hk (hd (raiseError_next_fits h)) ((raiseError_next h).trans hs)

/-- The delivery's cases (R206 to R208), after the check left `c` in `crc`. -/
theorem deliver_cases {s t : State} {c : Word} (h : deliver { s with crc := c } = .next t)
    (hb0 : ∀ b0, readSmall 0 s = .ok b0 → cmdOf b0 = 0 ∧ flexOf b0 = true)
    (hk : ∃ body h l, readSmallSpan 0 (s.smallLen - 2) s = .ok body ∧ readSmall (s.smallLen - 2) s = .ok h ∧
      readSmall (s.smallLen - 1) s = .ok l ∧ crcOf s.table crcSeed body = cat16 h l) : DispatchCase s t := by
  obtain ⟨b0, hb, h⟩ := withValue_eq_next.1 h
  have hb : readSmall 0 s = .ok b0 := hb
  change (match payloadLength b0 s.smallLen with
    | none => raiseError (.frameTooShort s.smallLen) { s with crc := c }
    | some n => sendPayload n { s with crc := c }) = .next t at h
  cases hp : payloadLength b0 s.smallLen with
  | none =>
    rw [hp] at h
    exact .raised h rfl id trivial
  | some n =>
    rw [hp] at h
    rcases sendPayload_next h with ⟨rfl, rfl⟩ | ⟨hn, bs, hr, rfl⟩
    · exact .empty c rfl
    · exact .sent c b0 n bs (hb0 b0 hb) hb hp hn hr hk rfl

/-- One inversion of DISPATCH (R200): every rule about dispatching follows from these cases. -/
theorem dispatch_cases {s t : State} (h : dispatch s = .next t) : DispatchCase s t := by
  rcases dispatch_next h with ⟨hl, h⟩ | ⟨-, b0, hb, h⟩
  · unfold emptyFrame at h
    split at h
    · exact .ignored hl (Host.Outcome.next.inj h).symm
    · exact .raised h rfl id trivial
  · unfold dispatchCommand at h
    split at h
    · next hc =>
      unfold execDataFlex at h
      split at h
      · exact .raised h rfl id trivial
      · obtain ⟨body, hbody, h⟩ := withValue_eq_next.1 h
        obtain ⟨hi, hhi, h⟩ := withValue_eq_next.1 h
        obtain ⟨lo, hlo, h⟩ := withValue_eq_next.1 h
        split at h
        · exact .raised h rfl id trivial
        · next heq =>
          refine deliver_cases h (fun b hb' => ?_) ⟨body, hi, lo, hbody, hhi, hlo, not_not.1 heq⟩
          rw [hb] at hb'
          cases hb'
          exact hc
    · next h1 =>
      split at h
      · unfold execDataNoflag at h
        split at h
        · exact .raised h rfl id trivial
        · obtain ⟨b, -, h⟩ := withValue_eq_next.1 h
          exact .raised h rfl id trivial
      · next h2 =>
        have h0 : cmdOf b0 ≠ 0 := fun h0 => by
          cases hf : flexOf b0
          · exact h2 ⟨h0, hf⟩
          · exact h1 ⟨h0, hf⟩
        split at h
        · simp only [execReset] at h
          cases hr : (takeRadioReset s).1 with
          | true =>
            rw [hr, if_pos rfl] at h
            exact .resetDone hr (Host.Outcome.next.inj h).symm
          | false =>
            rw [hr, if_neg (by decide)] at h
            have ht := diag_next h
            have hf := diag_next_fits h
            simp only [emit_cfg, takeRadioReset_cfg, msg] at ht hf
            exact .resetFailed hr (by simpa [frameFits] using hf) ht
        · next hF =>
          rw [execUnknown_eq h0 hF] at h
          exact .unknown (cmdOf b0) h0 hF (diag_next_fits h) (diag_next h)

end Sys2Proof.Machine
end

