-- ==== Sys2Proof/Laws/PerInstr.lean ====
section
/-! SUPPORT. One law of the encoding for every operation: the byte the encoder gives it is one its opcode-table row matches. -/

namespace Sys2Proof.Laws.TableRow

/-- An operation that has a byte pattern in spec/opcode_table.json, and that the encoder gives a byte, has a byte that agrees
with the pattern under the row's mask. -/
def Statement (i : Instr) : Prop :=
  ∀ (m v : Byte) (c : Code) (b : Byte), tableRow i = some (m, v) → encode i = some c → c.byteOf = some b → b &&& m = v

/-- The statement from the row and the byte of the operation. -/
theorem of_row {i : Instr} {m v b : Byte} {c : Code} (hr : tableRow i = some (m, v)) (he : encode i = some c)
    (hb : c.byteOf = some b) (h : b &&& m = v) : Statement i := by
  intro m' v' c' b' hr' he' hb'
  rw [hr] at hr'
  rw [he] at he'
  cases hr'
  cases he'
  rw [hb] at hb'
  cases hb'
  exact h

/-- An operation without a byte pattern. -/
theorem of_none {i : Instr} (hr : tableRow i = none) : Statement i := by
  intro m v c b hr'
  rw [hr] at hr'
  cases hr'

theorem dataFlex (port : BitVec 2) (b4 : BitVec 1) : Statement (.dataFlex port b4) := of_row rfl rfl rfl (by revert port b4; decide)

theorem dataNoflag (port : BitVec 2) (b4 : BitVec 1) : Statement (.dataNoflag port b4) := of_row rfl rfl rfl (by revert port b4; decide)

theorem reset (hi : BitVec 4) : Statement (.reset hi) := of_row rfl rfl rfl (by revert hi; decide)

theorem unknown1 (hi : BitVec 4) : Statement (.unknown1 hi) := of_row rfl rfl rfl (by revert hi; decide)

theorem unknown2 (hi : BitVec 4) : Statement (.unknown2 hi) := of_row rfl rfl rfl (by revert hi; decide)

theorem unknown3 (hi : BitVec 4) : Statement (.unknown3 hi) := of_row rfl rfl rfl (by revert hi; decide)

theorem unknown4 (hi : BitVec 4) : Statement (.unknown4 hi) := of_row rfl rfl rfl (by revert hi; decide)

theorem unknown5 (hi : BitVec 4) : Statement (.unknown5 hi) := of_row rfl rfl rfl (by revert hi; decide)

theorem unknown6 (hi : BitVec 4) : Statement (.unknown6 hi) := of_row rfl rfl rfl (by revert hi; decide)

theorem unknown7 (hi : BitVec 4) : Statement (.unknown7 hi) := of_row rfl rfl rfl (by revert hi; decide)

theorem unknown8 (hi : BitVec 4) : Statement (.unknown8 hi) := of_row rfl rfl rfl (by revert hi; decide)

theorem unknown9 (hi : BitVec 4) : Statement (.unknown9 hi) := of_row rfl rfl rfl (by revert hi; decide)

theorem unknownA (hi : BitVec 4) : Statement (.unknownA hi) := of_row rfl rfl rfl (by revert hi; decide)

theorem unknownB (hi : BitVec 4) : Statement (.unknownB hi) := of_row rfl rfl rfl (by revert hi; decide)

theorem unknownC (hi : BitVec 4) : Statement (.unknownC hi) := of_row rfl rfl rfl (by revert hi; decide)

theorem unknownD (hi : BitVec 4) : Statement (.unknownD hi) := of_row rfl rfl rfl (by revert hi; decide)

theorem unknownE (hi : BitVec 4) : Statement (.unknownE hi) := of_row rfl rfl rfl (by revert hi; decide)

theorem afdFend : Statement .afdFend := of_row rfl rfl rfl (by decide)

theorem afdSkip (b : Byte) : Statement (.afdSkip b) := of_row rfl rfl rfl (BitVec.and_zero)

theorem adFend : Statement .adFend := of_row rfl rfl rfl (by decide)

theorem adFesc : Statement .adFesc := of_row rfl rfl rfl (by decide)

theorem adData (b : Byte) : Statement (.adData b) := of_row rfl rfl rfl (BitVec.and_zero)

theorem escTfend : Statement .escTfend := of_row rfl rfl rfl (by decide)

theorem escTfesc : Statement .escTfesc := of_row rfl rfl rfl (by decide)

theorem escBad (b : Byte) : Statement (.escBad b) := of_row rfl rfl rfl (BitVec.and_zero)

theorem parseTimeout : Statement .parseTimeout := of_none rfl

theorem stuffFend : Statement .stuffFend := of_row rfl rfl rfl (by decide)

theorem stuffFesc : Statement .stuffFesc := of_row rfl rfl rfl (by decide)

theorem stuffLit (b : Byte) : Statement (.stuffLit b) := of_row rfl rfl rfl (BitVec.and_zero)

theorem crcUpdate (span : List Byte) : Statement (.crcUpdate span) := of_none rfl

theorem pollRadio : Statement .pollRadio := of_none rfl

theorem relay (p : Nat) : Statement (.relay p) := of_none rfl

theorem pollSerial : Statement .pollSerial := of_none rfl

theorem parseStart : Statement .parseStart := of_none rfl

theorem diag (text : Text) : Statement (.diag text) := of_none rfl

theorem dispatch : Statement .dispatch := of_none rfl

theorem emptyFrame : Statement .emptyFrame := of_none rfl

end Sys2Proof.Laws.TableRow
end

