-- ==== Sys2Proof/Laws/Step.lean ====
section
/-! SUPPORT. What a step can do, said once. -/

namespace Sys2Proof.Machine

theorem takeSerial_cons {s : State} {x : SerialInput} {rest : List SerialInput} (h : s.ports.serialReceive = x :: rest) :
    takeSerial s = (some x, { s with ports := { s.ports with serialReceive := rest, serialWait := none } }) := by
  simp [takeSerial, serialOffer, h]

/-- Where nothing is offered yet, nothing is taken, and the wait left is one step shorter than it was, or than the free number it
began with (R185). -/
theorem takeSerial_none {s : State} (h : (takeSerial s).1 = none) :
    ∃ n, s.ports.serialWait.getD (Config.freeSerialWait s.draws) = n + 1 ∧
      (takeSerial s).2 = { s with ports := { s.ports with serialWait := some n }, draws := s.draws + 1 } := by
  cases hr : s.ports.serialReceive with
  | cons x rest => rw [takeSerial_cons hr] at h; cases h
  | nil =>
    cases hf : Config.freeSerialOffer s.draws with
    | some x => simp [takeSerial, serialOffer, hr, hf] at h
    | none =>
      cases hw : s.ports.serialWait.getD (Config.freeSerialWait s.draws) with
      | zero => simp [takeSerial, serialOffer, hr, hf, hw] at h
      | succ n => exact ⟨n, rfl, by simp [takeSerial, serialOffer, hr, hf, hw]⟩

/-- The inputs a parser state decodes are those of a state that takes input (R69, R181). -/
theorem decodeParser_ok {st : PState} {x : SerialInput} {i : Instr} (h : decodeParser st x = .ok i) :
    PState.takesInput st = true := by
  cases st <;> cases x <;> first | rfl | cases h

theorem decodeParser_total {st : PState} (h : PState.takesInput st = true) (x : SerialInput) :
    ∃ i, decodeParser st x = .ok i := by
  cases st <;> cases x <;> first | exact ⟨_, rfl⟩ | cases h

/-- The choice of a step in a parse that takes input (R181). -/
theorem fetch_parse {s : State} (hp : s.phase = .parse) (hi : PState.takesInput s.pstate = true) :
    ((takeSerial s).1 = none ∧ fetch s = .wait (takeSerial s).2) ∨
    (∃ x i, (takeSerial s).1 = some x ∧ decodeParser s.pstate x = .ok i ∧ fetch s = .run i (takeSerial s).2) := by
  have hf : fetch s = fetch.fetchInput s.pstate s := by
    unfold fetch
    rw [hp]
    cases hs : s.pstate <;> first | rfl | (rw [hs] at hi; cases hi)
  rw [hf]
  unfold fetch.fetchInput
  cases ht : takeSerial s with
  | mk o s1 =>
    cases o with
    | none => exact .inl ⟨rfl, rfl⟩
    | some x =>
      obtain ⟨i, hd⟩ := decodeParser_total hi x
      exact .inr ⟨x, i, rfl, hd, by simp [hd]⟩

theorem settle_other {s t : State} (h : ¬ (s.phase = .parse ∧ s.pstate = .done)) : settle s t = redrawIndicators t := by
  simp only [settle, if_neg h]

theorem settle_done {s t : State} (hp : s.phase = .parse) (hd : s.pstate = .done) :
    settle s t = redrawIndicators { t with phase := .pollRadio } := by
  simp only [settle, hp, hd, and_self, if_true]

/-- What a step that goes on has done. -/
inductive StepCase (s t : State) : Prop where
  | radio (u : State) (hp : s.phase = .pollRadio) (he : execPollRadio s = .next u) (ht : t = redrawIndicators u)
  | serial (u : State) (hp : s.phase = .pollSerial) (he : execPollSerial s = .next u) (ht : t = redrawIndicators u)
  | dispatched (u : State) (hp : s.phase = .parse) (hd : s.pstate = .done) (he : dispatch s = .next u)
      (ht : t = redrawIndicators { u with phase := .pollRadio })
  | waited (hp : s.phase = .parse) (hi : PState.takesInput s.pstate = true) (hn : (takeSerial s).1 = none)
      (ht : t = redrawIndicators (takeSerial s).2)
  | input (x : SerialInput) (i : Instr) (u : State) (hp : s.phase = .parse) (hi : PState.takesInput s.pstate = true)
      (hx : (takeSerial s).1 = some x) (hd : decodeParser s.pstate x = .ok i) (he : exec i (takeSerial s).2 = .next u)
      (ht : t = redrawIndicators u)

/-- One inversion of `step`: every rule about all steps follows from these five cases. -/
theorem step_cases {s t : State} (h : step s = .next t) : validConfig s.cfg = true ∧ StepCase s t := by
  unfold step at h
  by_cases hv : validConfig s.cfg = true
  · refine ⟨hv, ?_⟩
    rw [if_pos hv] at h
    have fin : ∀ {i : Instr} {s1 u : State}, (match exec i s1 with
        | .next s2 => (.next (settle s s2) : Result)
        | .fault e => .fault e
        | .refused e => .refused e) = .next u → ∃ w, exec i s1 = .next w ∧ u = settle s w := by
      intro i s1 u hu
      split at hu
      · next w hw => exact ⟨w, hw, (Host.Outcome.next.inj hu).symm⟩
      · cases hu
      · cases hu
    cases hp : s.phase with
    | pollRadio =>
      simp only [fetch, hp] at h
      obtain ⟨w, hw, rfl⟩ := fin h
      exact .radio w hp hw (settle_other (by simp [hp]))
    | pollSerial =>
      simp only [fetch, hp] at h
      obtain ⟨w, hw, rfl⟩ := fin h
      exact .serial w hp hw (settle_other (by simp [hp]))
    | parse =>
      cases hi : PState.takesInput s.pstate with
      | true =>
        have hnd : ¬ (s.phase = .parse ∧ s.pstate = .done) := fun hd => by rw [hd.2] at hi; cases hi
        rcases fetch_parse hp hi with ⟨hn, hf⟩ | ⟨x, i, hx, hd, hf⟩
        · rw [hf] at h
          refine .waited hp hi hn ?_
          rw [← settle_other hnd]
          exact (Host.Outcome.next.inj h).symm
        · rw [hf] at h
          obtain ⟨w, hw, rfl⟩ := fin h
          exact .input x i w hp hi hx hd hw (settle_other hnd)
      | false =>
        cases hs : s.pstate with
        | done =>
          simp only [fetch, hp, hs] at h
          obtain ⟨w, hw, rfl⟩ := fin h
          exact .dispatched w hp hs hw (settle_done hp hs)
        | timeout => simp [fetch, hp, hs] at h
        | overflow => simp [fetch, hp, hs] at h
        | _ => rw [hs] at hi; cases hi
  · rw [if_neg hv] at h
    cases h

/-- A run from a step that goes on. -/
theorem run_succ {s t : State} (h : step s = .next t) (k : Nat) :
    Host.Core.run core (k + 1) s = Host.Core.run core k t := by
  have hc : core.step s = .next t := h
  simp only [Host.Core.run, hc]

/-! ### The operations a step runs -/

theorem execPollRadio_next {s t : State} (h : execPollRadio s = .next t) :
    ((takeRadioPeek s).1 = 0 ∧ t = { (takeRadioPeek s).2 with phase := .pollSerial }) ∨
    (0 < (takeRadioPeek s).1 ∧
      ∃ u, relay (takeRadioPeek s).1 (takeRadioPeek s).2 = .next u ∧ t = { u with phase := .pollSerial }) := by
  simp only [execPollRadio] at h
  by_cases h0 : 0 < (takeRadioPeek s).1
  · rw [if_pos h0] at h
    obtain ⟨u, hu, ht⟩ := andThen_eq_next.1 h
    exact .inr ⟨h0, u, hu, (Host.Outcome.next.inj ht).symm⟩
  · rw [if_neg h0] at h
    exact .inl ⟨by omega, (Host.Outcome.next.inj h).symm⟩

theorem execPollSerial_next {s t : State} (h : execPollSerial s = .next t) :
    (0 < (takeSerialPeek s).1 ∧ t = parseStart (takeSerialPeek s).2) ∨
    ((takeSerialPeek s).1 = 0 ∧ t = { (takeSerialPeek s).2 with phase := .pollRadio }) := by
  by_cases h0 : 0 < (takeSerialPeek s).1
  · simp only [execPollSerial, if_pos h0] at h
    exact .inl ⟨h0, (Host.Outcome.next.inj h).symm⟩
  · simp only [execPollSerial, if_neg h0] at h
    exact .inr ⟨by omega, (Host.Outcome.next.inj h).symm⟩

theorem execAdFend_next {s t : State} (h : execAdFend s = .next t) :
    ∃ u, dispatch { s with pstate := .done } = .next u ∧ t = { u with phase := .pollRadio } := by
  obtain ⟨u, hu, ht⟩ := andThen_eq_next.1 h
  exact ⟨u, hu, (Host.Outcome.next.inj ht).symm⟩

theorem execEscBad_next {b : Byte} {s t : State} (h : execEscBad b s = .next t) :
    t = toAwaitingData (afterError (.invalidEscapeSequence b) s) ∧
      frameFits (diagPayload s.cfg s.cfg.msgEscape) s := by
  obtain ⟨u, hu, ht⟩ := andThen_eq_next.1 h
  have hf := raiseError_next_fits hu
  rw [raiseError_next hu] at ht
  exact ⟨(Host.Outcome.next.inj ht).symm, hf⟩

/-- The operations an input can be in each parser state (R69, R184). -/
theorem decodeParser_cases {st : PState} {x : SerialInput} {i : Instr} (h : decodeParser st x = .ok i) :
    i = .parseTimeout ∨
    (st = .awaitingFirstDelimiter ∧ (i = .afdFend ∨ ∃ b, i = .afdSkip b)) ∨
    (st = .awaitingData ∧ (i = .adFend ∨ i = .adFesc ∨ ∃ b, i = .adData b)) ∨
    (st = .escaped ∧ (i = .escTfend ∨ i = .escTfesc ∨ ∃ b, i = .escBad b)) := by
  cases st <;> cases x <;> simp only [decodeParser, reduceCtorEq, Except.ok.injEq] at h <;> subst h <;>
    try exact .inl rfl
  · split
    · exact .inr (.inl ⟨rfl, .inl rfl⟩)
    · exact .inr (.inl ⟨rfl, .inr ⟨_, rfl⟩⟩)
  · split
    · exact .inr (.inr (.inl ⟨rfl, .inl rfl⟩))
    · split
      · exact .inr (.inr (.inl ⟨rfl, .inr (.inl rfl)⟩))
      · exact .inr (.inr (.inl ⟨rfl, .inr (.inr ⟨_, rfl⟩)⟩))
  · split
    · exact .inr (.inr (.inr ⟨rfl, .inl rfl⟩))
    · split
      · exact .inr (.inr (.inr ⟨rfl, .inr (.inl rfl)⟩))
      · exact .inr (.inr (.inr ⟨rfl, .inr (.inr ⟨_, rfl⟩)⟩))

/-- What one input of a parse that goes on has done to the state. -/
inductive InputCase (s t : State) : Prop where
  | timedOut (ht : t = { emit .timeout { s with pstate := .timeout } with phase := .pollRadio })
  | opened (hs : s.pstate = .awaitingFirstDelimiter) (ht : t = toAwaitingData s)
  | skipped (hs : s.pstate = .awaitingFirstDelimiter) (ht : t = s)
  | escaping (hs : s.pstate = .awaitingData) (ht : t = { s with pstate := .escaped })
  | closed (u : State) (hs : s.pstate = .awaitingData) (hu : dispatch { s with pstate := .done } = .next u)
      (ht : t = { u with phase := .pollRadio })
  | overflowed (hl : s.smallLen = s.cfg.smallCap)
      (ht : t = { afterError (.bufferOverflowDuringParse s.cfg.smallCap) s with pstate := .overflow, phase := .pollRadio })
      (hf : frameFits (diagPayload s.cfg s.cfg.msgOverflow) s)
  | stored (v : Byte) (hl : s.smallLen < s.cfg.smallCap)
      (ht : t = { s with small := Memory.write s.small s.smallLen v, smallLen := s.smallLen + 1, pstate := .awaitingData })
  | badEscape (b : Byte) (hs : s.pstate = .escaped) (ht : t = toAwaitingData (afterError (.invalidEscapeSequence b) s))
      (hf : frameFits (diagPayload s.cfg s.cfg.msgEscape) s)

theorem append_next_fits {v : Byte} {s t : State} {goOn : State → State} (h : append v s goOn = .next t)
    (hl : s.smallLen = s.cfg.smallCap) : frameFits (diagPayload s.cfg s.cfg.msgOverflow) s := by
  rw [append_full hl] at h
  obtain ⟨u, hu, _⟩ := andThen_eq_next.1 h
  exact raiseError_next_fits hu

/-- One inversion of a parse's input: every rule about parsing follows from these cases. -/
theorem input_cases {x : SerialInput} {i : Instr} {s t : State} (hd : decodeParser s.pstate x = .ok i)
    (h : exec i s = .next t) : InputCase s t := by
  have stores : ∀ {v : Byte} {goOn : State → State}, append v s goOn = .next t →
      (∀ u : State, u.pstate = s.pstate → goOn u = { u with pstate := .awaitingData }) → InputCase s t := by
    intro v goOn ha hg
    rcases append_next ha with ⟨hl, ht⟩ | ⟨hl, ht⟩
    · exact .overflowed hl ht (append_next_fits ha hl)
    · exact .stored v hl (ht.trans (hg _ rfl))
  rcases decodeParser_cases hd with rfl | ⟨hs, rfl | ⟨b, rfl⟩⟩ | ⟨hs, rfl | rfl | ⟨b, rfl⟩⟩ | ⟨hs, rfl | rfl | ⟨b, rfl⟩⟩
  · exact .timedOut (Host.Outcome.next.inj h).symm
  · exact .opened hs (Host.Outcome.next.inj h).symm
  · exact .skipped hs (Host.Outcome.next.inj h).symm
  · obtain ⟨u, hu, ht⟩ := execAdFend_next h
    exact .closed u hs hu ht
  · exact .escaping hs (Host.Outcome.next.inj h).symm
  · exact stores (v := b) (goOn := fun s' => s') h fun u hu => by rw [← hs, ← hu]
  · exact stores (v := fend) (goOn := toAwaitingData) h fun _ _ => rfl
  · exact stores (v := fesc) (goOn := toAwaitingData) h fun _ _ => rfl
  · obtain ⟨ht, hf⟩ := execEscBad_next h
    exact .badEscape b hs ht hf

end Sys2Proof.Machine
end

