-- ==== Sys2Proof/Tests/Slice0.lean ====
section
/-! SUPPORT. Tests: words decoded from the spec's encodings, ill-formed terms, one-step vectors of 95_test_vectors.md (each named
in its comment), and for every statement with hypotheses a witness that meets them all together. -/

namespace Sys2Proof.Tests

open Sys2Proof.Machine

set_option Elab.async false

/-! ### Helpers -/

/-- A state with these bytes in SMALL, in a parse that awaits data. -/
def holding (bs : List Byte) : State :=
  { State.reset with
    small := Memory.writeSpan [] 0 bs, smallLen := bs.length, phase := .parse, pstate := .awaitingData }

/-- The same, with the closing delimiter to come. -/
def closing (bs : List Byte) : State :=
  { holding bs with ports := { State.reset.ports with serialReceive := [.byte 0xC0] } }

/-- A parse in a parser state with these inputs to come. -/
def parsing (st : PState) (xs : List SerialInput) : State :=
  { State.reset with phase := .parse, pstate := st, ports := { State.reset.ports with serialReceive := xs } }

/-- A state whose radio will answer these bytes. -/
def radioHas (d : List Byte) : State := { State.reset with ports := { State.reset.ports with radioReceive := [d] } }

/-- A state whose radio will answer a reset like this. -/
def resetAnswer (ok : Bool) : State := { State.reset with ports := { State.reset.ports with radioReset := [ok] } }

/-- The polls' answers scripted. -/
def polled (p : Nat) (d : List Byte) (q : Nat) (ph : Phase) : State :=
  { State.reset with
    phase := ph, ports := { State.reset.ports with radioPeek := [p], radioReceive := [d], serialPeek := [q] } }

/-- The same state under a smaller BIG. -/
def withBig (n : Nat) (s : State) : State := { s with cfg := { s.cfg with bigCap := n } }

/-- The same state under the other choices of ERR_CLEAR and EMPTY_FRAME_ACTION. -/
def otherChoices (s : State) : State := { s with cfg := { s.cfg with errClear := .never, emptyFrameAction := .report } }

/-- Configuration B of 95_test_vectors.md. -/
def configB (d : List Byte) : State :=
  { radioHas d with cfg := { Config.testA with maxPayload := 32, smallCap := 32, bigCap := 60 } }

/-- Whether an outcome is a next state. -/
def goesOn : Result → Bool
  | .next _ => true
  | .fault _ => false
  | .refused _ => false

/-- A field of the next state. -/
def field {α : Type} (f : State → α) : Result → Option α
  | .next s => some (f s)
  | .fault _ => none
  | .refused _ => none

/-- What a next state's trace says. -/
def traceOf (r : Result) : Option (List Event) := field State.trace r

theorem exists_next {r : Result} (h : goesOn r = true) : ∃ t, r = .next t := by
  cases r with
  | next t => exact ⟨t, rfl⟩
  | fault e => cases h
  | refused e => cases h

/-- Where a next state's parser state is known, there is a next state with that parser state. -/
theorem exists_pstate_ne {r : Result} {v w : PState} (h : field State.pstate r = some v) (hw : v ≠ w) :
    ∃ t, r = .next t ∧ t.pstate ≠ w := by
  cases r with
  | next t => exact ⟨t, rfl, by rw [Option.some.inj h]; exact hw⟩
  | fault e => cases h
  | refused e => cases h

/-- Where an outcome's new events are just one event, there is a next state and the event is new in it. -/
theorem exists_event {r : Result} {s : State} {e : Event} (h : field (newEvents s) r = some [e]) :
    ∃ t, r = .next t ∧ e ∈ newEvents s t := by
  cases r with
  | next t => exact ⟨t, rfl, by rw [Option.some.inj h]; exact List.mem_singleton.2 rfl⟩
  | fault e => cases h
  | refused e => cases h

/-- `C0 20 00 x 14 03 F0`, the beginning of every diagnostic frame in configuration A (95_test_vectors.md 3.5). -/
def dgHead : List Byte := [0xC0, 0x20] ++ List.replicate 14 0x00 ++ [0x03, 0xF0]

/-! ### Decoding: one word an operation, its bits written out from R67, R69 and R70 -/

theorem test_decode_data_flex : decode (.command 0b11110000#8) = .ok (.dataFlex 3 1) := by decide
theorem test_decode_data_noflag : decode (.command 0b01000000#8) = .ok (.dataNoflag 1 0) := by decide
theorem test_decode_reset : decode (.command 0b00001111#8) = .ok (.reset 0x0) := by decide
theorem test_decode_unknown_1 : decode (.command 0b00010001#8) = .ok (.unknown1 0x1) := by decide
theorem test_decode_unknown_2 : decode (.command 0b00100010#8) = .ok (.unknown2 0x2) := by decide
theorem test_decode_unknown_3 : decode (.command 0b00000011#8) = .ok (.unknown3 0x0) := by decide
theorem test_decode_unknown_4 : decode (.command 0b10000100#8) = .ok (.unknown4 0x8) := by decide
theorem test_decode_unknown_5 : decode (.command 0b11110101#8) = .ok (.unknown5 0xF) := by decide
theorem test_decode_unknown_6 : decode (.command 0b00000110#8) = .ok (.unknown6 0x0) := by decide
theorem test_decode_unknown_7 : decode (.command 0b01100111#8) = .ok (.unknown7 0x6) := by decide
theorem test_decode_unknown_8 : decode (.command 0b00001000#8) = .ok (.unknown8 0x0) := by decide
theorem test_decode_unknown_9 : decode (.command 0b10111001#8) = .ok (.unknown9 0xB) := by decide
theorem test_decode_unknown_a : decode (.command 0b00101010#8) = .ok (.unknownA 0x2) := by decide
theorem test_decode_unknown_b : decode (.command 0b11011011#8) = .ok (.unknownB 0xD) := by decide
theorem test_decode_unknown_c : decode (.command 0b00001100#8) = .ok (.unknownC 0x0) := by decide
theorem test_decode_unknown_d : decode (.command 0b11011101#8) = .ok (.unknownD 0xD) := by decide
theorem test_decode_unknown_e : decode (.command 0b00001110#8) = .ok (.unknownE 0x0) := by decide
theorem test_decode_afd_fend : decode (.parser .awaitingFirstDelimiter (.byte 0b11000000#8)) = .ok .afdFend := by decide
theorem test_decode_afd_skip : decode (.parser .awaitingFirstDelimiter (.byte 0b11011011#8)) = .ok (.afdSkip 0xDB) := by decide
theorem test_decode_ad_fend : decode (.parser .awaitingData (.byte 0b11000000#8)) = .ok .adFend := by decide
theorem test_decode_ad_fesc : decode (.parser .awaitingData (.byte 0b11011011#8)) = .ok .adFesc := by decide
theorem test_decode_ad_data : decode (.parser .awaitingData (.byte 0b11011100#8)) = .ok (.adData 0xDC) := by decide
theorem test_decode_esc_tfend : decode (.parser .escaped (.byte 0b11011100#8)) = .ok .escTfend := by decide
theorem test_decode_esc_tfesc : decode (.parser .escaped (.byte 0b11011101#8)) = .ok .escTfesc := by decide
theorem test_decode_esc_bad : decode (.parser .escaped (.byte 0b11000000#8)) = .ok (.escBad 0xC0) := by decide
theorem test_decode_parse_timeout : decode (.parser .awaitingData .tick) = .ok .parseTimeout := by decide
theorem test_decode_stuff_fend : decode (.stuffer 0b11000000#8) = .ok .stuffFend := by decide
theorem test_decode_stuff_fesc : decode (.stuffer 0b11011011#8) = .ok .stuffFesc := by decide
theorem test_decode_stuff_lit : decode (.stuffer 0b11011100#8) = .ok (.stuffLit 0xDC) := by decide
/-- R181: nothing is read after a terminal state. -/
theorem test_decode_terminal :
    decode (.parser .timeout .tick) = .error (.terminalState .timeout) ∧
    decode (.parser .overflow (.byte 0x41)) = .error (.terminalState .overflow) ∧
    decode (.parser .done (.byte 0xC0)) = .error (.terminalState .done) := by decide
/-- The internal operations of R77 have no bit encoding. -/
theorem test_encode_internal :
    encode (.crcUpdate []) = none ∧ encode .pollRadio = none ∧ encode (.relay 1) = none ∧ encode .pollSerial = none ∧
    encode .parseStart = none ∧ encode (.diag []) = none ∧ encode .dispatch = none ∧ encode .emptyFrame = none := by decide

/-! ### Well-formedness: an ill-formed term for each check -/

theorem test_wf_afd_skip : (Instr.afdSkip 0xC0).wf = false ∧ (Instr.afdSkip 0xDB).wf = true := by decide
theorem test_wf_ad_data : (Instr.adData 0xC0).wf = false ∧ (Instr.adData 0xDB).wf = false ∧ (Instr.adData 0xDC).wf = true := by
  decide
theorem test_wf_esc_bad : (Instr.escBad 0xDC).wf = false ∧ (Instr.escBad 0xDD).wf = false ∧ (Instr.escBad 0xC0).wf = true := by
  decide
theorem test_wf_stuff_lit :
    (Instr.stuffLit 0xC0).wf = false ∧ (Instr.stuffLit 0xDB).wf = false ∧ (Instr.stuffLit 0xDC).wf = true := by decide
theorem test_wf_relay : (Instr.relay 0).wf = false ∧ (Instr.relay 1).wf = true := by decide
theorem test_wf_diag : (Instr.diag [0x41, 0x80]).wf = false ∧ (Instr.diag [0x41, 0x7F]).wf = true := by decide

/-! ### One-step vectors of 95_test_vectors.md -/

/-- CRC7 and CRC12. -/
theorem test_crc_spans :
    crcOf Config.defaultTable 0xFFFF [0x20, 0x48, 0x49] = 0xDAD9 ∧
    crcOf Config.defaultTable 0xFFFF [0x31, 0x32, 0x33, 0x34, 0x35, 0x36, 0x37, 0x38, 0x39] = 0x9FB5 := by decide +kernel
/-- The single steps under 3.1. -/
theorem test_crc_update :
    field State.crc (exec (.crcUpdate [0x20]) { State.reset with crc := 0xFFFF }) = some 0xDEFD ∧
    field State.crc (exec (.crcUpdate [0xAB]) { State.reset with crc := 0x1234 }) = some 0x13CD := by decide +kernel
/-- ST1. -/
theorem test_stuff_fend : field State.big (exec .stuffFend State.reset) = some [(0, 0xDB), (1, 0xDC)] := by decide +kernel
/-- ST2. -/
theorem test_stuff_fesc : field State.big (exec .stuffFesc State.reset) = some [(0, 0xDB), (1, 0xDD)] := by decide +kernel
/-- ST3. -/
theorem test_stuff_lit : field State.big (exec (.stuffLit 0xDC) State.reset) = some [(0, 0xDC)] := by decide +kernel
/-- PA1: noise before the first delimiter. -/
theorem test_afd_skip : field State.pstate (exec (.afdSkip 0xDB) (parsing .awaitingFirstDelimiter [])) = some .awaitingFirstDelimiter ∧
    field State.smallLen (exec (.afdSkip 0xDB) (parsing .awaitingFirstDelimiter [])) = some 0 := by decide +kernel
theorem test_afd_fend : field State.pstate (exec .afdFend (parsing .awaitingFirstDelimiter [])) = some .awaitingData := by
  decide +kernel
/-- PA2: TFEND is stored literally. -/
theorem test_ad_data : field State.small (exec (.adData 0xDC) (holding [0x20])) = some [(0, 0x20), (1, 0xDC)] := by decide +kernel
/-- PA9: the byte past SMALL_CAP. -/
theorem test_ad_data_overflow : traceOf (exec (.adData 0x11) (holding (List.replicate 8 0x11))) =
    some [.serTx (dgHead ++ [0x62, 0x75, 0x66, 0x66, 0x65, 0x72, 0x20, 0x6F, 0x76, 0x65, 0x72, 0x66, 0x6C, 0x6F, 0x77, 0xB4, 0x4C, 0xC0]),
      .err true] := by decide +kernel
/-- PA3. -/
theorem test_ad_fesc : field State.pstate (exec .adFesc (holding [0x20])) = some .escaped := by decide +kernel
/-- PA3. -/
theorem test_esc_tfend : field State.small (exec .escTfend (holding [0x20])) = some [(0, 0x20), (1, 0xC0)] := by decide +kernel
/-- PA10: an escaped byte past SMALL_CAP. -/
theorem test_esc_tfend_overflow : field State.pstate (exec .escTfend (holding (List.replicate 8 0x11))) = some .overflow := by
  decide +kernel
/-- PA4. -/
theorem test_esc_tfesc : field State.small (exec .escTfesc (holding [0x20])) = some [(0, 0x20), (1, 0xDB)] := by decide +kernel
/-- PA11: on a full SMALL an invalid escape reports, stores nothing and does not overflow. -/
theorem test_esc_bad : field State.smallLen (exec (.escBad 0x41) (holding (List.replicate 8 0x11))) = some 8 ∧
    field State.pstate (exec (.escBad 0x41) (holding (List.replicate 8 0x11))) = some .awaitingData := by decide +kernel
/-- PA5. -/
theorem test_esc_bad_report : traceOf (exec (.escBad 0x41) (holding [0x20])) =
    some [.serTx (dgHead ++ [0x65, 0x73, 0x63, 0x61, 0x70, 0x65, 0x20, 0x65, 0x72, 0x72, 0x6F, 0x72, 0xF6, 0x83, 0xC0]), .err true] := by
  decide +kernel
/-- PA13. -/
theorem test_parse_timeout : traceOf (exec .parseTimeout (holding [0x20, 0x48])) = some [.timeout] ∧
    field State.pstate (exec .parseTimeout (holding [0x20, 0x48])) = some .timeout ∧
    field State.phase (exec .parseTimeout (holding [0x20, 0x48])) = some .pollRadio := by decide +kernel
theorem test_parse_start : traceOf (exec .parseStart (holding [0x20])) = some [.err false] ∧
    field State.smallLen (exec .parseStart (holding [0x20])) = some 0 := by decide +kernel
/-- REL3: every special byte in the payload. -/
theorem test_relay : traceOf (exec (.relay 4) (radioHas [0xC0, 0xDB, 0xDC, 0xDD])) =
    some [.err false, .radRx 4 [0xC0, 0xDB, 0xDC, 0xDD],
      .serTx [0xC0, 0x20, 0xDB, 0xDC, 0xDB, 0xDD, 0xDC, 0xDD, 0x99, 0x00, 0xC0]] := by decide +kernel
/-- REL10: one byte over SMALL_CAP; E3. -/
theorem test_relay_large : traceOf (exec (.relay 9) (radioHas [0x48])) =
    some [.err false, .serTx (dgHead ++ [0x70, 0x61, 0x63, 0x6B, 0x65, 0x74, 0x20, 0x73, 0x69, 0x7A, 0x65, 0x86, 0xF3, 0xC0]),
      .err true] := by decide +kernel
/-- The row `packet size` of 3.5. -/
theorem test_diag : traceOf (exec (.diag Config.defaultPacketSize) State.reset) =
    some [.serTx (dgHead ++ [0x70, 0x61, 0x63, 0x6B, 0x65, 0x74, 0x20, 0x73, 0x69, 0x7A, 0x65, 0x86, 0xF3, 0xC0])] := by decide +kernel
/-- The row of the empty text of 3.5. -/
theorem test_diag_empty : traceOf (exec (.diag []) State.reset) = some [.serTx (dgHead ++ [0x19, 0xA9, 0xC0])] := by decide +kernel
/-- DI1. -/
theorem test_ad_fend : traceOf (exec .adFend (holding [0x20, 0x48, 0x49, 0xDA, 0xD9])) = some [.radTx [0x48, 0x49]] ∧
    field State.phase (exec .adFend (holding [0x20, 0x48, 0x49, 0xDA, 0xD9])) = some .pollRadio := by decide +kernel
/-- DI3 and DI9. -/
theorem test_data_flex : traceOf (exec (.dataFlex 3 1) (holding [0xF0, 0x01, 0xE2, 0x46])) = some [.radTx [0x01]] ∧
    traceOf (exec (.dataFlex 0 0) (holding [0x20, 0xDE, 0xFD])) = some [] := by decide +kernel
/-- DI5: a corrupted CRC low byte. -/
theorem test_data_flex_bad_crc : field State.errInd (exec (.dataFlex 0 0) (holding [0x20, 0x48, 0x49, 0xDA, 0xD8])) = some true ∧
    field State.bigLen (exec (.dataFlex 0 0) (holding [0x20, 0x48, 0x49, 0xDA, 0xD8])) = some 30 := by decide +kernel
/-- DI11: the correct CRC does not save a frame without the flag. -/
theorem test_data_noflag : traceOf (exec (.dataNoflag 0 0) (holding [0x00, 0x48, 0x49, 0x43, 0x48])) =
    some [.serTx (dgHead ++ [0x70, 0x72, 0x6F, 0x74, 0x6F, 0x63, 0x6F, 0x6C, 0x20, 0x65, 0x72, 0x72, 0x6F, 0x72, 0x8A, 0xC9, 0xC0]),
      .err true] := by decide +kernel
/-- DI12. -/
theorem test_data_noflag_short : field State.bigLen (exec (.dataNoflag 0 0) (holding [0x00])) = some 36 := by decide +kernel
/-- DI16. -/
theorem test_reset : traceOf (exec (.reset 0) (resetAnswer true)) = some [.radRst true] := by decide +kernel
/-- DI17. -/
theorem test_reset_fails : traceOf (exec (.reset 0) (resetAnswer false)) =
    some [.radRst false, .err true, .err false, .err true, .err false, .err true, .err false,
      .serTx (dgHead ++ [0x72, 0x65, 0x73, 0x65, 0x74, 0x20, 0x66, 0x61, 0x69, 0x6C, 0x65, 0x64, 0xAE, 0x12, 0xC0])] := by decide +kernel
/-- The rows `unknown frame type 0x01` to `0x07` of 3.5: the CRC of each report, left in `crc`. -/
theorem test_unknown_low :
    [exec (.unknown1 0) State.reset, exec (.unknown2 0) State.reset, exec (.unknown3 0) State.reset, exec (.unknown4 0) State.reset,
      exec (.unknown5 0) State.reset, exec (.unknown6 0) State.reset, exec (.unknown7 0) State.reset].map (field State.crc) =
    [some 0xE554, some 0xD7CF, some 0xC646, some 0xB2F9, some 0xA370, some 0x91EB, some 0x8062] := by decide +kernel
/-- The rows `unknown frame type 0x08` to `0x0e` of 3.5. -/
theorem test_unknown_high :
    [exec (.unknown8 0) State.reset, exec (.unknown9 0) State.reset, exec (.unknownA 0) State.reset, exec (.unknownB 0) State.reset,
      exec (.unknownC 0) State.reset, exec (.unknownD 0) State.reset, exec (.unknownE 0) State.reset].map (field State.crc) =
    [some 0x7895, some 0x691C, some 0xB7D1, some 0x854A, some 0x94C3, some 0xE07C, some 0xF1F5] := by decide +kernel
/-- DI22: bit 5 has no effect on a command that is not 0. -/
theorem test_dispatch_unknown : field State.crc (exec .dispatch (holding [0x2A])) = some 0xB7D1 ∧
    field State.errInd (exec .dispatch (holding [0x2A])) = some false := by decide +kernel
/-- DI20: further bytes of an unknown command are ignored. -/
theorem test_dispatch_extra : field State.crc (exec .dispatch (holding [0x06, 0x41])) = some 0x91EB := by decide +kernel
/-- DI23 and DI24. -/
theorem test_empty_frame : traceOf (exec .emptyFrame State.reset) = some [] ∧
    field State.bigLen (exec .emptyFrame (otherChoices State.reset)) = some 36 ∧
    field State.errInd (exec .emptyFrame (otherChoices State.reset)) = some true := by decide +kernel
/-- SQ1 and P1: the radio's part of an iteration. -/
theorem test_poll_radio : traceOf (exec .pollRadio (polled 0 [] 0 .pollRadio)) = some [] ∧
    traceOf (exec .pollRadio (polled 2 [0x48, 0x49] 0 .pollRadio)) =
      some [.err false, .radRx 2 [0x48, 0x49], .serTx [0xC0, 0x20, 0x48, 0x49, 0xDA, 0xD9, 0xC0]] := by decide +kernel
/-- SQ1, and R233 with a byte ready. -/
theorem test_poll_serial : field State.phase (exec .pollSerial (polled 0 [] 0 .pollSerial)) = some .pollRadio ∧
    field State.phase (exec .pollSerial (polled 0 [] 1 .pollSerial)) = some .parse := by decide +kernel
/-- REL12: a relay build that does not fit BIG in configuration B. -/
theorem test_relay_overflow : traceOf (exec (.relay 32) (configB (List.replicate 32 0xC0))) =
    some [.err false, .radRx 32 (List.replicate 32 0xC0),
      .serTx (dgHead ++ [0x70, 0x61, 0x63, 0x6B, 0x65, 0x74, 0x20, 0x73, 0x69, 0x7A, 0x65, 0x86, 0xF3, 0xC0]), .err true] := by
  decide +kernel
/-- A step of a parse takes its input and runs it (PA2). -/
theorem test_step_input : field State.small (step (parsing .awaitingData [.byte 0xDD])) = some [(0, 0xDD)] := by decide +kernel
/-- A placed table word is the operation the next step runs (R67: 0x0E is UNKNOWN_E). -/
theorem test_placed_word : decodeTableWord 8 0x0E = some (.unknownE 0) ∧
    field State.crc (step (State.reset.withFetchWord 8 0x0E)) = some 0xF1F5 := by decide +kernel
/-- R16: the pin shows the latch where it is present. -/
theorem test_err_pin : ({ State.reset with errInd := true }).errPin = some true := by decide +kernel

/-! ### Witnesses: a concrete state and operands that meet every hypothesis of a statement, each clause at a boundary -/

theorem witness_DecodeOfEncodeIsIdentity :
    (Instr.adData 0xDC).wf = true ∧ encode (.adData 0xDC) = some (.parser .awaitingData (.byte 0xDC)) := by decide

theorem witness_EncodeOfDecodeIsIdentity :
    decode (.command 0xFF) = .ok (.reset 0xF) ∧ (∀ st, Code.command 0xFF ≠ .parser st .tick) ∧
    decode (.parser .escaped .tick) = .ok .parseTimeout ∧ ∃ st, Code.parser .escaped .tick = .parser st .tick :=
  ⟨by decide, (fun _ h => by cases h), by decide, ⟨.escaped, rfl⟩⟩

theorem witness_CommandRowsPartitionAllBytes :
    encode (.dataFlex 3 1) = some (.command 0xF0) ∧ tableRow (.dataFlex 3 1) = some (0x2F, 0x20) ∧
    (0x20 : Byte) &&& 0x2F = 0x20 := by decide

/-- The escape byte is the last but one of the stuffed content. -/
theorem witness_StuffedContentFraming : stuffed [0x41, 0xC0] = [0x41] ++ (0xDB : Byte) :: [0xDC] := by decide

/-- Room for exactly two bytes. -/
theorem witness_StufferFunction :
    (0xDC : Byte) ≠ 0xC0 ∧ (0xDC : Byte) ≠ 0xDB ∧
    ({ State.reset with bigLen := 94 }).bigLen + (stuff 0xC0).length ≤ State.reset.cfg.bigCap := by decide +kernel

/-- Room for exactly the bytes of each operation. -/
theorem witness_StuffOperationsAppend :
    ({ State.reset with bigLen := 94 }).bigLen + 2 ≤ State.reset.cfg.bigCap ∧
    ({ State.reset with bigLen := 95 }).bigLen + 1 ≤ State.reset.cfg.bigCap := by decide +kernel

/-- BIG full, and BIG with one byte left. -/
theorem witness_StuffOperationsOverflow :
    (frameFits (diagPayload Config.testA Config.testA.msgPacketSize) { State.reset with bigLen := 96 } ∧
      ({ State.reset with bigLen := 96 }).bigLen = State.reset.cfg.bigCap) ∧
    (frameFits (diagPayload Config.testA Config.testA.msgPacketSize) { State.reset with bigLen := 95 } ∧
      ({ State.reset with bigLen := 95 }).bigLen + 1 = State.reset.cfg.bigCap) := by decide +kernel

/-- The largest accepted count, answered in full, in a BIG that the frame (REL5, 13 bytes with its stuffed CRC byte) just fits. -/
theorem witness_RelaySendsTheFrame :
    8 ≤ 2 * (withBig 14 (radioHas (List.replicate 8 0x55))).cfg.maxPayload ∧
    8 ≤ (withBig 14 (radioHas (List.replicate 8 0x55))).cfg.smallCap ∧
    radioKeepsContract (withBig 14 (radioHas (List.replicate 8 0x55))) 8 = true ∧
    frameFits (takeRadioReceive 8 (unitStartClear (withBig 14 (radioHas (List.replicate 8 0x55))))).1
      (withBig 14 (radioHas (List.replicate 8 0x55))) := by decide +kernel

/-- One above each bound. -/
theorem witness_RelayRejectsLargeCount :
    (State.reset.cfg.smallCap < 9 ∧ 2 * State.reset.cfg.maxPayload < 17) ∧
    frameFits (diagPayload State.reset.cfg State.reset.cfg.msgPacketSize) State.reset := by decide +kernel

/-- REL12. -/
theorem witness_RelayOverflowReports :
    32 ≤ 2 * (configB (List.replicate 32 0xC0)).cfg.maxPayload ∧ 32 ≤ (configB (List.replicate 32 0xC0)).cfg.smallCap ∧
    radioKeepsContract (configB (List.replicate 32 0xC0)) 32 = true ∧
    ¬ frameFits (takeRadioReceive 32 (unitStartClear (configB (List.replicate 32 0xC0)))).1 (configB (List.replicate 32 0xC0)) ∧
    frameFits (diagPayload (configB (List.replicate 32 0xC0)).cfg (configB (List.replicate 32 0xC0)).cfg.msgPacketSize)
      (configB (List.replicate 32 0xC0)) := by decide +kernel

/-- One byte more than asked for. -/
theorem witness_RelayRefusesLongAnswer :
    2 ≤ 2 * (radioHas [1, 2, 3]).cfg.maxPayload ∧ 2 ≤ (radioHas [1, 2, 3]).cfg.smallCap ∧
    radioKeepsContract (radioHas [1, 2, 3]) 2 = false := by decide +kernel

/-- The 21-byte frame of the empty text in a BIG of 21 and of 20 bytes. -/
theorem witness_DiagSendsTheFrame :
    frameFits ((withBig 21 State.reset).cfg.diagAddr.toList ++ [0x03, 0xF0] ++ []) (withBig 21 State.reset) ∧
    ¬ frameFits ((withBig 20 State.reset).cfg.diagAddr.toList ++ [0x03, 0xF0] ++ []) (withBig 20 State.reset) := by decide +kernel

/-- The first and the last of the six kinds, each in a BIG that its report just fits. -/
theorem witness_ErrorProcedureOrder :
    (errorCode (.oversizedOutboundPacket 9) ≤ 6 ∧
      frameFits (diagPayload State.reset.cfg (msg State.reset.cfg (.oversizedOutboundPacket 9))) (withBig 32 State.reset)) ∧
    (errorCode (.frameTooShort 1) ≤ 6 ∧
      frameFits (diagPayload State.reset.cfg (msg State.reset.cfg (.frameTooShort 1))) (withBig 36 State.reset)) := by decide +kernel

/-- One byte of room, and the first byte. -/
theorem witness_ParserStoresBytes :
    (holding (List.replicate 7 0x11)).smallLen < (holding (List.replicate 7 0x11)).cfg.smallCap ∧
    (holding []).smallLen < (holding []).cfg.smallCap := by decide +kernel

theorem witness_ParserOverflowEndsParse :
    (holding (List.replicate 8 0x11)).smallLen = (holding (List.replicate 8 0x11)).cfg.smallCap ∧
    frameFits (diagPayload State.reset.cfg State.reset.cfg.msgOverflow) (withBig 36 (holding (List.replicate 8 0x11))) := by
  decide +kernel

theorem witness_InvalidEscapeGoesOn :
    frameFits (diagPayload State.reset.cfg State.reset.cfg.msgEscape) (withBig 33 (holding [0x20])) := by decide +kernel

theorem witness_ClosingDelimiterDispatches : ∃ t, exec .dispatch { holding [0x2A] with pstate := .done } = .next t :=
  exists_next (by decide +kernel)

/-- DI10: the shortest frame that is sent. -/
theorem witness_ClosingDelimiterDelivers :
    smallBytes (holding [0x20, 0x41, 0x9E, 0xF9]) = some ((0x20 : Byte) :: [0x41] ++
      [hi8 (crcOf (holding [0x20, 0x41, 0x9E, 0xF9]).table 0xFFFF ((0x20 : Byte) :: [0x41])),
       lo8 (crcOf (holding [0x20, 0x41, 0x9E, 0xF9]).table 0xFFFF ((0x20 : Byte) :: [0x41]))]) ∧
    (0x20 : Byte) &&& 0x2F = 0x20 ∧ [(0x41 : Byte)] ≠ [] := by decide +kernel

/-- The reset configuration meets the boot constraints (R282). -/
theorem reset_valid : validConfig Config.testA = true := by decide +kernel

theorem parsing_inv {st : PState} (xs : List SerialInput) (h : PState.takesInput st = true) : State.Inv (parsing st xs) :=
  ⟨Memory.Holds.nil _, Memory.Holds.nil _, rfl, fun _ => h⟩

theorem witness_EscapedDelimiterDoesNotEndFrame :
    validConfig (parsing .awaitingData [.byte 0xDB, .byte 0xC0]).cfg = true ∧
    (parsing .awaitingData [.byte 0xDB, .byte 0xC0]).table = (parsing .awaitingData [.byte 0xDB, .byte 0xC0]).cfg.flexTable ∧
    (parsing .awaitingData [.byte 0xDB, .byte 0xC0]).phase = .parse ∧
    (parsing .awaitingData [.byte 0xDB, .byte 0xC0]).pstate = .awaitingData ∧
    (parsing .awaitingData [.byte 0xDB, .byte 0xC0]).ports.serialReceive = .byte 0xDB :: .byte 0xC0 :: [] :=
  ⟨reset_valid, rfl, rfl, rfl, rfl⟩

/-- The inputs of E2, a content of eight bytes, exactly SMALL_CAP, and the empty content. -/
theorem witness_StuffedFrameRoundTrip (c : List Byte) (h : c ∈ [[], [0x20, 0xC0, 0xDB, 0xDC, 0xDD, 0x41, 0x42, 0x43]]) :
    validConfig State.reset.cfg = true ∧
    State.Inv (parsing .awaitingFirstDelimiter ((0xC0 :: stuffed c ++ [0xC0]).map SerialInput.byte)) ∧
    (parsing .awaitingFirstDelimiter ((0xC0 :: stuffed c ++ [0xC0]).map SerialInput.byte)).smallLen = 0 ∧
    c.length ≤ State.reset.cfg.smallCap ∧
    (parsing .awaitingFirstDelimiter ((0xC0 :: stuffed c ++ [0xC0]).map SerialInput.byte)).ports.serialReceive =
      (0xC0 :: stuffed c ++ [0xC0]).map SerialInput.byte ++ [] := by
  refine ⟨reset_valid, parsing_inv _ rfl, rfl, ?_, (List.append_nil _).symm⟩
  revert c
  decide +kernel

theorem witness_DispatchRunsDecodedCommand :
    readSmall 0 (holding [0xFF]) = .ok 0xFF := by decide +kernel

theorem witness_EmptyFrameResult :
    State.reset.smallLen = 0 ∧ State.reset.cfg.emptyFrameAction = .ignore ∧
    (otherChoices State.reset).cfg.emptyFrameAction = .report ∧
    frameFits (diagPayload State.reset.cfg State.reset.cfg.msgShort) (withBig 36 (otherChoices State.reset)) := by decide +kernel

/-- DI10, DI9, and a frame whose first byte is 0, with its CRC (E6'). -/
theorem witness_DataFlexDelivers :
    smallBytes (holding [0x20, 0x41, 0x9E, 0xF9]) =
      some ((0x20 : Byte) :: [0x41] ++ [hi8 (crcOf Config.defaultTable 0xFFFF [0x20, 0x41]), lo8 (crcOf Config.defaultTable 0xFFFF [0x20, 0x41])]) ∧
    smallBytes (holding [0x20, 0xDE, 0xFD]) =
      some ((0x20 : Byte) :: [] ++ [hi8 (crcOf Config.defaultTable 0xFFFF [0x20]), lo8 (crcOf Config.defaultTable 0xFFFF [0x20])]) ∧
    smallBytes (holding [0x00, 0x48, 0x49, 0x43, 0x48]) =
      some ((0x00 : Byte) :: [0x48, 0x49] ++
        [hi8 (crcOf Config.defaultTable 0xFFFF [0x00, 0x48, 0x49]), lo8 (crcOf Config.defaultTable 0xFFFF [0x00, 0x48, 0x49])]) := by
  decide +kernel

/-- DI5; DI8, a frame of two bytes; and the one two-byte frame whose CRC matches. -/
theorem witness_DataFlexReportsErrors :
    (smallBytes (holding [0x20, 0x48, 0x49, 0xDA, 0xD8]) = some ([0x20, 0x48, 0x49] ++ [0xDA, 0xD8]) ∧
      crcOf (holding [0x20, 0x48, 0x49, 0xDA, 0xD8]).table 0xFFFF [0x20, 0x48, 0x49] ≠ cat16 0xDA 0xD8) ∧
    (smallBytes (holding [0x20, 0xFF]) = some ([] ++ [0x20, 0xFF]) ∧
      crcOf (holding [0x20, 0xFF]).table 0xFFFF [] ≠ cat16 0x20 0xFF) ∧
    frameFits (diagPayload State.reset.cfg State.reset.cfg.msgCrc) (withBig 30 (holding [0x20, 0xFF])) ∧
    smallBytes (holding [0xFF, 0xFF]) = some [0xFF, 0xFF] ∧
    frameFits (diagPayload State.reset.cfg State.reset.cfg.msgShort) (withBig 36 (holding [0xFF, 0xFF])) := by decide +kernel

/-- One byte, of each data command, and the empty frame. -/
theorem witness_DataFramesNeedTwoBytes :
    frameFits (diagPayload State.reset.cfg State.reset.cfg.msgShort) (withBig 36 (holding [0x20])) ∧
    (holding [0x20]).smallLen < 2 ∧ (holding []).smallLen < 2 ∧
    smallBytes (holding [0x20]) = some [0x20] ∧ (0x20 : Byte) &&& 0x0F = 0x00 ∧
    smallBytes (holding [0xD0]) = some [0xD0] ∧ (0xD0 : Byte) &&& 0x0F = 0x00 := by decide +kernel

/-- One byte, and exactly two. -/
theorem witness_DataNoflagAlwaysReports :
    ((holding [0x00]).smallLen < 2 ∧ frameFits (diagPayload State.reset.cfg State.reset.cfg.msgShort) (withBig 36 (holding [0x00]))) ∧
    2 ≤ (holding [0x00, 0x00]).smallLen ∧ readSmall 0 (holding [0x00, 0x00]) = .ok 0x00 ∧
    frameFits (diagPayload State.reset.cfg State.reset.cfg.msgProtocol) (withBig 35 (holding [0x00, 0x00])) ∧
    (holding [0xD0]).smallLen = 1 ∧ readSmall 0 (holding [0xD0]) = .ok 0xD0 ∧ (0xD0 : Byte) &&& 0x2F = 0x00 := by decide +kernel

theorem witness_DataNoflagAlwaysReports_dispatch :
    (∃ t, exec .dispatch (holding [0xD0]) = .next t) ∧ ∃ t, exec .dispatch (holding [0x00, 0x00]) = .next t :=
  ⟨exists_next (by decide +kernel), exists_next (by decide +kernel)⟩

theorem witness_ResetResult :
    (takeRadioReset (resetAnswer true)).1 = true ∧ (takeRadioReset (resetAnswer false)).1 = false ∧
    frameFits (diagPayload State.reset.cfg State.reset.cfg.msgResetFail) (withBig 33 (resetAnswer false)) := by decide +kernel

theorem witness_UnknownCommandsReport :
    ∀ c : Fin 14, frameFits (diagPayload State.reset.cfg (State.reset.cfg.msgUnknown.get c)) (withBig 44 State.reset) := by
  decide +kernel

/-- DI10, as a dispatch by itself and as the step that takes the closing delimiter. -/
theorem witness_OnlyGoodFramesReachTheRadio :
    (∃ t, exec .dispatch (holding [0x20, 0x41, 0x9E, 0xF9]) = .next t ∧
      Event.radTx [0x41] ∈ newEvents (holding [0x20, 0x41, 0x9E, 0xF9]) t) ∧
    ∃ t, step (closing [0x20, 0x41, 0x9E, 0xF9]) = .next t ∧
      Event.radTx [0x41] ∈ newEvents (closing [0x20, 0x41, 0x9E, 0xF9]) t :=
  ⟨exists_event (by decide +kernel), exists_event (by decide +kernel)⟩

theorem witness_DispatchWritesNoFrameByte :
    (∃ t, exec .dispatch (holding [0x01]) = .next t) ∧ (∃ t, exec .emptyFrame State.reset = .next t) ∧
    (∃ t, exec .adFend (holding [0x01]) = .next t) ∧ ∃ t, exec (decodeCommand 0x20) (holding [0x20]) = .next t :=
  ⟨exists_next (by decide +kernel), exists_next (by decide +kernel), exists_next (by decide +kernel), exists_next (by decide +kernel)⟩

/-- No byte; one byte; and the largest count answered in full. -/
theorem witness_PollRadioResult :
    (takeRadioPeek (polled 0 [] 0 .pollRadio)).1 = 0 ∧
    (0 < (takeRadioPeek (polled 1 [0x25] 0 .pollRadio)).1 ∧
      ∃ t, exec (.relay 1) (takeRadioPeek (polled 1 [0x25] 0 .pollRadio)).2 = .next t) ∧
    (polled 8 (List.replicate 8 0x55) 0 .pollRadio).ports.radioReceive = List.replicate 8 0x55 :: [] ∧
    (takeRadioPeek (polled 8 (List.replicate 8 0x55) 0 .pollRadio)).1 = 8 ∧
    8 ≤ 2 * State.reset.cfg.maxPayload ∧ 8 ≤ State.reset.cfg.smallCap ∧ (List.replicate 8 (0x55 : Byte)).length ≤ 8 ∧
    frameFits (List.replicate 8 0x55) (polled 8 (List.replicate 8 0x55) 0 .pollRadio) :=
  ⟨by decide +kernel, ⟨by decide +kernel, exists_next (by decide +kernel)⟩, rfl, by decide +kernel, by decide +kernel,
    by decide +kernel, by decide, by decide +kernel⟩

theorem witness_PollSerialResult :
    (takeSerialPeek (polled 0 [] 0 .pollSerial)).1 = 0 ∧ 0 < (takeSerialPeek (polled 0 [] 1 .pollSerial)).1 := by decide +kernel

theorem witness_StepRunsDecodedInput :
    validConfig (parsing .escaped [.tick]).cfg = true ∧ (parsing .escaped [.tick]).phase = .parse ∧
    (parsing .escaped [.tick]).ports.serialReceive = .tick :: [] ∧
    decode (.parser (parsing .escaped [.tick]).pstate .tick) = .ok .parseTimeout :=
  ⟨reset_valid, rfl, rfl, rfl⟩

theorem witness_StepElsewhere :
    validConfig State.reset.cfg = true ∧
    (∃ t, exec .pollRadio (polled 0 [] 0 .pollRadio) = .next t) ∧
    (∃ t, exec .pollSerial (polled 0 [] 1 .pollSerial) = .next t) ∧
    (readSmall 0 { holding [0x0E] with pstate := .done } = .ok 0x0E ∧
      ∃ t, exec (decodeCommand 0x0E) { holding [0x0E] with pstate := .done } = .next t) ∧
    PState.takesInput (parsing .escaped []).pstate = true ∧ (parsing .escaped []).ports.serialReceive = [] :=
  ⟨reset_valid, exists_next (by decide +kernel), exists_next (by decide +kernel),
    ⟨by decide +kernel, exists_next (by decide +kernel)⟩, rfl, rfl⟩

/-- The shortest wait a state can name, and the inputs of an empty script. -/
theorem witness_ParseNeverWaitsForever :
    validConfig (parsing .escaped []).cfg = true ∧ (parsing .escaped []).phase = .parse ∧
    PState.takesInput (parsing .escaped []).pstate = true ∧
    PState.takesInput ({ parsing .awaitingData [] with ports := { State.reset.ports with serialWait := some 0 } }).pstate = true :=
  ⟨reset_valid, rfl, rfl, rfl⟩

/-- SMALL_CAP other than MAX_PAYLOAD; MAX_PAYLOAD below 3; a text not ASCII; a BIG one byte too small for the longest report. And
the same at the boundaries that pass. -/
theorem witness_StepRefusesBadConfiguration :
    ({ Config.testA with smallCap := 9 }).smallCap ≠ ({ Config.testA with smallCap := 9 }).maxPayload ∧
    ({ Config.testA with maxPayload := 2, smallCap := 2 }).maxPayload < 3 ∧
    ([0x80] ∈ texts { Config.testA with msgCrc := [0x80] } ∧ isAscii [0x80] = false) ∧
    (Config.defaultUnknown 0xE ∈ texts { Config.testA with bigCap := 43 } ∧
      43 < (frame Config.defaultTable (Config.testA.diagAddr.toList ++ [0x03, 0xF0] ++ Config.defaultUnknown 0xE)).length) ∧
    validConfig { Config.testA with maxPayload := 3, smallCap := 3 } = true ∧
    validConfig { Config.testA with bigCap := 44 } = true ∧
    validConfig { Config.testA with msgCrc := [0x7F] } = true := by decide +kernel

theorem witness_SequencerOrder :
    (∃ t, step (polled 0 [] 0 .pollRadio) = .next t) ∧ (∃ t, step (polled 0 [] 1 .pollSerial) = .next t) ∧
    ∃ t, step (parsing .awaitingData [.byte 0x41]) = .next t :=
  ⟨exists_next (by decide +kernel), exists_next (by decide +kernel), exists_next (by decide +kernel)⟩

theorem witness_UnitStartClearComesFirst :
    (State.reset.cfg.errClear = .atUnitStart ∧ ∃ t, exec (.relay 9) State.reset = .next t) ∧
    (otherChoices State.reset).cfg.errClear = .never ∧ ∃ t, exec .parseStart (otherChoices State.reset) = .next t :=
  ⟨⟨rfl, exists_next (by decide +kernel)⟩, rfl, exists_next (by decide +kernel)⟩

/-- An operation of each shape, and a poll of the serial port with a byte ready and with none. -/
theorem witness_FrameOfNonStoringOperations :
    (∃ t, exec .afdFend (holding [0x20]) = .next t) ∧ (∃ t, exec .pollSerial (polled 0 [] 1 .pollSerial) = .next t) ∧
    (∃ t, exec .pollSerial (polled 0 [] 0 .pollSerial) = .next t) ∧ (takeSerialPeek (polled 0 [] 0 .pollSerial)).1 = 0 ∧
    (∃ t, exec .parseTimeout (holding [0x20]) = .next t) ∧ ∃ t, exec (.crcUpdate [0x20]) (holding [0x20]) = .next t :=
  ⟨⟨_, rfl⟩, exists_next (by decide +kernel), exists_next (by decide +kernel), by decide +kernel, ⟨_, rfl⟩, ⟨_, rfl⟩⟩

/-- With one byte of room, and without. -/
theorem witness_FrameOfStoringOperations :
    (∃ t, exec .escTfend (holding (List.replicate 7 0x11)) = .next t) ∧
    ∃ t, exec (.adData 0x11) (holding (List.replicate 8 0x11)) = .next t :=
  ⟨exists_next (by decide +kernel), exists_next (by decide +kernel)⟩

theorem witness_FrameOfReportingOperations :
    (∃ t, exec (.diag [0x41]) State.reset = .next t) ∧ (∃ t, exec (.escBad 0x41) (holding [0x20]) = .next t) ∧
    (∃ t, exec (.reset 0) (resetAnswer false) = .next t) ∧ (∃ t, exec .emptyFrame (otherChoices State.reset) = .next t) ∧
    (∃ t, exec (.dataNoflag 0 0) (holding [0x00]) = .next t) ∧
    ((0x0E : Byte) &&& 0x0F ≠ 0x00 ∧ (0x0E : Byte) &&& 0x0F ≠ 0x0F ∧ ∃ t, exec (decodeCommand 0x0E) (holding [0x0E]) = .next t) :=
  ⟨exists_next (by decide +kernel), exists_next (by decide +kernel), exists_next (by decide +kernel), exists_next (by decide +kernel),
    exists_next (by decide +kernel), by decide, by decide, exists_next (by decide +kernel)⟩

theorem witness_FrameOfDataFlex :
    (∃ t, exec (.dataFlex 0 0) (holding [0x20, 0x41, 0x9E, 0xF9]) = .next t) ∧
    ∃ t, exec (.dataFlex 0 0) (holding [0x20]) = .next t :=
  ⟨exists_next (by decide +kernel), exists_next (by decide +kernel)⟩

/-- A relay, one rejected by its count, and one that overflows BIG. -/
theorem witness_FrameOfRelay :
    (∃ t, exec (.relay 8) (radioHas (List.replicate 8 0x55)) = .next t) ∧ (∃ t, exec (.relay 9) State.reset = .next t) ∧
    ∃ t, exec (.relay 32) (configB (List.replicate 32 0xC0)) = .next t :=
  ⟨exists_next (by decide +kernel), exists_next (by decide +kernel), exists_next (by decide +kernel)⟩

theorem witness_FrameOfPollRadio :
    (∃ t, exec .pollRadio (polled 0 [] 0 .pollRadio) = .next t) ∧ ∃ t, exec .pollRadio (polled 1 [0xC0] 0 .pollRadio) = .next t :=
  ⟨exists_next (by decide +kernel), exists_next (by decide +kernel)⟩

theorem witness_StepKeepsLegalStates :
    State.Inv (parsing .awaitingData [.byte 0x41]) ∧ ∃ t, step (parsing .awaitingData [.byte 0x41]) = .next t :=
  ⟨parsing_inv _ rfl, exists_next (by decide +kernel)⟩

/-- A radio count above the bounds included: the answer is never asked for. -/
theorem witness_NoInputStopsTheMachine :
    State.Inv (polled 1 [0xC0] 0 .pollRadio) ∧ validConfig (polled 1 [0xC0] 0 .pollRadio).cfg = true ∧
    radioWillKeepContract (polled 1 [0xC0] 0 .pollRadio) = true ∧ radioWillKeepContract (polled 9 [] 0 .pollRadio) = true :=
  ⟨⟨Memory.Holds.nil _, Memory.Holds.nil _, rfl, fun h => by cases h⟩, reset_valid, by decide +kernel, by decide +kernel⟩

theorem witness_TableAndParametersNeverChange : ∃ t, step (parsing .awaitingData [.byte 0xC0]) = .next t :=
  exists_next (by decide +kernel)

/-- A state whose latch shows the last event of its trace, and a step that writes the latch. -/
theorem witness_LatchShowsLastErrEvent :
    (∃ t, step { parsing .escaped [.byte 0x41] with errInd := false, trace := [.err true, .err false] } = .next t) ∧
    ∀ v, lastLatch [.err true, .err false] = some v → false = v :=
  ⟨exists_next (by decide +kernel), by decide⟩

theorem witness_TraceOnlyGrows : ∃ t, step (parsing .escaped [.byte 0x41]) = .next t := exists_next (by decide +kernel)

/-- Steps that leave the parse going on, in Overflow and in Timeout, and one whose dispatch resets the radio. -/
theorem witness_RadioIsNotServedDuringParse :
    (∃ t, step (parsing .awaitingData [.byte 0x41]) = .next t ∧ t.pstate ≠ .done) ∧
    (∃ t, step { holding (List.replicate 8 0x11) with ports := (parsing .escaped [.byte 0xDC]).ports } = .next t ∧
      t.pstate ≠ .done) ∧
    (∃ t, step (parsing .escaped [.tick]) = .next t ∧ t.pstate ≠ .done) ∧
    ∃ t, step { closing [0x0F] with ports := { (closing [0x0F]).ports with radioReset := [false] } } = .next t :=
  ⟨exists_pstate_ne (v := .awaitingData) (by decide +kernel) (by decide),
    exists_pstate_ne (v := .overflow) (by decide +kernel) (by decide),
    exists_pstate_ne (v := .timeout) (by decide +kernel) (by decide), exists_next (by decide +kernel)⟩

/-- Two states that differ in `crc`, BIG and the bytes of SMALL past `smallLen`. -/
theorem witness_StaleContentsAreNeverObserved :
    sameVisible (parsing .awaitingData [.byte 0xC0])
      { parsing .awaitingData [.byte 0xC0] with crc := 0x1234, big := [(0, 0x55)], bigLen := 1, small := [(0, 0x66), (3, 0x77)] } ∧
    ∃ t, step (parsing .awaitingData [.byte 0xC0]) = .next t :=
  ⟨⟨rfl, fun i h => absurd h (Nat.not_lt_zero i)⟩, exists_next (by decide +kernel)⟩

end Sys2Proof.Tests
end

section
/-! PROOFS. The state's family. A step is a chain of elementary updates of the state (`step_updates`); what every update keeps, a
step keeps. -/

namespace Sys2Proof.Machine

/-! ### The elementary updates -/

/-- One elementary update of the state. No operation that a step runs writes it in another way: TABLE and the parameters have no
update, the trace has only appends, and the latch is written together with its event (R16). -/
inductive Update (s : State) : State → Prop where
  /-- The environment: port answers, draws and the unconstrained indicators (R17, R30). -/
  | env (ports : Ports) (draws : Nat) (rx tx : Bool) :
      Update s { s with ports := ports, draws := draws, rxInd := rx, txInd := tx }
  /-- The sequencer and the parser move (R13, R14). -/
  | control (ph : Phase) (ps : PState) : Update s { s with phase := ph, pstate := ps }
  | crc (c : Word) : Update s { s with crc := c }
  /-- An event that is no write of the latch (R31). -/
  | event (e : Event) (he : e.latch = none) : Update s (emit e s)
  /-- A write of the latch, with its event (R16). -/
  | latch (v : Bool) : Update s (setErr v s)
  /-- `smallLen <- 0` (R170). -/
  | clear : Update s { s with smallLen := 0 }
  /-- A stored byte of a parse (R178). -/
  | push (v : Byte) (h : s.smallLen < s.cfg.smallCap) :
      Update s { s with small := Memory.write s.small s.smallLen v, smallLen := s.smallLen + 1 }
  /-- The radio's answer in SMALL (R144). -/
  | receive (d : List Byte) (h : d.length ≤ s.cfg.smallCap) :
      Update s { s with small := Memory.writeSpan s.small 0 d, smallLen := d.length }
  /-- A build in BIG (R141). -/
  | fill (bs : List Byte) (h : bs.length ≤ s.cfg.bigCap) :
      Update s { s with big := Memory.writeSpan s.big 0 bs, bigLen := bs.length }

/-- Elementary updates one after the other. -/
abbrev Updates : State → State → Prop := Relation.ReflTransGen Update

/-- What every update keeps, a chain of updates keeps. -/
theorem Updates.keeps {P : State → Prop} (hP : ∀ s t, Update s t → P s → P t) {s t : State} (h : Updates s t) (hs : P s) : P t := by
  induction h with
  | refl => exact hs
  | tail _ hu ih => exact hP _ _ hu ih

/-! ### The operations as chains of updates -/

theorem redrawIndicators_updates (s : State) : Updates s (redrawIndicators s) := .single (.env s.ports _ _ _)

theorem takeSerial_updates (s : State) : Updates s (takeSerial s).2 := .single (.env _ _ s.rxInd s.txInd)

theorem takeRadioPeek_updates (s : State) : Updates s (takeRadioPeek s).2 := by
  unfold takeRadioPeek
  split
  · exact .single (.env _ s.draws s.rxInd s.txInd)
  · exact .single (.env s.ports _ s.rxInd s.txInd)

theorem takeRadioReceive_updates (p : Nat) (s : State) : Updates s (takeRadioReceive p s).2 := by
  unfold takeRadioReceive
  split
  · exact .single (.env _ s.draws s.rxInd s.txInd)
  · exact .single (.env s.ports _ s.rxInd s.txInd)

theorem takeRadioReset_updates (s : State) : Updates s (takeRadioReset s).2 := by
  unfold takeRadioReset
  split
  · exact .single (.env _ s.draws s.rxInd s.txInd)
  · exact .single (.env s.ports _ s.rxInd s.txInd)

theorem takeSerialPeek_updates (s : State) : Updates s (takeSerialPeek s).2 := by
  unfold takeSerialPeek
  split
  · exact .single (.env _ s.draws s.rxInd s.txInd)
  · exact .single (.env s.ports _ s.rxInd s.txInd)

theorem unitStartClear_updates (s : State) : Updates s (unitStartClear s) := by
  unfold unitStartClear
  split
  · exact .single (.latch false)
  · exact .refl

theorem flash_updates (n : Nat) (s : State) : Updates s (flash n s) := by
  induction n generalizing s with
  | zero => exact .refl
  | succ n ih => exact ((Relation.ReflTransGen.single (.latch true)).tail (.latch false)).trans (ih _)

theorem parseStart_updates (s : State) : Updates s (parseStart s) :=
  ((unitStartClear_updates s).tail .clear).tail (.control .parse .awaitingFirstDelimiter)

/-- A frame that fits BIG is built and sent (R141, R147). -/
theorem afterFrame_updates {payload : List Byte} {s : State} (h : frameFits payload s) : Updates s (afterFrame payload s) :=
  ((Relation.ReflTransGen.single (.crc (frameCrc s.table payload))).tail (.fill (frame s.table payload) h)).tail (.event _ rfl)

theorem afterDiag_updates {text : Text} {s : State} (h : frameFits (diagPayload s.cfg text) s) : Updates s (afterDiag text s) :=
  afterFrame_updates h

theorem afterError_updates {k : ErrorKind} {s : State} (h : frameFits (diagPayload s.cfg (msg s.cfg k)) s) :
    Updates s (afterError k s) :=
  (afterDiag_updates h).tail (.latch true)

/-- What a relay builds from: the clear, the request and its answer in SMALL, where the answer fits (R144). -/
theorem relayReceived_updates {p : Nat} {s : State} (h : (takeRadioReceive p (unitStartClear s)).1.length ≤ s.cfg.smallCap) :
    Updates s (relayReceived p s) := by
  have hreceive := Update.receive (s := emit (.radRx p (takeRadioReceive p (unitStartClear s)).1)
    (takeRadioReceive p (unitStartClear s)).2) _ (by simpa using h)
  simp only [emit_small, takeRadioReceive_small] at hreceive
  exact (((unitStartClear_updates s).trans (takeRadioReceive_updates p _)).tail (.event _ rfl)).tail hreceive

/-- A frame that does not fit BIG fills it with its beginning (R148). -/
theorem full_updates {bs : List Byte} {s : State} (h : s.cfg.bigCap ≤ bs.length) :
    Updates s { s with big := Memory.writeSpan s.big 0 (bs.take s.cfg.bigCap), bigLen := s.cfg.bigCap } := by
  have hlen : (bs.take s.cfg.bigCap).length = s.cfg.bigCap := List.length_take_of_le h
  have hfill := Update.fill (s := s) (bs.take s.cfg.bigCap) hlen.le
  rw [hlen] at hfill
  exact .single hfill

theorem relay_updates {p : Nat} {s t : State} (h : relay p s = .next t) : Updates s t := by
  have fits : ¬ relayTooLarge p s → (takeRadioReceive p (unitStartClear s)).1.length ≤ p →
      (takeRadioReceive p (unitStartClear s)).1.length ≤ s.cfg.smallCap :=
    fun hp hl => hl.trans (Nat.not_lt.1 fun hc => hp (.inr hc))
  rcases relay_next h with ⟨-, rfl, hf⟩ | ⟨hp, rfl, hf, hl⟩ | ⟨hp, hbig, hl, rfl, hf⟩
  · exact (unitStartClear_updates s).trans (afterError_updates (by simpa [frameFits, msg] using hf))
  · exact (relayReceived_updates (fits hp hl)).trans
      (afterFrame_updates (by simpa [frameFits, relayReceived] using hf))
  · have hfull := full_updates (s := relayReceived p s) (bs := frame s.table (takeRadioReceive p (unitStartClear s)).1)
      (by simpa [relayReceived] using Nat.le_of_not_le hbig)
    refine ((relayReceived_updates (fits hp hl)).trans ?_).trans
      (afterError_updates (by simpa [frameFits, relayReceived, msg] using hf))
    simpa [relayReceived] using hfull

theorem dispatch_updates {s t : State} (h : dispatch s = .next t) : Updates s t := by
  cases dispatch_cases h with
  | ignored _ ht => exact ht ▸ .refl
  | empty c ht => exact ht ▸ .single (.crc c)
  | sent c _ _ bs _ _ _ _ _ _ ht => exact ht ▸ (Relation.ReflTransGen.single (.crc c)).tail (.event (.radTx bs) rfl)
  | failed k _ hf ht => exact ht ▸ afterError_updates hf
  | resetDone _ ht => exact ht ▸ (takeRadioReset_updates s).tail (.event (.radRst true) rfl)
  | resetFailed _ hf ht =>
    subst ht
    exact (((takeRadioReset_updates s).tail (.event (.radRst false) rfl)).trans (flash_updates 3 _)).trans
      (afterDiag_updates (by simpa [frameFits] using hf))
  | unknown _ _ _ hf ht => exact ht ▸ afterDiag_updates hf

theorem input_updates {s t : State} (h : InputCase s t) : Updates s t := by
  cases h with
  | timedOut ht =>
    exact ht ▸ ((Relation.ReflTransGen.single (.control s.phase .timeout)).tail (.event .timeout rfl)).tail
      (.control .pollRadio .timeout)
  | opened _ ht => exact ht ▸ .single (.control s.phase .awaitingData)
  | skipped _ ht => exact ht ▸ .refl
  | escaping _ ht => exact ht ▸ .single (.control s.phase .escaped)
  | closed u _ hu ht =>
    exact ht ▸ ((Relation.ReflTransGen.single (.control s.phase .done)).trans (dispatch_updates hu)).tail
      (.control .pollRadio u.pstate)
  | overflowed _ ht hf => exact ht ▸ (afterError_updates hf).tail (.control .pollRadio .overflow)
  | stored v hl ht => exact ht ▸ (Relation.ReflTransGen.single (.push v hl)).tail (.control s.phase .awaitingData)
  | badEscape b _ ht hf => exact ht ▸ (afterError_updates hf).tail (.control s.phase .awaitingData)

theorem execPollRadio_updates {s t : State} (h : execPollRadio s = .next t) : Updates s t := by
  rcases execPollRadio_next h with ⟨-, rfl⟩ | ⟨-, u, hu, rfl⟩
  · exact (takeRadioPeek_updates s).tail (.control .pollSerial _)
  · exact ((takeRadioPeek_updates s).trans (relay_updates hu)).tail (.control .pollSerial u.pstate)

theorem execPollSerial_updates {s t : State} (h : execPollSerial s = .next t) : Updates s t := by
  rcases execPollSerial_next h with ⟨-, rfl⟩ | ⟨-, rfl⟩
  · exact (takeSerialPeek_updates s).trans (parseStart_updates _)
  · exact (takeSerialPeek_updates s).tail (.control .pollRadio _)

/-- A step is a chain of elementary updates. -/
theorem step_updates {s t : State} (h : step s = .next t) : Updates s t := by
  obtain ⟨-, hc⟩ := step_cases h
  cases hc with
  | radio u _ he ht => exact ht ▸ (execPollRadio_updates he).trans (redrawIndicators_updates u)
  | serial u _ he ht => exact ht ▸ (execPollSerial_updates he).trans (redrawIndicators_updates u)
  | dispatched u _ _ he ht =>
    exact ht ▸ ((dispatch_updates he).tail (.control .pollRadio u.pstate)).trans (redrawIndicators_updates _)
  | waited _ _ _ ht => exact ht ▸ (takeSerial_updates s).trans (redrawIndicators_updates _)
  | input _ _ u _ _ _ hd he ht =>
    exact ht ▸ ((takeSerial_updates s).trans (input_updates (input_cases (by simpa using hd) he))).trans
      (redrawIndicators_updates u)

/-- What every update keeps, a step keeps. -/
theorem step_keeps {P : State → Prop} (hP : ∀ s t, Update s t → P s → P t) {s t : State} (h : step s = .next t) (hs : P s) : P t :=
  (step_updates h).keeps hP hs

/-! ### What every update keeps -/

/-- The state holds the table `tb` and the parameters `c`. -/
def State.Carries (tb : Vector Word 256) (c : Config.Params) (s : State) : Prop := s.table = tb ∧ s.cfg = c

/-- No update writes TABLE or a parameter (R18, R19). -/
theorem Update.carries {tb : Vector Word 256} {c : Config.Params} {s t : State} (h : Update s t) (hs : s.Carries tb c) :
    t.Carries tb c := by
  cases h <;> exact hs

/-- An update adds to the trace or leaves it (R31, R52). -/
theorem Update.extends_trace {tr : List Event} {s t : State} (h : Update s t) (hs : tr <+: s.trace) : tr <+: t.trace := by
  cases h with
  | event e _ => exact hs.trans ⟨_, rfl⟩
  | latch v => exact hs.trans ⟨_, rfl⟩
  | _ => exact hs

theorem lastLatch_append (tr : List Event) (e : Event) : lastLatch (tr ++ [e]) = e.latch.or (lastLatch tr) := by
  unfold lastLatch
  cases h : e.latch <;> simp [h]

/-- The latch shows the last write that the trace records. -/
def State.LatchShown (s : State) : Prop := ∀ v, lastLatch s.trace = some v → s.errInd = v

/-- A write of the latch is the trace's last, and every other update leaves both alone (R16). -/
theorem Update.latchShown {s t : State} (h : Update s t) (hs : s.LatchShown) : t.LatchShown := by
  cases h with
  | event e he =>
    intro v hv
    rw [emit_trace, lastLatch_append, he, Option.none_or] at hv
    exact hs v hv
  | latch v =>
    intro w hw
    rw [setErr_trace, lastLatch_append] at hw
    exact Option.some.inj hw
  | _ => exact hs

/-- The legal states (`State.Inv`) but for the parser's part, which a dispatch breaks on its way (R173). -/
structure State.Stored (s : State) : Prop where
  small : Memory.Holds s.small s.smallLen s.cfg.smallCap
  big : Memory.Holds s.big s.bigLen s.cfg.bigCap
  table : s.table = s.cfg.flexTable

/-- Every update leaves in SMALL and BIG what their lengths say (R12, R15, R41, R42). -/
theorem Update.stored {s t : State} (h : Update s t) (hs : s.Stored) : t.Stored := by
  obtain ⟨hsmall, hbig, htable⟩ := hs
  cases h with
  | clear => exact ⟨hsmall.shorten (Nat.zero_le _), hbig, htable⟩
  | push v hl => exact ⟨hsmall.push hl v, hbig, htable⟩
  | receive d hl => exact ⟨hsmall.ofSpan hl, hbig, htable⟩
  | fill bs hl => exact ⟨hsmall, hbig.ofSpan hl, htable⟩
  | _ => exact ⟨hsmall, hbig, htable⟩

/-- A step that leaves the block in a parse leaves the parser in a state that takes input (R186). -/
theorem step_parsing {s t : State} (h : step s = .next t) (hp : t.phase = .parse) : PState.takesInput t.pstate = true := by
  obtain ⟨-, hc⟩ := step_cases h
  cases hc with
  | radio u _ he ht =>
    subst ht
    rcases execPollRadio_next he with ⟨-, rfl⟩ | ⟨-, _, -, rfl⟩ <;> cases hp
  | serial u _ he ht =>
    subst ht
    rcases execPollSerial_next he with ⟨-, rfl⟩ | ⟨-, rfl⟩
    · rfl
    · cases hp
  | dispatched u _ _ _ ht => subst ht; cases hp
  | waited _ hi _ ht => exact ht ▸ hi
  | input x i u _ hi _ hd he ht =>
    subst ht
    cases input_cases (by simpa using hd) he with
    | timedOut hu => subst hu; cases hp
    | opened _ hu => exact hu ▸ rfl
    | skipped _ hu => exact hu ▸ hi
    | escaping _ hu => exact hu ▸ rfl
    | closed _ _ _ hu => subst hu; cases hp
    | overflowed _ hu _ => subst hu; cases hp
    | stored _ _ hu => exact hu ▸ rfl
    | badEscape _ _ hu _ => exact hu ▸ rfl

/-! ### The obligations on all steps and on reset -/

/-- Settles O54: every elementary update keeps SMALL, BIG and TABLE legal, and the parser's part follows from the step's cases. -/
theorem stepKeepsLegalStates : Obligations.StepKeepsLegalStates := by
  unfold Obligations.StepKeepsLegalStates
  intro s t hs h
  obtain ⟨hsmall, hbig, htable⟩ := step_keeps (fun _ _ => Update.stored) h ⟨hs.small, hs.big, hs.table⟩
  exact ⟨hsmall, hbig, htable, step_parsing h⟩

/-- Settles O57: every elementary update keeps the latch at the trace's last write of it. -/
theorem latchShowsLastErrEvent : Obligations.LatchShowsLastErrEvent := by
  unfold Obligations.LatchShowsLastErrEvent
  exact fun _ _ h hs => step_keeps (fun _ _ => Update.latchShown) h hs

/-- Settles O56: no elementary update writes TABLE or a parameter. -/
theorem tableAndParametersNeverChange : Obligations.TableAndParametersNeverChange := by
  unfold Obligations.TableAndParametersNeverChange
  exact fun s _ h => step_keeps (P := State.Carries s.table s.cfg) (fun _ _ => Update.carries) h ⟨rfl, rfl⟩

/-- Settles O58: every elementary update leaves the trace as it is or appends to it. -/
theorem traceOnlyGrows : Obligations.TraceOnlyGrows := by
  unfold Obligations.TraceOnlyGrows
  intro s t h
  obtain ⟨es, hes⟩ := step_keeps (P := fun u => s.trace <+: u.trace) (fun _ _ => Update.extends_trace) h List.prefix_rfl
  exact ⟨es, hes.symm⟩

/-- Settles O52: the reset record's own fields, and lengths of 0, past which every read faults. -/
theorem resetState : Obligations.ResetState := by
  unfold Obligations.ResetState
  exact fun c => ⟨rfl, rfl, rfl, rfl, rfl, rfl, rfl, fun i => readSmall_pastLength (Nat.zero_le i),
    fun i => readBig_pastLength (Nat.zero_le i)⟩

/-- Settles O53: empty spaces hold what a length of 0 says, and reset is in no parse. -/
theorem resetStateIsLegal : Obligations.ResetStateIsLegal := by
  unfold Obligations.ResetStateIsLegal
  exact fun c => ⟨Memory.Holds.nil _, Memory.Holds.nil _, rfl, fun hp => by cases hp⟩

end Sys2Proof.Machine
end

section
/-! PROOFS. No step observes `crc`, BIG or the bytes of SMALL from `smallLen` up: from states that look the same (`sameVisible`)
every operation that a step runs has the same outcome, up to states that look the same (`Alike`). -/

namespace Sys2Proof.Machine

/-! ### States that look the same -/

namespace sameVisible
variable {s t : State}

/-- One state is the other with `crc`, BIG and the contents of SMALL replaced. -/
theorem exists_eq (h : sameVisible s t) : ∃ c b n m, t = { s with crc := c, big := b, bigLen := n, small := m } ∧
    ∀ i, i < s.smallLen → Memory.read m i = Memory.read s.small i :=
  ⟨_, _, _, _, h.1, h.2⟩

theorem cfg (h : sameVisible s t) : t.cfg = s.cfg := by rw [h.1]
theorem smallLen (h : sameVisible s t) : t.smallLen = s.smallLen := by rw [h.1]
theorem table (h : sameVisible s t) : t.table = s.table := by rw [h.1]
theorem pstate (h : sameVisible s t) : t.pstate = s.pstate := by rw [h.1]
theorem phase (h : sameVisible s t) : t.phase = s.phase := by rw [h.1]
theorem ports (h : sameVisible s t) : t.ports = s.ports := by rw [h.1]

/-- Every read of SMALL is the same: below the length the bytes are, and from there up both fault (R44). -/
theorem readSmall_eq (h : sameVisible s t) (i : Nat) : readSmall i t = readSmall i s := by
  unfold readSmall
  rw [h.smallLen]
  split
  · next hi => rw [h.2 i hi]
  · rfl

theorem readSmallSpan_eq (h : sameVisible s t) (i n : Nat) : readSmallSpan i n t = readSmallSpan i n s :=
  readSpan_congr h.readSmall_eq i n

theorem frameFits_iff (h : sameVisible s t) (payload : List Byte) : frameFits payload t ↔ frameFits payload s := by
  rw [frameFits, frameFits, h.table, h.cfg]

/-! Updates that write no hidden part from a hidden part. -/

theorem emit (h : sameVisible s t) (e : Event) : sameVisible (emit e s) (emit e t) := by
  obtain ⟨c, b, n, m, rfl, hm⟩ := h.exists_eq
  exact ⟨rfl, hm⟩

theorem setErr (h : sameVisible s t) (v : Bool) : sameVisible (setErr v s) (setErr v t) := by
  obtain ⟨c, b, n, m, rfl, hm⟩ := h.exists_eq
  exact ⟨rfl, hm⟩

theorem withPhase (h : sameVisible s t) (ph : Phase) : sameVisible { s with phase := ph } { t with phase := ph } := by
  obtain ⟨c, b, n, m, rfl, hm⟩ := h.exists_eq
  exact ⟨rfl, hm⟩

theorem withPState (h : sameVisible s t) (ps : PState) : sameVisible { s with pstate := ps } { t with pstate := ps } := by
  obtain ⟨c, b, n, m, rfl, hm⟩ := h.exists_eq
  exact ⟨rfl, hm⟩

theorem redrawIndicators (h : sameVisible s t) : sameVisible (redrawIndicators s) (redrawIndicators t) := by
  obtain ⟨c, b, n, m, rfl, hm⟩ := h.exists_eq
  exact ⟨rfl, hm⟩

theorem unitStartClear (h : sameVisible s t) : sameVisible (unitStartClear s) (unitStartClear t) := by
  unfold Machine.unitStartClear
  rw [h.cfg]
  split
  · exact h.setErr false
  · exact h

theorem flash (h : sameVisible s t) (n : Nat) : sameVisible (flash n s) (flash n t) := by
  induction n generalizing s t with
  | zero => exact h
  | succ n ih => exact ih ((h.setErr true).setErr false)

/-- Whatever the hidden parts but SMALL become, the states look the same. -/
theorem rebuild (h : sameVisible s t) (c c' : Word) (b b' : Memory) (n n' : Nat) :
    sameVisible { s with crc := c, big := b, bigLen := n } { t with crc := c', big := b', bigLen := n' } := by
  obtain ⟨_, _, _, m, rfl, hm⟩ := h.exists_eq
  exact ⟨rfl, hm⟩

/-- A byte stored at the length is seen from now on, and is the same in both. -/
theorem push (h : sameVisible s t) (v : Byte) :
    sameVisible { s with small := Memory.write s.small s.smallLen v, smallLen := s.smallLen + 1 }
      { t with small := Memory.write t.small t.smallLen v, smallLen := t.smallLen + 1 } := by
  obtain ⟨c, b, n, m, rfl, hm⟩ := h.exists_eq
  refine ⟨rfl, fun i (hi : i < s.smallLen + 1) => ?_⟩
  simp only [Memory.read_write]
  split
  · rfl
  · exact hm i (by omega)

/-- A span stored from index 0, with its length, leaves nothing of the old bytes to see. -/
theorem receive (h : sameVisible s t) (d : List Byte) (m m' : Memory) :
    sameVisible { s with small := Memory.writeSpan m 0 d, smallLen := d.length }
      { t with small := Memory.writeSpan m' 0 d, smallLen := d.length } := by
  obtain ⟨_, _, _, _, rfl, _⟩ := h.exists_eq
  refine ⟨rfl, fun i (hi : i < d.length) => ?_⟩
  simp [Memory.read_writeSpan, hi]

/-- An emptied SMALL shows nothing (R170). -/
theorem parseStart (h : sameVisible s t) : sameVisible (parseStart s) (parseStart t) := by
  obtain ⟨c, b, n, m, hu, -⟩ := h.unitStartClear.exists_eq
  unfold Machine.parseStart
  rw [hu]
  exact ⟨rfl, fun i hi => absurd hi (Nat.not_lt_zero i)⟩

/-! The input ports: the answer is the same, and so is what is left in store. -/

theorem takeRadioPeek (h : sameVisible s t) :
    (takeRadioPeek t).1 = (takeRadioPeek s).1 ∧ sameVisible (takeRadioPeek s).2 (takeRadioPeek t).2 := by
  obtain ⟨c, b, n, m, rfl, hm⟩ := h.exists_eq
  unfold Machine.takeRadioPeek
  cases s.ports.radioPeek <;> exact ⟨rfl, rfl, hm⟩

theorem takeRadioReceive (h : sameVisible s t) (p : Nat) :
    (takeRadioReceive p t).1 = (takeRadioReceive p s).1 ∧ sameVisible (takeRadioReceive p s).2 (takeRadioReceive p t).2 := by
  obtain ⟨c, b, n, m, rfl, hm⟩ := h.exists_eq
  unfold Machine.takeRadioReceive
  cases s.ports.radioReceive <;> exact ⟨rfl, rfl, hm⟩

theorem takeRadioReset (h : sameVisible s t) :
    (takeRadioReset t).1 = (takeRadioReset s).1 ∧ sameVisible (takeRadioReset s).2 (takeRadioReset t).2 := by
  obtain ⟨c, b, n, m, rfl, hm⟩ := h.exists_eq
  unfold Machine.takeRadioReset
  cases s.ports.radioReset <;> exact ⟨rfl, rfl, hm⟩

theorem takeSerialPeek (h : sameVisible s t) :
    (takeSerialPeek t).1 = (takeSerialPeek s).1 ∧ sameVisible (takeSerialPeek s).2 (takeSerialPeek t).2 := by
  obtain ⟨c, b, n, m, rfl, hm⟩ := h.exists_eq
  unfold Machine.takeSerialPeek
  cases s.ports.serialPeek <;> exact ⟨rfl, rfl, hm⟩

theorem takeSerial (h : sameVisible s t) :
    (takeSerial t).1 = (takeSerial s).1 ∧ sameVisible (takeSerial s).2 (takeSerial t).2 := by
  obtain ⟨c, b, n, m, rfl, hm⟩ := h.exists_eq
  exact ⟨rfl, rfl, hm⟩

/-! Frames and reports: what they write to BIG and `crc` comes from TABLE, the parameters and the payload alone. -/

theorem afterFrame (h : sameVisible s t) (payload : List Byte) :
    sameVisible (afterFrame payload s) (afterFrame payload t) := by
  have hb : sameVisible (afterBuild payload s) (afterBuild payload t) := h.rebuild _ _ _ _ _ _
  unfold Machine.afterFrame
  rw [h.table]
  exact hb.emit _

theorem afterDiag (h : sameVisible s t) (text : Text) : sameVisible (afterDiag text s) (afterDiag text t) := by
  unfold Machine.afterDiag
  rw [h.cfg]
  exact h.afterFrame _

theorem afterError (h : sameVisible s t) (k : ErrorKind) : sameVisible (afterError k s) (afterError k t) := by
  unfold Machine.afterError
  rw [h.cfg]
  exact (h.afterDiag _).setErr true

theorem relayReceived (h : sameVisible s t) (p : Nat) : sameVisible (relayReceived p s) (relayReceived p t) := by
  obtain ⟨hd, ht⟩ := h.unitStartClear.takeRadioReceive p
  unfold Machine.relayReceived
  simp only [hd]
  exact (ht.emit _).receive _ _ _

theorem settle {u v : State} (h : sameVisible s t) (hu : sameVisible u v) : sameVisible (settle s u) (settle t v) := by
  unfold Machine.settle
  rw [h.phase, h.pstate]
  split
  · exact (hu.withPhase _).redrawIndicators
  · exact hu.redrawIndicators

end sameVisible

/-! ### Outcomes that look the same -/

/-- Two outcomes that stop for the same reason or go on with states that look the same. -/
inductive Alike : Result → Result → Prop where
  | next {s t : State} (h : sameVisible s t) : Alike (.next s) (.next t)
  | fault (e : Fault) : Alike (.fault e) (.fault e)
  | refused (e : Refusal) : Alike (.refused e) (.refused e)

namespace Alike

theorem exists_next {s : State} {r : Result} (h : Alike (.next s) r) : ∃ t, r = .next t ∧ sameVisible s t := by
  cases h with
  | next h => exact ⟨_, rfl, h⟩

theorem andThen {r r' : Result} {f g : State → Result} (hr : Alike r r')
    (hf : ∀ u v, sameVisible u v → Alike (f u) (g v)) : Alike (andThen r f) (andThen r' g) := by
  cases hr with
  | next h => exact hf _ _ h
  | fault e => exact .fault e
  | refused e => exact .refused e

theorem withValue {α : Type} {x y : Except Fault α} {f g : α → Result} (hy : y = x) (hf : ∀ a, Alike (f a) (g a)) :
    Alike (withValue x f) (withValue y g) := by
  subst hy
  cases y with
  | ok a => exact hf a
  | error e => exact .fault e

variable {s t : State}

theorem diag (h : sameVisible s t) (text : Text) : Alike (diag text s) (diag text t) := by
  simp only [diag_eq, h.cfg, h.frameFits_iff]
  split
  · exact .next (h.afterDiag text)
  · exact .fault _

theorem raiseError (h : sameVisible s t) (k : ErrorKind) : Alike (raiseError k s) (raiseError k t) := by
  unfold Machine.raiseError
  rw [h.cfg]
  exact (diag h _).andThen fun _ _ hu => .next (hu.setErr true)

theorem relay (h : sameVisible s t) (p : Nat) : Alike (relay p s) (relay p t) := by
  by_cases hp : relayTooLarge p s
  · rw [relay_tooLarge hp, relay_tooLarge (by rwa [relayTooLarge, h.cfg])]
    exact raiseError h.unitStartClear _
  · have hd := (h.unitStartClear.takeRadioReceive p).1
    have hk : radioKeepsContract t p = radioKeepsContract s p := by rw [radioKeepsContract, radioKeepsContract, h.ports]
    rw [relay_eq hp, relay_eq (by rwa [relayTooLarge, h.cfg]), hk, hd]
    simp only [h.cfg, h.frameFits_iff]
    split
    · split
      · exact .next ((h.relayReceived p).afterFrame _)
      · exact raiseError ((h.relayReceived p).rebuild _ _ _ _ _ _) _
    · exact .refused _

/-! The dispatcher reads SMALL below `smallLen` alone, and `crc` only after it has seeded it (R203). -/

theorem sendPayload (h : sameVisible s t) (n : Nat) : Alike (sendPayload n s) (sendPayload n t) := by
  unfold Machine.sendPayload
  split
  · rw [h.readSmallSpan_eq]
    exact withValue rfl fun _ => .next (h.emit _)
  · exact .next h

theorem deliver (h : sameVisible s t) : Alike (deliver s) (deliver t) := by
  unfold Machine.deliver
  rw [h.readSmall_eq, h.smallLen]
  refine withValue rfl fun b0 => ?_
  split
  · exact raiseError h _
  · exact sendPayload h _

theorem checkCrc (h : sameVisible s t) : Alike (checkCrc s) (checkCrc t) := by
  have hs (body : List Byte) : sameVisible (crcRun body { s with crc := crcSeed }) (crcRun body { t with crc := crcSeed }) :=
    h.rebuild _ _ _ _ _ _
  have hc (body : List Byte) : (crcRun body { t with crc := crcSeed }).crc = (crcRun body { s with crc := crcSeed }).crc := by
    simp only [crcRun_crc, h.table]
  refine withValue (by rw [h.readSmallSpan_eq, h.smallLen]) fun body => ?_
  refine withValue (by rw [(hs body).readSmall_eq, (hs body).smallLen]) fun hi => ?_
  refine withValue (by rw [(hs body).readSmall_eq, (hs body).smallLen]) fun lo => ?_
  rw [hc body]
  split
  · exact raiseError (hs body) _
  · exact deliver (hs body)

theorem execDataFlex (h : sameVisible s t) : Alike (execDataFlex s) (execDataFlex t) := by
  unfold Machine.execDataFlex
  rw [h.smallLen]
  split
  · exact raiseError h _
  · exact checkCrc h

theorem execDataNoflag (h : sameVisible s t) : Alike (execDataNoflag s) (execDataNoflag t) := by
  unfold Machine.execDataNoflag
  rw [h.smallLen, h.readSmall_eq]
  split
  · exact raiseError h _
  · exact withValue rfl fun _ => raiseError h _

theorem execReset (h : sameVisible s t) : Alike (execReset s) (execReset t) := by
  obtain ⟨hok, hs⟩ := h.takeRadioReset
  simp only [Machine.execReset, hok, emit_cfg, takeRadioReset_cfg, h.cfg]
  split
  · exact .next (hs.emit _)
  · exact diag ((hs.emit _).flash 3) _

theorem reportUnknown (h : sameVisible s t) (cmd : BitVec 4) : Alike (reportUnknown cmd s) (reportUnknown cmd t) := by
  unfold Machine.reportUnknown
  rw [h.cfg]
  exact diag h _

theorem execUnknown (h : sameVisible s t) (cmd : BitVec 4) : Alike (execUnknown cmd s) (execUnknown cmd t) := by
  unfold Machine.execUnknown
  split <;> exact reportUnknown h _

theorem emptyFrame (h : sameVisible s t) : Alike (emptyFrame s) (emptyFrame t) := by
  unfold Machine.emptyFrame
  rw [h.cfg]
  split
  · exact .next h
  · exact raiseError h _

theorem dispatchCommand (h : sameVisible s t) (b0 : Byte) : Alike (dispatchCommand b0 s) (dispatchCommand b0 t) := by
  unfold Machine.dispatchCommand
  split
  · exact execDataFlex h
  · split
    · exact execDataNoflag h
    · split
      · exact execReset h
      · exact execUnknown h _

theorem dispatch (h : sameVisible s t) : Alike (dispatch s) (dispatch t) := by
  unfold Machine.dispatch
  rw [h.smallLen, h.readSmall_eq]
  split
  · exact emptyFrame h
  · exact withValue rfl fun b0 => dispatchCommand h b0

/-! The parser. -/

theorem overflow (h : sameVisible s t) : Alike (overflow s) (overflow t) := by
  unfold Machine.overflow
  rw [h.cfg]
  exact (raiseError h _).andThen fun _ _ hu => .next ((hu.withPState .overflow).withPhase .pollRadio)

theorem append (h : sameVisible s t) (v : Byte) {goOn : State → State}
    (hg : ∀ u w, sameVisible u w → sameVisible (goOn u) (goOn w)) : Alike (append v s goOn) (append v t goOn) := by
  simp only [Machine.append, writeSmall, h.cfg, h.smallLen]
  split
  · exact overflow h
  · split
    · exact .next (hg _ _ (by simpa only [h.smallLen, h.cfg] using h.push v))
    · exact .fault _

/-- Every operation an input decodes to (R69, R184). -/
theorem execInput {st : PState} {x : SerialInput} {i : Instr} (hd : decodeParser st x = .ok i) (h : sameVisible s t) :
    Alike (exec i s) (exec i t) := by
  rcases decodeParser_cases hd with rfl | ⟨-, rfl | ⟨b, rfl⟩⟩ | ⟨-, rfl | rfl | ⟨b, rfl⟩⟩ | ⟨-, rfl | rfl | ⟨b, rfl⟩⟩
  · exact .next (((h.withPState .timeout).emit .timeout).withPhase .pollRadio)
  · exact .next (h.withPState .awaitingData)
  · exact .next h
  · exact (dispatch (h.withPState .done)).andThen fun _ _ hu => .next (hu.withPhase .pollRadio)
  · exact .next (h.withPState .escaped)
  · exact append h b fun _ _ hu => hu
  · exact append h fend fun _ _ hu => hu.withPState .awaitingData
  · exact append h fesc fun _ _ hu => hu.withPState .awaitingData
  · exact (raiseError h (.invalidEscapeSequence b)).andThen fun _ _ hu => .next (hu.withPState .awaitingData)

/-! The polls. -/

theorem execPollRadio (h : sameVisible s t) : Alike (execPollRadio s) (execPollRadio t) := by
  obtain ⟨hp, hs⟩ := h.takeRadioPeek
  simp only [Machine.execPollRadio, hp]
  refine andThen ?_ fun _ _ hu => .next (hu.withPhase .pollSerial)
  split
  · exact relay hs _
  · exact .next hs

theorem execPollSerial (h : sameVisible s t) : Alike (execPollSerial s) (execPollSerial t) := by
  obtain ⟨hq, hs⟩ := h.takeSerialPeek
  simp only [Machine.execPollSerial, hq]
  split
  · exact .next hs.parseStart
  · exact .next (hs.withPhase .pollRadio)

end Alike

/-! ### The step -/

/-- The same choice of the sequencer, from states that look the same, of an operation that observes no more than it may. -/
inductive FetchedAlike : Fetched → Fetched → Prop where
  | run {i : Instr} {s t : State} (h : Alike (exec i s) (exec i t)) : FetchedAlike (.run i s) (.run i t)
  | wait {s t : State} (h : sameVisible s t) : FetchedAlike (.wait s) (.wait t)
  | stuck (e : Fault) : FetchedAlike (.stuck e) (.stuck e)

theorem fetchInput_alike {s t : State} (h : sameVisible s t) (st : PState) :
    FetchedAlike (fetch.fetchInput st s) (fetch.fetchInput st t) := by
  obtain ⟨hx, hs⟩ := h.takeSerial
  unfold fetch.fetchInput
  generalize takeSerial s = a at hx hs
  generalize takeSerial t = b at hx hs
  obtain ⟨x, s1⟩ := a
  obtain ⟨y, t1⟩ := b
  cases hx
  cases x with
  | none => exact .wait hs
  | some x =>
    cases hd : decodeParser st x with
    | ok i => simpa only [hd] using .run (.execInput hd hs)
    | error e => simpa only [hd] using .stuck _

theorem fetch_alike {s t : State} (h : sameVisible s t) : FetchedAlike (fetch s) (fetch t) := by
  unfold fetch
  rw [h.phase, h.pstate]
  split
  · exact .run (.execPollRadio h)
  · exact .run (.execPollSerial h)
  · split
    · exact .run (.dispatch h)
    · exact .stuck _
    · exact .stuck _
    all_goals exact fetchInput_alike h _

theorem step_alike {s t : State} (h : sameVisible s t) : Alike (step s) (step t) := by
  unfold step
  rw [h.cfg]
  split
  · have hf := fetch_alike h
    generalize fetch s = a at hf ⊢
    generalize fetch t = b at hf ⊢
    cases hf with
    | run he => exact he.andThen fun _ _ hu => .next (h.settle hu)
    | wait hu => exact .next (h.settle hu)
    | stuck e => exact .fault e
  · exact .refused _

/-- Settles O60: a step's outcome, stops included, is the same up to what may not be observed. -/
theorem staleContentsAreNeverObserved : Obligations.StaleContentsAreNeverObserved := by
  unfold Obligations.StaleContentsAreNeverObserved
  intro s t s' h hs
  exact (hs ▸ step_alike h : Alike (.next s') (step t)).exists_next

end Sys2Proof.Machine
end

section
/-! PROOFS. The encodings' family: the bit fields of a command byte, and each decoder against the encoder and the table. -/

namespace Sys2Proof.Machine

/-! ### The bit fields of a command byte (R66) -/

@[simp] theorem cmdOf_append (hi c : BitVec 4) : cmdOf (hi ++ c) = c := BitVec.extractLsb'_append_eq_right

@[simp] theorem highOf_append (hi c : BitVec 4) : highOf (hi ++ c) = hi := BitVec.extractLsb'_append_eq_left

theorem highOf_append_cmdOf (b0 : Byte) : highOf b0 ++ cmdOf b0 = b0 := BitVec.extractLsb'_append_extractLsb'

@[simp] theorem cmdOf_dataByte (port : BitVec 2) (flex b4 : BitVec 1) : cmdOf (dataByte port flex b4) = 0 :=
  BitVec.extractLsb'_append_eq_right

@[simp] theorem portOf_dataByte (port : BitVec 2) (flex b4 : BitVec 1) : portOf (dataByte port flex b4) = port := by
  revert port flex b4; decide

@[simp] theorem bit4Of_dataByte (port : BitVec 2) (flex b4 : BitVec 1) : bit4Of (dataByte port flex b4) = b4 := by
  revert port flex b4; decide

@[simp] theorem flexOf_dataByte (port : BitVec 2) (flex b4 : BitVec 1) :
    flexOf (dataByte port flex b4) = flex.getLsbD 0 := by
  revert port flex b4; decide

/-- A byte of command 0 is the data byte of its own fields. -/
theorem dataByte_fields {b0 : Byte} (h0 : cmdOf b0 = 0) :
    dataByte (portOf b0) (BitVec.ofBool (flexOf b0)) (bit4Of b0) = b0 := by
  have hflex : BitVec.ofBool (flexOf b0) = b0.extractLsb' 5 1 := by
    ext i hi
    obtain rfl : i = 0 := by omega
    simp [flexOf]
  have hhigh : portOf b0 ++ b0.extractLsb' 5 1 ++ bit4Of b0 = highOf b0 := by
    unfold portOf bit4Of highOf
    rw [BitVec.extractLsb'_append_extractLsb'_eq_extractLsb' (start₂ := 6) (start₁ := 5) (len₁ := 1) rfl,
      BitVec.extractLsb'_append_extractLsb'_eq_extractLsb' (start₂ := 5) (start₁ := 4) (len₁ := 1) rfl]
  have h := highOf_append_cmdOf b0
  rw [h0, ← hhigh, ← hflex] at h
  exact h

/-! ### The command decoder (R67) -/

theorem decodeCommand_flex {b0 : Byte} (h0 : cmdOf b0 = 0) (hf : flexOf b0 = true) :
    decodeCommand b0 = .dataFlex (portOf b0) (bit4Of b0) := by
  simp [decodeCommand, h0, hf]

theorem decodeCommand_noflag {b0 : Byte} (h0 : cmdOf b0 = 0) (hf : flexOf b0 = false) :
    decodeCommand b0 = .dataNoflag (portOf b0) (bit4Of b0) := by
  simp [decodeCommand, h0, hf]

/-- What holds of the operation `i` of a row that the low nibble `c` alone selects, RESET's or an unknown command's: its encoding,
its row of the table, and the branch of R200 that runs it. -/
structure NibbleRow (c hi : BitVec 4) (i : Instr) : Prop where
  wf : i.wf = true
  code : encode i = some (.command (hi ++ c))
  row : tableRow i = some (0x0F, 0#4 ++ c)
  meaning : ∀ s, exec i s = if c = 0xF then execReset s else execUnknown c s

/-- A command other than 0 decodes to the row of its low nibble, with the high nibble as operand. -/
theorem decodeCommand_nibble {b0 : Byte} (h0 : cmdOf b0 ≠ 0) :
    NibbleRow (cmdOf b0) (highOf b0) (decodeCommand b0) := by
  have hc : ∀ n, (cmdOf b0).toNat = n → cmdOf b0 = BitVec.ofNat 4 n := fun n hn => by simp [← hn]
  unfold decodeCommand
  split
  case h_1 h => exact absurd (hc 0 h) h0
  case h_16 =>
    have h : (cmdOf b0).toNat = 15 := by have := (cmdOf b0).isLt; simp only [imp_false] at *; omega
    rw [hc 15 h]
    exact ⟨rfl, rfl, rfl, fun _ => rfl⟩
  all_goals
    next h =>
      rw [hc _ h]
      exact ⟨rfl, rfl, rfl, fun _ => rfl⟩

/-- `c` is the code of the well-formed operation `i`: what a decoder's answer to `c` has to meet. -/
structure IsCodeOf (c : Code) (i : Instr) : Prop where
  wf : i.wf = true
  code : encode i = some c

theorem isCodeOf_decodeCommand (b0 : Byte) : IsCodeOf (.command b0) (decodeCommand b0) := by
  by_cases h0 : cmdOf b0 = 0
  · have hb := dataByte_fields h0
    cases hf : flexOf b0 with
    | true =>
      rw [hf] at hb
      rw [decodeCommand_flex h0 hf]
      exact ⟨rfl, congrArg (some ∘ Code.command) hb⟩
    | false =>
      rw [hf] at hb
      rw [decodeCommand_noflag h0 hf]
      exact ⟨rfl, congrArg (some ∘ Code.command) hb⟩
  · obtain ⟨hwf, hcode, -, -⟩ := decodeCommand_nibble h0
    rw [highOf_append_cmdOf] at hcode
    exact ⟨hwf, hcode⟩

/-! ### The parser's and the stuffer's decoders (R69, R70) -/

/-- The rows of a context that names two bytes and takes any other byte as an operand. -/
theorem isCodeOf_rows {c : Byte → Code} {x y b : Byte} {i j k : Instr} (hi : IsCodeOf (c x) i) (hj : IsCodeOf (c y) j)
    (hk : (b != x && b != y) = true → IsCodeOf (c b) k) :
    IsCodeOf (c b) (if b = x then i else if b = y then j else k) := by
  split
  · next hx => exact hx ▸ hi
  · next hx =>
    split
    · next hy => exact hy ▸ hj
    · next hy => exact hk (by simp [hx, hy])

/-- The last of these rows is the one for every other byte. -/
theorem rows_other {α : Type} {x y b : Byte} {i j k : α} (h : (b != x && b != y) = true) :
    (if b = x then i else if b = y then j else k) = k := by
  obtain ⟨hx, hy⟩ : b ≠ x ∧ b ≠ y := by simpa using h
  rw [if_neg hx, if_neg hy]

theorem decodeParser_tick {st : PState} {i : Instr} (h : decodeParser st .tick = .ok i) : i = .parseTimeout := by
  cases st <;> cases h <;> rfl

theorem isCodeOf_decodeParser {st : PState} {b : Byte} {i : Instr} (h : decodeParser st (.byte b) = .ok i) :
    IsCodeOf (.parser st (.byte b)) i := by
  cases st with
  | awaitingFirstDelimiter =>
    cases h
    split
    · next hb => exact hb ▸ ⟨rfl, rfl⟩
    · next hb => exact ⟨bne_iff_ne.2 hb, rfl⟩
  | awaitingData =>
    cases h
    exact isCodeOf_rows (c := fun b => .parser .awaitingData (.byte b)) ⟨rfl, rfl⟩ ⟨rfl, rfl⟩ fun hb => ⟨hb, rfl⟩
  | escaped =>
    cases h
    exact isCodeOf_rows (c := fun b => .parser .escaped (.byte b)) ⟨rfl, rfl⟩ ⟨rfl, rfl⟩ fun hb => ⟨hb, rfl⟩
  | done | timeout | overflow => cases h

theorem isCodeOf_decodeStuffer (b : Byte) : IsCodeOf (.stuffer b) (decodeStuffer b) :=
  isCodeOf_rows (c := .stuffer) ⟨rfl, rfl⟩ ⟨rfl, rfl⟩ fun hb => ⟨hb, rfl⟩

/-! ### Decode and encode -/

/-- Settles O2, by the operation: a command byte gives its fields back, and an "any other byte" row is reached because its
operand is none of the bytes the rows before it name. -/
theorem decodeOfEncodeIsIdentity : Obligations.DecodeOfEncodeIsIdentity := by
  unfold Obligations.DecodeOfEncodeIsIdentity
  intro i hwf c hc
  cases i with
  | dataFlex port b4 =>
    cases hc
    exact congrArg Except.ok ((decodeCommand_flex (by simp) (by simp)).trans (by simp))
  | dataNoflag port b4 =>
    cases hc
    exact congrArg Except.ok ((decodeCommand_noflag (by simp) (by simp)).trans (by simp))
  | reset hi | unknown1 hi | unknown2 hi | unknown3 hi | unknown4 hi | unknown5 hi | unknown6 hi | unknown7 hi | unknown8 hi
  | unknown9 hi | unknownA hi | unknownB hi | unknownC hi | unknownD hi | unknownE hi =>
    cases hc
    simp [decode, decodeCommand]
  | afdSkip b =>
    cases hc
    exact congrArg Except.ok (if_neg (bne_iff_ne.1 hwf))
  | adData b | escBad b | stuffLit b =>
    cases hc
    exact congrArg Except.ok (rows_other hwf)
  | afdFend | adFend | adFesc | escTfend | escTfesc | parseTimeout | stuffFend | stuffFesc =>
    cases hc
    rfl
  | crcUpdate _ | pollRadio | relay _ | pollSerial | parseStart | diag _ | dispatch | emptyFrame => cases hc

/-- Settles O3, by the context of the code. -/
theorem encodeOfDecodeIsIdentity : Obligations.EncodeOfDecodeIsIdentity := by
  unfold Obligations.EncodeOfDecodeIsIdentity
  intro c i h
  cases c with
  | command b0 =>
    cases h
    obtain ⟨hwf, hcode⟩ := isCodeOf_decodeCommand b0
    exact ⟨hwf, fun _ => hcode, fun ⟨_, hst⟩ => by cases hst⟩
  | stuffer b =>
    cases h
    obtain ⟨hwf, hcode⟩ := isCodeOf_decodeStuffer b
    exact ⟨hwf, fun _ => hcode, fun ⟨_, hst⟩ => by cases hst⟩
  | parser st x =>
    cases x with
    | byte b =>
      obtain ⟨hwf, hcode⟩ := isCodeOf_decodeParser h
      exact ⟨hwf, fun _ => hcode, fun ⟨_, hst⟩ => by cases hst⟩
    | tick =>
      obtain rfl := decodeParser_tick h
      exact ⟨rfl, fun hb => absurd rfl (hb st), fun _ => rfl⟩

/-! ### The command rows of the table (R67) -/

/-- The mask of the row that a command byte selects: bit 5 counts for command 0 alone. -/
def commandMask (b0 : Byte) : Byte := if cmdOf b0 = 0 then 0x2F else 0x0F

theorem cmdOf_and_commandMask (b c : Byte) : cmdOf (b &&& commandMask c) = cmdOf b := by
  have hm : cmdOf (commandMask c) = BitVec.allOnes 4 := by
    unfold commandMask
    split <;> decide
  calc cmdOf (b &&& commandMask c) = cmdOf b &&& cmdOf (commandMask c) := BitVec.extractLsb'_and
    _ = cmdOf b := by rw [hm, BitVec.and_allOnes]

/-- The mask 0x0F keeps the low nibble. -/
theorem and_lowMask (b : Byte) : b &&& 0x0F = 0#4 ++ cmdOf b := by
  calc b &&& 0x0F = (highOf b ++ cmdOf b) &&& (0#4 ++ BitVec.allOnes 4) := by rw [highOf_append_cmdOf]; rfl
    _ = 0#4 ++ cmdOf b := by rw [BitVec.and_append, BitVec.and_zero, BitVec.and_allOnes]

/-- An operation with a command byte has no condition on its operands. -/
theorem wf_of_encode_command {i : Instr} {b0 : Byte} (h : encode i = some (.command b0)) : i.wf = true := by
  cases i with
  | afdSkip _ | adData _ | escBad _ | stuffLit _ | relay _ | diag _ => cases h
  | _ => rfl

/-- The decoder's row is the selected mask with the byte's own bits under it as the match. -/
theorem tableRow_decodeCommand (b0 : Byte) :
    tableRow (decodeCommand b0) = some (commandMask b0, b0 &&& commandMask b0) := by
  have hb := (isCodeOf_decodeCommand b0).code
  unfold commandMask
  by_cases h0 : cmdOf b0 = 0
  · rw [if_pos h0]
    cases hf : flexOf b0 with
    | true =>
      rw [decodeCommand_flex h0 hf] at hb ⊢
      rw [Laws.TableRow.dataFlex _ _ _ _ _ _ rfl hb rfl]
      rfl
    | false =>
      rw [decodeCommand_noflag h0 hf] at hb ⊢
      rw [Laws.TableRow.dataNoflag _ _ _ _ _ _ rfl hb rfl]
      rfl
  · rw [if_neg h0, (decodeCommand_nibble h0).row]
    rw [and_lowMask]

/-- Settles O4: bytes that agree under the mask of a row have the same low nibble, so they select the same mask and match. -/
theorem commandRowsPartitionAllBytes : Obligations.CommandRowsPartitionAllBytes := by
  unfold Obligations.CommandRowsPartitionAllBytes
  intro b0
  refine ⟨(isCodeOf_decodeCommand b0).code, ⟨_, _, tableRow_decodeCommand b0, rfl⟩, fun j c m v hj hrow hm => ?_⟩
  have hdec : decodeCommand c = j := Except.ok.inj (decodeOfEncodeIsIdentity j (wf_of_encode_command hj) _ hj)
  rw [← hdec, tableRow_decodeCommand] at hrow
  cases hrow
  have hcmd : cmdOf b0 = cmdOf c := by
    rw [← cmdOf_and_commandMask b0 c, hm, cmdOf_and_commandMask]
  have hmask : commandMask b0 = commandMask c := by unfold commandMask; rw [hcmd]
  rw [tableRow_decodeCommand, hmask, hm]

/-- Settles O1: each word is one evaluation of the decoder. -/
theorem sampleWordsDecode : Obligations.SampleWordsDecode := by
  unfold Obligations.SampleWordsDecode
  exact ⟨rfl, rfl, rfl, rfl, rfl, rfl, rfl, rfl, rfl⟩

end Sys2Proof.Machine
end

section
/-! PROOFS. The encoding of outbound frames: their length, and DIAG's frame. -/

namespace Sys2Proof.Machine

/-- An outbound content is the control byte, which is not stuffed, the payload and two CRC bytes (R62, R72). -/
theorem contentWidth_frameContent (t : Vector Word 256) (d : List Byte) :
    contentWidth (frameContent t d) = 1 + contentWidth d + contentWidth [hi8 (frameCrc t d), lo8 (frameCrc t d)] := by
  have hcontrol : contentWidth [controlByte] = 1 := rfl
  rw [← hcontrol, ← contentWidth_append, ← contentWidth_append]
  rfl

/-- Settles O9: the stuffer emits one or two bytes for each byte of the content, and one for the control byte. -/
theorem outboundFrameLength : Obligations.OutboundFrameLength := by
  unfold Obligations.OutboundFrameLength
  refine ⟨frame_length, fun t d => ?_⟩
  rw [frame_length, contentWidth_frameContent]
  have hd := le_contentWidth d
  have hd' := contentWidth_le d
  have hcrc := le_contentWidth [hi8 (frameCrc t d), lo8 (frameCrc t d)]
  have hcrc' := contentWidth_le [hi8 (frameCrc t d), lo8 (frameCrc t d)]
  simp only [List.length_cons, List.length_nil] at hcrc hcrc'
  omega

/-- Settles O18: the build gives the whole frame where it fits BIG, and finds BIG full where it does not. -/
theorem diagSendsTheFrame : Obligations.DiagSendsTheFrame := by
  unfold Obligations.DiagSendsTheFrame
  exact fun text s => ⟨fun hf => ⟨afterDiag text s, diag_fits hf, rfl, rfl⟩, diag_overflows⟩

end Sys2Proof.Machine
end

section
/-! PROOFS. The decoders in the block: what a dispatch and a step run is what their code decodes to. -/

namespace Sys2Proof.Machine

/-! ### The dispatcher -/

/-- The choice of R200 on a command byte is the meaning of the operation it decodes to (R67). -/
theorem dispatchCommand_eq_exec (b0 : Byte) (s : State) : dispatchCommand b0 s = exec (decodeCommand b0) s := by
  unfold dispatchCommand
  by_cases h0 : cmdOf b0 = 0
  · cases hf : flexOf b0 with
    | true => simp [h0, decodeCommand_flex h0 hf, exec]
    | false => simp [h0, decodeCommand_noflag h0 hf, exec]
  · rw [(decodeCommand_nibble h0).meaning, if_neg (fun h => h0 h.1), if_neg (fun h => h0 h.1)]

/-- A frame whose first byte can be read is not empty (R44). -/
theorem smallLen_ne_zero_of_readSmall {s : State} {b0 : Byte} (h : readSmall 0 s = .ok b0) : s.smallLen ≠ 0 := by
  intro hl
  rw [readSmall_pastLength hl.le] at h
  cases h

/-- Settles O28: with a first byte to read the frame is not empty, and R200's choice is the decoder's. -/
theorem dispatchRunsDecodedCommand : Obligations.DispatchRunsDecodedCommand := by
  unfold Obligations.DispatchRunsDecodedCommand
  intro s b0 h
  calc dispatch s = withValue (readSmall 0 s) fun b0 => dispatchCommand b0 s := if_neg (smallLen_ne_zero_of_readSmall h)
    _ = exec (decodeCommand b0) s := by rw [h, withValue_ok, dispatchCommand_eq_exec]

/-! ### The step -/

/-- A step that has an operation to run goes on as the operation does (R230). -/
theorem step_of_run {s s1 : State} {i : Instr} (hv : validConfig s.cfg = true) (hf : fetch s = .run i s1) :
    step s = andThen (exec i s1) fun t => .next (settle s t) := by
  simp only [step, hv, if_true, hf]
  cases exec i s1 <;> rfl

/-- A parse that takes input is in no state that a dispatch ends (R181). -/
theorem not_done_of_takesInput {s : State} (hi : PState.takesInput s.pstate = true) :
    ¬ (s.phase = .parse ∧ s.pstate = .done) := by
  rintro ⟨-, hd⟩
  rw [hd] at hi
  cases hi

/-- A step with an input runs the operation that the parser state decodes it to (R69, R181). -/
theorem step_of_input {s s1 : State} {x : SerialInput} {i : Instr} (hv : validConfig s.cfg = true) (hp : s.phase = .parse)
    (ht : takeSerial s = (some x, s1)) (hd : decodeParser s.pstate x = .ok i) :
    step s = andThen (exec i s1) fun t => .next (redrawIndicators t) := by
  have hi := decodeParser_ok hd
  have hf : fetch s = .run i s1 := by
    rcases fetch_parse hp hi with ⟨hn, -⟩ | ⟨y, j, hy, hj, hf⟩
    · rw [ht] at hn
      cases hn
    · rw [ht] at hy hf
      cases hy
      rw [hd] at hj
      cases hj
      exact hf
  simp only [step_of_run hv hf, settle_other (not_done_of_takesInput hi)]

/-- Every input that is taken decodes, and the step runs what it decodes to. -/
theorem step_of_taken {s s1 : State} {x : SerialInput} (hv : validConfig s.cfg = true) (hp : s.phase = .parse)
    (hi : PState.takesInput s.pstate = true) (ht : takeSerial s = (some x, s1)) :
    ∃ i, decode (.parser s.pstate x) = .ok i ∧ step s = andThen (exec i s1) fun t => .next (redrawIndicators t) := by
  obtain ⟨i, hd⟩ := decodeParser_total hi x
  exact ⟨i, hd, step_of_input hv hp ht hd⟩

/-- A step in which nothing is offered waits (R30, R181). -/
theorem step_of_wait {s s1 : State} (hv : validConfig s.cfg = true) (hp : s.phase = .parse)
    (hi : PState.takesInput s.pstate = true) (ht : takeSerial s = (none, s1)) : step s = .next (redrawIndicators s1) := by
  have hf : fetch s = .wait s1 := by
    rcases fetch_parse hp hi with ⟨-, hf⟩ | ⟨x, i, hx, -, -⟩
    · rw [hf, ht]
    · rw [ht] at hx
      cases hx
  simp only [step, hv, if_true, hf, settle_other (not_done_of_takesInput hi)]

/-- A step in a poll phase goes on with what the poll leaves (R231, R233). -/
theorem step_of_poll {s t : State} {i : Instr} (hv : validConfig s.cfg = true) (hf : fetch s = .run i s) (hp : s.phase ≠ .parse)
    (he : exec i s = .next t) : step s = .next (redrawIndicators t) := by
  rw [step_of_run hv hf, he, andThen_next, settle_other fun h => hp h.1]

/-- A step of a parse that stands in Done dispatches and leaves the parse (log entry 8). -/
theorem step_of_done {s t : State} (hv : validConfig s.cfg = true) (hp : s.phase = .parse) (hd : s.pstate = .done)
    (he : exec .dispatch s = .next t) : step s = .next (redrawIndicators { t with phase := .pollRadio }) := by
  have hf : fetch s = .run .dispatch s := by simp only [fetch, hp, hd]
  rw [step_of_run hv hf, he, andThen_next, settle_done hp hd]

/-! What is taken where nothing is scripted: the free offer, or `Tick` at the end of a wait, or nothing (R185; log entries 3, 4). -/

theorem takeSerial_offered {s : State} {x : SerialInput} (hr : s.ports.serialReceive = [])
    (hf : Config.freeSerialOffer s.draws = some x) :
    takeSerial s = (some x, { s with ports := { s.ports with serialWait := none }, draws := s.draws + 1 }) := by
  simp [takeSerial, serialOffer, hr, hf]

theorem takeSerial_waited {s : State} (hr : s.ports.serialReceive = []) (hf : Config.freeSerialOffer s.draws = none)
    (hw : s.ports.serialWait.getD (Config.freeSerialWait s.draws) = 0) :
    takeSerial s = (some .tick, { s with ports := { s.ports with serialWait := none }, draws := s.draws + 1 }) := by
  simp [takeSerial, serialOffer, hr, hf, hw]

theorem takeSerial_waiting {s : State} {n : Nat} (hr : s.ports.serialReceive = [])
    (hf : Config.freeSerialOffer s.draws = none) (hw : s.ports.serialWait.getD (Config.freeSerialWait s.draws) = n + 1) :
    takeSerial s = (none, { s with ports := { s.ports with serialWait := some n }, draws := s.draws + 1 }) := by
  simp [takeSerial, serialOffer, hr, hf, hw]

/-- Settles O41: the scripted input is taken, and ends any wait. -/
theorem stepRunsDecodedInput : Obligations.StepRunsDecodedInput := by
  unfold Obligations.StepRunsDecodedInput
  intro s x rest i hv hp hx hd
  rw [step_of_input hv hp (takeSerial_cons hx) hd]
  cases exec i _ <;> rfl

/-- Settles O42, by the phase, the parser state and what the serial port offers. -/
theorem stepElsewhere : Obligations.StepElsewhere := by
  unfold Obligations.StepElsewhere
  intro s hv
  refine ⟨fun t hp he => ?_, fun t hp he => ?_, fun b0 t hp hd hb he => ?_, fun hp hi hr => ?_⟩
  · exact step_of_poll hv (by simp only [fetch, hp]) (by simp [hp]) he
  · exact step_of_poll hv (by simp only [fetch, hp]) (by simp [hp]) he
  · exact step_of_done hv hp hd ((dispatchRunsDecodedCommand s b0 hb).trans he)
  · cases hf : Config.freeSerialOffer s.draws with
    | some x =>
      obtain ⟨i, hd, hs⟩ := step_of_taken hv hp hi (takeSerial_offered hr hf)
      refine ⟨i, hd, hs.trans ?_⟩
      cases exec i _ <;> rfl
    | none =>
      cases hw : s.ports.serialWait.getD (Config.freeSerialWait s.draws) with
      | zero =>
        obtain ⟨i, hd, hs⟩ := step_of_taken hv hp hi (takeSerial_waited hr hf hw)
        refine ⟨i, hd, hs.trans ?_⟩
        cases exec i _ <;> rfl
      | succ n => exact step_of_wait hv hp hi (takeSerial_waiting hr hf hw)

end Sys2Proof.Machine
end

section
/-! PROOFS. The CRC engine's family: the CRC as a fold over its span, and the operations that store nothing. -/

namespace Sys2Proof.Machine

/-! ### The CRC of a span (R100, R101) -/

/-- The byte step of R100, with TABLE indexed by the byte itself. -/
theorem upd_eq_get (t : Vector Word 256) (c : Word) (b : Byte) :
    upd t c b = (c <<< 8) ^^^ t.get (c.extractLsb' 8 8 ^^^ b).toFin := rfl

theorem crcOf_append (t : Vector Word 256) (c : Word) (us vs : List Byte) :
    crcOf t c (us ++ vs) = crcOf t (crcOf t c us) vs :=
  List.foldl_append

theorem exec_crcUpdate (span : List Byte) (s : State) : exec (.crcUpdate span) s = .next (crcRun span s) := rfl

/-- Settles O5: the CRC is a fold over its span (R101). -/
theorem crcSplitLaw : Obligations.CrcSplitLaw := by
  unfold Obligations.CrcSplitLaw
  exact crcOf_append

/-- Settles O10: the operation folds the byte step of R100 over its span. -/
theorem crcUpdateResult : Obligations.CrcUpdateResult := by
  unfold Obligations.CrcUpdateResult
  intro span s
  have hstep : upd s.table = fun (c : Word) (b : Byte) => (c <<< 8) ^^^ s.table.get (c.extractLsb' 8 8 ^^^ b).toFin :=
    funext₂ (upd_eq_get s.table)
  rw [exec_crcUpdate, crcRun, crcOf, hstep]

/-! ### The operations that store nothing -/

section parseStart
variable (s : State)

@[simp] theorem parseStart_cfg : (parseStart s).cfg = s.cfg := unitStartClear_cfg s
@[simp] theorem parseStart_crc : (parseStart s).crc = s.crc := unitStartClear_crc s
@[simp] theorem parseStart_small : (parseStart s).small = s.small := unitStartClear_small s
@[simp] theorem parseStart_big : (parseStart s).big = s.big := unitStartClear_big s
@[simp] theorem parseStart_bigLen : (parseStart s).bigLen = s.bigLen := unitStartClear_bigLen s
@[simp] theorem parseStart_table : (parseStart s).table = s.table := unitStartClear_table s
@[simp] theorem parseStart_ports : (parseStart s).ports = s.ports := unitStartClear_ports s
@[simp] theorem parseStart_draws : (parseStart s).draws = s.draws := unitStartClear_draws s

end parseStart

/-- Settles O46, operation by operation: each leaves its one next state, and the laws of the updates it is made of say what they
keep. A poll of the serial port starts a parse or goes back to the radio (R233). -/
theorem frameOfNonStoringOperations : Obligations.FrameOfNonStoringOperations := by
  unfold Obligations.FrameOfNonStoringOperations
  intro s t i hi h
  rcases hi with rfl | rfl | rfl | rfl | rfl | ⟨b, rfl⟩ | ⟨span, rfl⟩
  · obtain rfl : toAwaitingData s = t := Host.Outcome.next.inj h
    simp
  · obtain rfl : { s with pstate := .escaped } = t := Host.Outcome.next.inj h
    simp
  · obtain rfl : { emit .timeout { s with pstate := .timeout } with phase := .pollRadio } = t := Host.Outcome.next.inj h
    simp
  · rcases execPollSerial_next h with ⟨hq, rfl⟩ | ⟨-, rfl⟩
    · simp [hq.ne']
    · simp
  · obtain rfl : parseStart s = t := Host.Outcome.next.inj h
    simp
  · obtain rfl : s = t := Host.Outcome.next.inj h
    simp
  · obtain rfl : crcRun span s = t := Host.Outcome.next.inj h
    simp

end Sys2Proof.Machine
end

section
/-! PROOFS. The byte stuffer's family: what the stuffer function emits, and its operations run by themselves on BIG. -/

namespace Sys2Proof.Machine

/-! ### The stuffer function (R120, R127) -/

/-- A byte that needs an escape becomes FESC and a second byte that is TFEND or TFESC; any other byte stands for itself. -/
theorem stuff_cases (b : Byte) :
    ((b = fend ∨ b = fesc) ∧ ∃ e, (e = tfend ∨ e = tfesc) ∧ stuff b = [fesc, e]) ∨
    (b ≠ fend ∧ b ≠ fesc ∧ stuff b = [b]) := by
  unfold stuff
  split
  · next h => exact .inl ⟨.inl h, tfend, .inl rfl, rfl⟩
  · next h =>
    split
    · next h' => exact .inl ⟨.inr h', tfesc, .inr rfl, rfl⟩
    · next h' => exact .inr ⟨h, h', rfl⟩

theorem stuff_of_ne {b : Byte} (h : b ≠ fend) (h' : b ≠ fesc) : stuff b = [b] := by
  rw [stuff, if_neg h, if_neg h']

theorem fend_notMem_stuff (b : Byte) : fend ∉ stuff b := by
  rcases stuff_cases b with ⟨-, e, rfl | rfl, hs⟩ | ⟨hb, -, hs⟩
  · rw [hs]; decide
  · rw [hs]; decide
  · rw [hs, List.mem_singleton]; exact hb.symm

theorem fend_notMem_stuffed (c : List Byte) : fend ∉ stuffed c := by
  rw [stuffed, List.mem_flatMap]
  exact fun ⟨b, _, hb⟩ => fend_notMem_stuff b hb

/-- FESC is no second byte of an escape, so each FESC of a stuffed content begins one. -/
theorem stuffed_fesc_followed {c pre post : List Byte} (h : stuffed c = pre ++ fesc :: post) :
    ∃ rest, post = tfend :: rest ∨ post = tfesc :: rest := by
  induction c generalizing pre with
  | nil => simp at h
  | cons b c ih =>
    rw [stuffed_cons] at h
    rcases stuff_cases b with ⟨-, e, he, hs⟩ | ⟨-, hb, hs⟩
    · rw [hs, List.cons_append, List.cons_append, List.nil_append] at h
      rcases List.cons_eq_append_iff.1 h with ⟨-, hpost⟩ | ⟨pre', -, h'⟩
      · obtain rfl : post = e :: stuffed c := (List.cons.inj hpost).2
        exact ⟨stuffed c, by simpa using he⟩
      · rcases List.cons_eq_append_iff.1 h' with ⟨-, hpost⟩ | ⟨pre'', -, h''⟩
        · obtain rfl : fesc = e := (List.cons.inj hpost).1
          exact absurd he (by decide)
        · exact ih h''
    · rw [hs, List.cons_append, List.nil_append] at h
      rcases List.cons_eq_append_iff.1 h with ⟨-, hpost⟩ | ⟨pre', -, h'⟩
      · exact absurd (List.cons.inj hpost).1.symm hb
      · exact ih h'

/-- The width of a content counts each byte once and each escaped byte once more. -/
theorem contentWidth_eq (c : List Byte) :
    contentWidth c = c.length + (c.filter fun b => b == fend || b == fesc).length := by
  induction c with
  | nil => rfl
  | cons b c ih =>
    have hcons : contentWidth (b :: c) = stuffWidth b + contentWidth c := rfl
    rw [hcons, ih, List.length_cons, stuffWidth]
    split
    · next hb =>
      rw [List.filter_cons_of_pos (by simpa using hb), List.length_cons]
      omega
    · next hb =>
      rw [List.filter_cons_of_neg (by simpa using hb)]
      omega

/-- Settles O8: the framing is read off the two forms of a byte's output, the length off its width. -/
theorem stuffedContentFraming : Obligations.StuffedContentFraming := by
  unfold Obligations.StuffedContentFraming
  intro c
  rw [stuffed_length]
  exact ⟨fend_notMem_stuffed c, fun _ _ => stuffed_fesc_followed, contentWidth_eq c, le_contentWidth c, contentWidth_le c⟩

/-! ### The stuffer on BIG (R121 to R124) -/

/-- A build step whose bytes have room appends them. -/
theorem Appends.fits {t : Vector Word 256} {f : State → Build} {vs : Word → List Byte} {nc : Word → Word} {s : State}
    (hf : Appends t f vs nc) (ht : s.table = t) (h : s.bigLen + (vs s.crc).length ≤ s.cfg.bigCap) :
    f s = .ok (appended (vs s.crc) (nc s.crc) s) :=
  (if_pos h).mp (hf s ht (by omega))

/-- Settles O11: the cases of the function are its equations, and the appending is the law of a build step with room. -/
theorem stufferFunction : Obligations.StufferFunction := by
  unfold Obligations.StufferFunction
  exact ⟨rfl, rfl, fun _ => stuff_of_ne, fun b s => (stuffByte_appends s.table b).fits rfl⟩

/-- The operation `i`, run by itself, is a build step that appends `vs`. -/
def RunsBuild (i : Instr) (vs : List Byte) : Prop :=
  ∃ f : State → Build, (∀ s, exec i s = runBuild (f s)) ∧ ∀ t, Appends t f (fun _ => vs) id

theorem stuffFend_runsBuild : RunsBuild .stuffFend [fesc, tfend] := ⟨_, fun _ => rfl, fun t => putAll_appends t _⟩

theorem stuffFesc_runsBuild : RunsBuild .stuffFesc [fesc, tfesc] := ⟨_, fun _ => rfl, fun t => putAll_appends t _⟩

theorem stuffLit_runsBuild (b : Byte) : RunsBuild (.stuffLit b) [b] := ⟨_, fun _ => rfl, fun t => put_appends t b⟩

theorem RunsBuild.exec_fits {i : Instr} {vs : List Byte} {s : State} (hi : RunsBuild i vs)
    (h : s.bigLen + vs.length ≤ s.cfg.bigCap) : exec i s = .next (appended vs s.crc s) := by
  obtain ⟨f, hexec, hf⟩ := hi
  rw [hexec, runBuild_appends (hf s.table) (by omega), if_pos h]

/-- Without room the bytes that fit are appended, and R148's error follows. -/
theorem RunsBuild.exec_overflows {i : Instr} {vs : List Byte} {s : State} (hi : RunsBuild i vs)
    (hl : s.bigLen ≤ s.cfg.bigCap) (h : s.cfg.bigCap < s.bigLen + vs.length)
    (hreport : frameFits (diagPayload s.cfg s.cfg.msgPacketSize) s) :
    exec i s = .next (afterError (.oversizedOutboundPacket s.cfg.bigCap)
      (appended (vs.take (s.cfg.bigCap - s.bigLen)) s.crc s)) := by
  obtain ⟨f, hexec, hf⟩ := hi
  rw [hexec, runBuild_appends (hf s.table) hl, if_neg (Nat.not_le.2 h)]
  exact raiseError_fits hreport

/-- Where BIG is full nothing is appended. -/
theorem RunsBuild.exec_full {i : Instr} {v : Byte} {vs : List Byte} {s : State} (hi : RunsBuild i (v :: vs))
    (hfull : s.bigLen = s.cfg.bigCap) (hreport : frameFits (diagPayload s.cfg s.cfg.msgPacketSize) s) :
    exec i s = .next (afterError (.oversizedOutboundPacket s.cfg.bigCap) s) := by
  rw [hi.exec_overflows hfull.le (by rw [hfull, List.length_cons]; omega) hreport, hfull, Nat.sub_self]
  rfl

/-- Where BIG has one byte left the first of several bytes fills it. -/
theorem RunsBuild.exec_lastByte {i : Instr} {v w : Byte} {vs : List Byte} {s : State} (hi : RunsBuild i (v :: w :: vs))
    (hlast : s.bigLen + 1 = s.cfg.bigCap) (hreport : frameFits (diagPayload s.cfg s.cfg.msgPacketSize) s) :
    exec i s = .next (afterError (.oversizedOutboundPacket s.cfg.bigCap)
      { s with big := Memory.write s.big s.bigLen v, bigLen := s.cfg.bigCap }) := by
  have hroom : s.cfg.bigCap - s.bigLen = 1 := by omega
  rw [hi.exec_overflows (by omega) (by simp only [List.length_cons]; omega) hreport, hroom, ← hlast]
  rfl

/-- Settles O12: each operation is a build step, and its bytes have room. -/
theorem stuffOperationsAppend : Obligations.StuffOperationsAppend := by
  unfold Obligations.StuffOperationsAppend
  exact fun s => ⟨stuffFend_runsBuild.exec_fits, stuffFesc_runsBuild.exec_fits, fun h b => (stuffLit_runsBuild b).exec_fits h⟩

/-- Settles O13: a full BIG takes none of an operation's bytes, one with a byte left the first of two. -/
theorem stuffOperationsOverflow : Obligations.StuffOperationsOverflow := by
  unfold Obligations.StuffOperationsOverflow
  intro s hreport
  refine ⟨fun hfull => ⟨fun b => ?_, ?_, ?_⟩, fun hlast => ⟨?_, ?_⟩⟩
  · exact (stuffLit_runsBuild b).exec_full hfull hreport
  · exact stuffFend_runsBuild.exec_full hfull hreport
  · exact stuffFesc_runsBuild.exec_full hfull hreport
  · exact stuffFend_runsBuild.exec_lastByte hlast hreport
  · exact stuffFesc_runsBuild.exec_lastByte hlast hreport

end Sys2Proof.Machine
end

section
/-! PROOFS. Progress: from a legal state under the boot constraints every operation that a step runs goes on. Every report fits BIG
(R151, R282), every read of SMALL is below its length (R44), and a relay refuses only an answer that breaks the radio's contract. -/

namespace Sys2Proof.Machine

/-- An outcome that is a next state. -/
def GoesOn (r : Result) : Prop := ∃ t, r = .next t

theorem goesOn_next (s : State) : GoesOn (.next s) := ⟨s, rfl⟩

theorem GoesOn.andThen {r : Result} {g : State → State} (h : GoesOn r) : GoesOn (andThen r fun s => .next (g s)) := by
  obtain ⟨s, rfl⟩ := h
  exact goesOn_next (g s)

theorem GoesOn.withValue {α : Type} {x : Except Fault α} {f : α → Result} (hx : ∃ a, x = .ok a) (hf : ∀ a, GoesOn (f a)) :
    GoesOn (withValue x f) := by
  obtain ⟨a, rfl⟩ := hx
  exact hf a

/-- The storage is legal and the parameters meet the boot constraints: all that keeps an operation going. -/
structure State.Ready (s : State) : Prop where
  stored : s.Stored
  valid : validConfig s.cfg = true

/-- Elementary updates keep a state ready. -/
theorem Updates.ready {s t : State} (hu : Updates s t) (h : s.Ready) : t.Ready := by
  obtain ⟨-, hcfg⟩ := hu.keeps (P := State.Carries s.table s.cfg) (fun _ _ => Update.carries) ⟨rfl, rfl⟩
  exact ⟨hu.keeps (fun _ _ => Update.stored) h.stored, hcfg ▸ h.valid⟩

theorem radioKeepsContract_takeRadioPeek (p : Nat) (s : State) :
    radioKeepsContract (takeRadioPeek s).2 p = radioKeepsContract s p := by
  simp [radioKeepsContract]

theorem execPollSerial_goesOn (s : State) : GoesOn (execPollSerial s) := by
  simp only [execPollSerial]
  split
  · exact goesOn_next _
  · exact goesOn_next _

/-- The operation that R200 chooses by the command byte. -/
theorem dispatchCommand_runs (b0 : Byte) (s : State) :
    dispatchCommand b0 s = execDataFlex s ∨ dispatchCommand b0 s = execDataNoflag s ∨ dispatchCommand b0 s = execReset s ∨
    (cmdOf b0 ≠ 0 ∧ cmdOf b0 ≠ 0xF ∧ dispatchCommand b0 s = reportUnknown (cmdOf b0) s) := by
  unfold dispatchCommand
  by_cases h0 : cmdOf b0 = 0
  · cases hf : flexOf b0 with
    | true => exact .inl (by simp [h0])
    | false => exact .inr (.inl (by simp [h0]))
  · by_cases hF : cmdOf b0 = 0xF
    · exact .inr (.inr (.inl (by simp [hF])))
    · refine .inr (.inr (.inr ⟨h0, hF, ?_⟩))
      rw [if_neg (fun h => h0 h.1), if_neg (fun h => h0 h.1), if_neg hF, execUnknown_eq h0 hF]

namespace State.Ready
variable {s : State}

/-! Reports and reads of SMALL. -/

theorem fits (h : s.Ready) {k : ErrorKind} (hk : k.listed) : frameFits (diagPayload s.cfg (msg s.cfg k)) s :=
  report_fits h.valid h.stored.table hk

theorem diag (h : s.Ready) {k : ErrorKind} (hk : k.listed) : GoesOn (diag (msg s.cfg k) s) := ⟨_, diag_fits (h.fits hk)⟩

theorem raiseError (h : s.Ready) {k : ErrorKind} (hk : k.listed) : GoesOn (raiseError k s) := (h.diag hk).andThen

theorem readSmall (h : s.Ready) {i : Nat} (hi : i < s.smallLen) : ∃ b, readSmall i s = .ok b :=
  readSmall_of_holds h.stored.small hi

theorem readSmallSpan (h : s.Ready) {i n : Nat} (hn : i + n ≤ s.smallLen) : ∃ bs, readSmallSpan i n s = .ok bs :=
  (readSmallSpan_of_holds h.stored.small hn).imp fun _ hbs => hbs.1

/-! The relay: whatever the size check and the room in BIG say, it sends its frame or reports. -/

theorem relay (h : s.Ready) {p : Nat} (hk : radioKeepsContract s p = true) : GoesOn (relay p s) := by
  by_cases hp : relayTooLarge p s
  · rw [relay_tooLarge hp]
    exact ((unitStartClear_updates s).ready h).raiseError trivial
  · rw [relay_eq hp, if_pos hk]
    split
    · exact goesOn_next _
    · have hreport := h.fits (k := .oversizedOutboundPacket s.cfg.bigCap) trivial
      exact ⟨_, raiseError_fits (by simpa [relayReceived, frameFits, msg] using hreport)⟩

/-! The dispatcher: each length check comes before the reads that need it. -/

theorem sendPayload (h : s.Ready) {n : Nat} (hn : 1 + n ≤ s.smallLen) : GoesOn (sendPayload n s) := by
  unfold Machine.sendPayload
  split
  · exact .withValue (h.readSmallSpan hn) fun _ => goesOn_next _
  · exact goesOn_next s

theorem deliver (h : s.Ready) (hl : 0 < s.smallLen) : GoesOn (deliver s) := by
  refine .withValue (h.readSmall hl) fun b0 => ?_
  split
  · exact h.raiseError trivial
  · next n hn => exact h.sendPayload (payloadLength_le hn)

theorem checkCrc (h : s.Ready) (hl : 2 ≤ s.smallLen) : GoesOn (checkCrc s) := by
  refine .withValue (h.readSmallSpan (by omega)) fun body => ?_
  have hu : Updates s (crcRun body { s with crc := crcSeed }) := .single (.crc _)
  have hr := hu.ready h
  have hl' : 2 ≤ (crcRun body { s with crc := crcSeed }).smallLen := hl
  refine .withValue (hr.readSmall (by omega)) fun hi => .withValue (hr.readSmall (by omega)) fun lo => ?_
  split
  · exact hr.raiseError trivial
  · exact hr.deliver (by omega)

theorem execDataFlex (h : s.Ready) : GoesOn (execDataFlex s) := by
  unfold Machine.execDataFlex
  split
  · exact h.raiseError trivial
  · next hl => exact h.checkCrc (Nat.not_lt.1 hl)

theorem execDataNoflag (h : s.Ready) : GoesOn (execDataNoflag s) := by
  unfold Machine.execDataNoflag
  split
  · exact h.raiseError trivial
  · exact .withValue (h.readSmall (by omega)) fun _ => h.raiseError trivial

theorem execReset (h : s.Ready) : GoesOn (execReset s) := by
  have hu : Updates s (flash 3 (emit (.radRst (takeRadioReset s).1) (takeRadioReset s).2)) :=
    ((takeRadioReset_updates s).tail (.event _ rfl)).trans (flash_updates 3 _)
  have hreport := (hu.ready h).diag (k := .radioResetFailure) trivial
  simp only [flash_cfg] at hreport
  simp only [Machine.execReset]
  split
  · exact goesOn_next _
  · exact hreport

theorem emptyFrame (h : s.Ready) : GoesOn (emptyFrame s) := by
  unfold Machine.emptyFrame
  split
  · exact goesOn_next s
  · exact h.raiseError trivial

theorem dispatchCommand (h : s.Ready) (b0 : Byte) : GoesOn (dispatchCommand b0 s) := by
  rcases dispatchCommand_runs b0 s with hc | hc | hc | ⟨h0, hF, hc⟩ <;> rw [hc]
  · exact h.execDataFlex
  · exact h.execDataNoflag
  · exact h.execReset
  · exact h.diag ⟨h0, hF⟩

theorem dispatch (h : s.Ready) : GoesOn (dispatch s) := by
  unfold Machine.dispatch
  split
  · exact h.emptyFrame
  · exact .withValue (h.readSmall (by omega)) fun b0 => h.dispatchCommand b0

/-! The parser and the polls. -/

theorem append (h : s.Ready) (v : Byte) (goOn : State → State) : GoesOn (append v s goOn) := by
  by_cases hl : s.smallLen = s.cfg.smallCap
  · rw [append_full hl]
    exact (h.raiseError (k := .bufferOverflowDuringParse s.cfg.smallCap) trivial).andThen
  · exact ⟨_, append_room (Nat.lt_of_le_of_ne h.stored.small.bounded hl)⟩

/-- Every operation an input decodes to (R69, R184). -/
theorem execInput (h : s.Ready) {st : PState} {x : SerialInput} {i : Instr} (hd : decodeParser st x = .ok i) :
    GoesOn (exec i s) := by
  rcases decodeParser_cases hd with rfl | ⟨-, rfl | ⟨b, rfl⟩⟩ | ⟨-, rfl | rfl | ⟨b, rfl⟩⟩ | ⟨-, rfl | rfl | ⟨b, rfl⟩⟩
  · exact goesOn_next _
  · exact goesOn_next _
  · exact goesOn_next _
  · exact (Updates.ready (.single (.control s.phase .done)) h).dispatch.andThen
  · exact goesOn_next _
  · exact h.append b fun s' => s'
  · exact h.append fend toAwaitingData
  · exact h.append fesc toAwaitingData
  · exact (h.raiseError (k := .invalidEscapeSequence b) trivial).andThen

theorem execPollRadio (h : s.Ready) (hk : radioWillKeepContract s = true) : GoesOn (execPollRadio s) := by
  rw [radioWillKeepContract, ← radioKeepsContract_takeRadioPeek] at hk
  simp only [Machine.execPollRadio]
  refine GoesOn.andThen ?_
  split
  · exact ((takeRadioPeek_updates s).ready h).relay hk
  · exact goesOn_next _

/-- A step of a parse that takes input waits or runs what the input decodes to (R181). -/
theorem step_parse (h : s.Ready) (hp : s.phase = .parse) (hi : PState.takesInput s.pstate = true) : GoesOn (step s) := by
  cases ht : takeSerial s with
  | mk offer s1 =>
    cases offer with
    | none => exact ⟨_, step_of_wait h.valid hp hi ht⟩
    | some x =>
      obtain ⟨i, hd⟩ := decodeParser_total hi x
      have hr : s1.Ready := by simpa [ht] using (takeSerial_updates s).ready h
      rw [step_of_input h.valid hp ht hd]
      exact (hr.execInput hd).andThen

end State.Ready

/-- Settles O55, by the phase: a poll goes on as its operation does, and a parse in a legal state takes input. -/
theorem noInputStopsTheMachine : Obligations.NoInputStopsTheMachine := by
  unfold Obligations.NoInputStopsTheMachine
  intro s hs hv hk
  have h : s.Ready := ⟨⟨hs.small, hs.big, hs.table⟩, hv⟩
  cases hp : s.phase with
  | pollRadio =>
    obtain ⟨t, ht⟩ := h.execPollRadio hk
    exact ⟨_, step_of_poll (i := .pollRadio) hv (by simp only [fetch, hp]) (by simp [hp]) ht⟩
  | pollSerial =>
    obtain ⟨t, ht⟩ := execPollSerial_goesOn s
    exact ⟨_, step_of_poll (i := .pollSerial) hv (by simp only [fetch, hp]) (by simp [hp]) ht⟩
  | parse => exact h.step_parse hp (hs.parsing hp)

end Sys2Proof.Machine
end

section
/-! PROOFS. The relay: what it sends, when it reports or refuses, and what it leaves unchanged. -/

namespace Sys2Proof.Machine

/-- A span leaves every index past its end alone. -/
theorem Memory.read_writeSpan_above {m : Memory} {i j : Nat} {vs : List Byte} (h : i + vs.length ≤ j) :
    Memory.read (Memory.writeSpan m i vs) j = Memory.read m j := by
  rw [Memory.read_writeSpan, if_neg (by omega)]

/-- A sent frame writes of BIG its own bytes alone. -/
theorem afterFrame_big_above {payload : List Byte} {s : State} {a : Nat} (ha : (frame s.table payload).length ≤ a) :
    Memory.read (afterFrame payload s).big a = Memory.read s.big a :=
  Memory.read_writeSpan_above (by omega)

/-- So does the error procedure. -/
theorem afterError_big_above {k : ErrorKind} {s : State} {a : Nat}
    (ha : (frame s.table (diagPayload s.cfg (msg s.cfg k))).length ≤ a) :
    Memory.read (afterError k s).big a = Memory.read s.big a :=
  afterFrame_big_above ha

@[simp] theorem msg_oversizedOutboundPacket (c : Config.Params) (n : Nat) :
    msg c (.oversizedOutboundPacket n) = c.msgPacketSize := rfl

/-! ### What the relay builds from (R142, R144) -/

section relayReceived
variable (p : Nat) (s : State)

@[simp] theorem relayReceived_cfg : (relayReceived p s).cfg = s.cfg := by simp [relayReceived]
@[simp] theorem relayReceived_big : (relayReceived p s).big = s.big := by simp [relayReceived]
@[simp] theorem relayReceived_table : (relayReceived p s).table = s.table := by simp [relayReceived]
@[simp] theorem relayReceived_pstate : (relayReceived p s).pstate = s.pstate := by simp [relayReceived]
@[simp] theorem relayReceived_phase : (relayReceived p s).phase = s.phase := by simp [relayReceived]
@[simp] theorem relayReceived_trace : (relayReceived p s).trace =
    (unitStartClear s).trace ++ [.radRx p (takeRadioReceive p (unitStartClear s)).1] := by simp [relayReceived]

theorem relayReceived_small_above {a : Nat} (ha : (takeRadioReceive p (unitStartClear s)).1.length ≤ a) :
    Memory.read (relayReceived p s).small a = Memory.read s.small a := by
  rw [relayReceived_small, Memory.read_writeSpan_above (by omega)]

end relayReceived

/-- The clear writes nothing to the trace, or the latch's event (R237). -/
theorem unitStartClear_trace (s : State) :
    ∃ clear, (clear = [] ∨ clear = [Event.err false]) ∧ (unitStartClear s).trace = s.trace ++ clear := by
  unfold unitStartClear
  split
  · exact ⟨_, .inr rfl, setErr_trace false s⟩
  · exact ⟨_, .inl rfl, (List.append_nil _).symm⟩

theorem not_relayTooLarge {p : Nat} {s : State} (hmax : p ≤ 2 * s.cfg.maxPayload) (hcap : p ≤ s.cfg.smallCap) :
    ¬ relayTooLarge p s :=
  not_or.2 ⟨Nat.not_lt.2 hmax, Nat.not_lt.2 hcap⟩

/-- The state of a relay whose build finds BIG full with the beginning of its frame (R148). -/
def relayFull (p : Nat) (s : State) : State :=
  { relayReceived p s with
    big := Memory.writeSpan s.big 0 ((frame s.table (takeRadioReceive p (unitStartClear s)).1).take s.cfg.bigCap)
    bigLen := s.cfg.bigCap }

section relayFull
variable (p : Nat) (s : State)

@[simp] theorem relayFull_cfg : (relayFull p s).cfg = s.cfg := relayReceived_cfg p s
@[simp] theorem relayFull_table : (relayFull p s).table = s.table := relayReceived_table p s
@[simp] theorem relayFull_pstate : (relayFull p s).pstate = s.pstate := relayReceived_pstate p s
@[simp] theorem relayFull_phase : (relayFull p s).phase = s.phase := relayReceived_phase p s
@[simp] theorem relayFull_small : (relayFull p s).small = (relayReceived p s).small := rfl
@[simp] theorem relayFull_trace : (relayFull p s).trace = (relayReceived p s).trace := rfl

theorem relayFull_big_above {a : Nat} (ha : s.cfg.bigCap ≤ a) :
    Memory.read (relayFull p s).big a = Memory.read s.big a :=
  Memory.read_writeSpan_above (by rw [List.length_take]; omega)

end relayFull

/-- After the error procedure BIG reads back as the report's frame. -/
theorem readBigSpan_afterError (k : ErrorKind) (s : State) :
    readBigSpan 0 (afterError k s).bigLen (afterError k s) = .ok (frame s.table (diagPayload s.cfg (msg s.cfg k))) :=
  readBigSpan_writeSpan (m := s.big) rfl rfl

/-! ### What a relay does -/

/-- Settles O14: past the size check the whole frame is built and sent, after at most the clear's event and the request's. -/
theorem relaySendsTheFrame : Obligations.RelaySendsTheFrame := by
  unfold Obligations.RelaySendsTheFrame
  intro p s hmax hcap hk hf
  refine ⟨(relay_eq (not_relayTooLarge hmax hcap)).trans (by rw [if_pos hk, if_pos hf]), ?_⟩
  obtain ⟨clear, hclear, htrace⟩ := unitStartClear_trace s
  refine ⟨clear, hclear, ?_⟩
  rw [afterFrame_trace, relayReceived_trace, htrace, relayReceived_table, List.append_assoc]
  rfl

/-- Settles O15: the size check comes before any receive, and the error procedure writes neither SMALL nor the ports. -/
theorem relayRejectsLargeCount : Obligations.RelayRejectsLargeCount := by
  unfold Obligations.RelayRejectsLargeCount
  intro p s hp hreport
  have hfits : frameFits (diagPayload (unitStartClear s).cfg (msg (unitStartClear s).cfg (.oversizedOutboundPacket p)))
      (unitStartClear s) := by simpa [frameFits] using hreport
  exact ⟨_, (relay_tooLarge hp).trans (raiseError_fits hfits), rfl, by simp, by simp, by simp, rfl⟩

/-- Settles O16: the build leaves BIG full, and the report overwrites BIG from index 0 with its own frame. -/
theorem relayOverflowReports : Obligations.RelayOverflowReports := by
  unfold Obligations.RelayOverflowReports
  intro p s hmax hcap hk hbig hreport
  have hfits : frameFits (diagPayload (relayFull p s).cfg (msg (relayFull p s).cfg (.oversizedOutboundPacket s.cfg.bigCap)))
      (relayFull p s) := by simpa [frameFits] using hreport
  refine ⟨afterError (.oversizedOutboundPacket s.cfg.bigCap) (relayFull p s), ?_, rfl, ?_, ?_, ?_⟩
  · refine (relay_eq (not_relayTooLarge hmax hcap)).trans ?_
    rw [if_pos hk, if_neg hbig]
    exact raiseError_fits hfits
  · simp
  · simp
  · simpa using readBigSpan_afterError (.oversizedOutboundPacket s.cfg.bigCap) (relayFull p s)

/-- Settles O17: an answer longer than the request breaks the radio's contract. -/
theorem relayRefusesLongAnswer : Obligations.RelayRefusesLongAnswer := by
  unfold Obligations.RelayRefusesLongAnswer
  intro p s hmax hcap hk
  exact (relay_eq (not_relayTooLarge hmax hcap)).trans (if_neg (by simp [hk]))

/-! ### What a relay leaves unchanged -/

/-- Settles O50: the answer is all that a relay stores in SMALL, and what it builds in BIG, the frame or its beginning and the report,
lies below BIG_CAP. -/
theorem frameOfRelay : Obligations.FrameOfRelay := by
  unfold Obligations.FrameOfRelay
  intro s t p h
  rcases relay_next h with ⟨hp, rfl, hf⟩ | ⟨hp, rfl, hf, -⟩ | ⟨hp, hbig, -, ht, hf⟩
  · refine ⟨by simp, by simp, by simp, by simp, fun a _ => by simp, fun a ha => ?_, fun _ => by simp,
      fun hmax hcap => absurd hp (not_relayTooLarge hmax hcap)⟩
    rw [afterError_big_above (by simpa using hf.trans ha), unitStartClear_big]
  · have hbig {a : Nat} (ha : (frame s.table (takeRadioReceive p (unitStartClear s)).1).length ≤ a) :
        Memory.read (afterFrame (takeRadioReceive p (unitStartClear s)).1 (relayReceived p s)).big a = Memory.read s.big a := by
      rw [afterFrame_big_above (by simpa using ha), relayReceived_big]
    exact ⟨by simp, by simp, by simp, by simp, fun a ha => relayReceived_small_above p s ha, fun a ha => hbig (hf.trans ha),
      fun hp' => absurd hp' hp, fun _ _ _ a ha => hbig ha⟩
  · obtain rfl : t = afterError (.oversizedOutboundPacket s.cfg.bigCap) (relayFull p s) := ht
    refine ⟨by simp, by simp, by simp, by simp, fun a ha => relayReceived_small_above p s ha, fun a ha => ?_,
      fun hp' => absurd hp' hp, fun _ _ hf' => absurd hf' hbig⟩
    rw [afterError_big_above (by simpa using hf.trans ha), relayFull_big_above p s ha]

end Sys2Proof.Machine
end

section
/-! PROOFS. The frame of reports: what an operation that sends at most one report leaves unchanged. -/

namespace Sys2Proof.Machine

/-! ### The frame of at most `k` sends -/

/-- From `s` to `t` at most `k` frames are sent on the serial port, built in BIG below `n`. Nothing else is stored, no serial input is
read, and the parser and the sequencer stay. -/
structure KeepsFrame (n k : Nat) (s t : State) : Prop where
  cfg : t.cfg = s.cfg
  table : t.table = s.table
  small : t.small = s.small
  smallLen : t.smallLen = s.smallLen
  pstate : t.pstate = s.pstate
  phase : t.phase = s.phase
  serialReceive : t.ports.serialReceive = s.ports.serialReceive
  serialPeek : t.ports.serialPeek = s.ports.serialPeek
  big : ∀ a, n ≤ a → Memory.read t.big a = Memory.read s.big a
  sent : ∃ es, t.trace = s.trace ++ es ∧ (es.filter Event.isSerTx).length ≤ k

namespace KeepsFrame
variable {n k m : Nat} {s t u : State}

theorem refl : KeepsFrame n k s s := ⟨rfl, rfl, rfl, rfl, rfl, rfl, rfl, rfl, fun _ _ => rfl, [], by simp⟩

theorem trans (h : KeepsFrame n k s t) (h' : KeepsFrame n m t u) : KeepsFrame n (k + m) s u where
  cfg := h'.cfg.trans h.cfg
  table := h'.table.trans h.table
  small := h'.small.trans h.small
  smallLen := h'.smallLen.trans h.smallLen
  pstate := h'.pstate.trans h.pstate
  phase := h'.phase.trans h.phase
  serialReceive := h'.serialReceive.trans h.serialReceive
  serialPeek := h'.serialPeek.trans h.serialPeek
  big a ha := (h'.big a ha).trans (h.big a ha)
  sent := by
    obtain ⟨es, ht, hk⟩ := h.sent
    obtain ⟨es', hu, hm⟩ := h'.sent
    refine ⟨es ++ es', by rw [hu, ht, List.append_assoc], ?_⟩
    rw [List.filter_append, List.length_append]
    exact Nat.add_le_add hk hm

theorem mono (h : KeepsFrame n k s t) (hk : k ≤ m) : KeepsFrame n m s t := by
  obtain ⟨es, ht, hes⟩ := h.sent
  exact { h with sent := ⟨es, ht, hes.trans hk⟩ }

theorem newEvents_sent (h : KeepsFrame n k s t) : ((newEvents s t).filter Event.isSerTx).length ≤ k := by
  obtain ⟨es, ht, hes⟩ := h.sent
  rwa [newEvents, ht, List.drop_left]

end KeepsFrame

section updates
variable {n : Nat} (s : State)

theorem crc_keepsFrame (c : Word) : KeepsFrame n 0 s { s with crc := c } :=
  ⟨rfl, rfl, rfl, rfl, rfl, rfl, rfl, rfl, fun _ _ => rfl, [], by simp⟩

theorem emit_keepsFrame {e : Event} (he : e.isSerTx = false) : KeepsFrame n 0 s (emit e s) :=
  ⟨rfl, rfl, rfl, rfl, rfl, rfl, rfl, rfl, fun _ _ => rfl, [e], rfl, by simp [he]⟩

theorem setErr_keepsFrame (v : Bool) : KeepsFrame n 0 s (setErr v s) :=
  ⟨rfl, rfl, rfl, rfl, rfl, rfl, rfl, rfl, fun _ _ => rfl, [.err v], rfl, le_rfl⟩

theorem flash_keepsFrame (c : Nat) : KeepsFrame n 0 s (flash c s) := by
  induction c generalizing s with
  | zero => exact .refl
  | succ c ih => exact ((setErr_keepsFrame s true).trans (setErr_keepsFrame _ false)).trans (ih _)

theorem takeRadioReset_keepsFrame : KeepsFrame n 0 s (takeRadioReset s).2 :=
  ⟨by simp, by simp, by simp, by simp, by simp, by simp, by simp, by simp, fun _ _ => by simp, [], by simp, by simp⟩

variable {s}

theorem afterDiag_keepsFrame {text : Text} (hn : (frame s.table (diagPayload s.cfg text)).length ≤ n) :
    KeepsFrame n 1 s (afterDiag text s) :=
  ⟨rfl, rfl, rfl, rfl, rfl, rfl, rfl, rfl, fun _ ha => afterFrame_big_above (hn.trans ha),
    [.serTx (frame s.table (diagPayload s.cfg text))], rfl, le_rfl⟩

theorem afterError_keepsFrame {k : ErrorKind} (hn : (frame s.table (diagPayload s.cfg (msg s.cfg k))).length ≤ n) :
    KeepsFrame n 1 s (afterError k s) :=
  (afterDiag_keepsFrame hn).trans (setErr_keepsFrame _ true)

end updates

/-! ### The dispatcher's operations (R200)

A report that is sent fits BIG, so a bound on its frame is needed only where it does. -/

section dispatcher
variable {s t : State}

/-- The bound `n` holds for the report `text`, if that fits BIG. -/
abbrev BoundsReport (n : Nat) (text : Text) (s : State) : Prop :=
  frameFits (diagPayload s.cfg text) s → (frame s.table (diagPayload s.cfg text)).length ≤ n

theorem diag_keepsFrame {n : Nat} {text : Text} (hn : BoundsReport n text s) (h : diag text s = .next t) : KeepsFrame n 1 s t :=
  diag_next h ▸ afterDiag_keepsFrame (hn (diag_next_fits h))

theorem raiseError_keepsFrame {n : Nat} {k : ErrorKind} (hn : BoundsReport n (msg s.cfg k) s) (h : raiseError k s = .next t) :
    KeepsFrame n 1 s t :=
  raiseError_next h ▸ afterError_keepsFrame (hn (raiseError_next_fits h))

theorem execReset_keepsFrame {n : Nat} (hn : BoundsReport n s.cfg.msgResetFail s) (h : execReset s = .next t) :
    KeepsFrame n 1 s t := by
  have hreset (ok : Bool) : KeepsFrame n 0 s (emit (.radRst ok) (takeRadioReset s).2) :=
    (takeRadioReset_keepsFrame s).trans (emit_keepsFrame _ rfl)
  simp only [execReset] at h
  split at h
  · obtain rfl := Host.Outcome.next.inj h
    exact (hreset _).mono (Nat.zero_le 1)
  · refine ((hreset _).trans (flash_keepsFrame _ 3)).trans (diag_keepsFrame (fun hf => ?_) h)
    simpa [msg] using hn (by simpa [frameFits, msg] using hf)

theorem emptyFrame_keepsFrame {n : Nat} (hn : BoundsReport n s.cfg.msgShort s) (h : emptyFrame s = .next t) :
    KeepsFrame n 1 s t := by
  unfold emptyFrame at h
  split at h
  · obtain rfl := Host.Outcome.next.inj h
    exact .refl
  · exact raiseError_keepsFrame (k := .frameTooShort 0) hn h

theorem execDataNoflag_keepsFrame {n : Nat}
    (hn : BoundsReport n (if s.smallLen < 2 then s.cfg.msgShort else s.cfg.msgProtocol) s) (h : execDataNoflag s = .next t) :
    KeepsFrame n 1 s t := by
  unfold execDataNoflag at h
  split at h
  · next hl =>
    rw [if_pos hl] at hn
    exact raiseError_keepsFrame (k := .frameTooShort s.smallLen) hn h
  · next hl =>
    rw [if_neg hl] at hn
    obtain ⟨b0, -, h⟩ := withValue_eq_next.1 h
    exact raiseError_keepsFrame (k := .protocolFlagMissing b0) hn h

theorem deliver_keepsFrame (h : deliver s = .next t) : KeepsFrame s.cfg.bigCap 1 s t := by
  obtain ⟨b0, -, h⟩ := withValue_eq_next.1 h
  split at h
  · exact raiseError_keepsFrame id h
  · rcases sendPayload_next h with ⟨-, rfl⟩ | ⟨-, bs, -, rfl⟩
    · exact .refl
    · exact (emit_keepsFrame _ rfl).mono (Nat.zero_le 1)

theorem checkCrc_keepsFrame (h : checkCrc s = .next t) : KeepsFrame s.cfg.bigCap 1 s t := by
  obtain ⟨body, -, h⟩ := withValue_eq_next.1 h
  obtain ⟨_, -, h⟩ := withValue_eq_next.1 h
  obtain ⟨_, -, h⟩ := withValue_eq_next.1 h
  have hcrc : KeepsFrame s.cfg.bigCap 0 s (crcRun body { s with crc := crcSeed }) := crc_keepsFrame s _
  split at h
  · exact hcrc.trans (raiseError_keepsFrame id h)
  · exact hcrc.trans (deliver_keepsFrame h)

theorem execDataFlex_keepsFrame (h : execDataFlex s = .next t) : KeepsFrame s.cfg.bigCap 1 s t := by
  unfold execDataFlex at h
  split at h
  · exact raiseError_keepsFrame id h
  · exact checkCrc_keepsFrame h

theorem dispatchCommand_keepsFrame {b0 : Byte} (h : dispatchCommand b0 s = .next t) : KeepsFrame s.cfg.bigCap 1 s t := by
  rcases dispatchCommand_runs b0 s with hc | hc | hc | ⟨-, -, hc⟩ <;> rw [hc] at h
  · exact execDataFlex_keepsFrame h
  · exact execDataNoflag_keepsFrame id h
  · exact execReset_keepsFrame id h
  · exact diag_keepsFrame id h

theorem dispatch_keepsFrame (h : dispatch s = .next t) : KeepsFrame s.cfg.bigCap 1 s t := by
  rcases dispatch_next h with ⟨-, h⟩ | ⟨-, b0, -, h⟩
  · exact emptyFrame_keepsFrame id h
  · exact dispatchCommand_keepsFrame h

end dispatcher

/-- Settles O38: a dispatch and its commands send at most one report, and the closing delimiter's own writes are the parser state and
the phase (R173). -/
theorem dispatchWritesNoFrameByte : Obligations.DispatchWritesNoFrameByte := by
  unfold Obligations.DispatchWritesNoFrameByte
  intro s t i hi h
  have hkeeps : i = .adFend ∨ KeepsFrame s.cfg.bigCap 1 s t := by
    rcases hi with rfl | rfl | rfl | ⟨b0, rfl⟩
    · exact .inr (dispatch_keepsFrame h)
    · exact .inr (emptyFrame_keepsFrame id h)
    · exact .inl rfl
    · rw [← dispatchCommand_eq_exec] at h
      exact .inr (dispatchCommand_keepsFrame h)
  rcases hkeeps with rfl | hk
  · obtain ⟨u, hu, rfl⟩ := execAdFend_next h
    have hk := dispatch_keepsFrame hu
    exact ⟨hk.small, hk.smallLen, hk.serialReceive, hk.serialPeek, hk.cfg, hk.table, fun hne => absurd rfl hne, hk.big,
      hk.newEvents_sent⟩
  · exact ⟨hk.small, hk.smallLen, hk.serialReceive, hk.serialPeek, hk.cfg, hk.table, fun _ => ⟨hk.pstate, hk.phase⟩, hk.big,
      hk.newEvents_sent⟩

/-! ### The operations that send one report -/

/-- A low nibble that is neither 0 nor 0xF is an unknown command's (R67). -/
theorem cmdOf_unknown {b : Byte} (h0 : b &&& 0x0F ≠ 0x00) (hF : b &&& 0x0F ≠ 0x0F) : cmdOf b ≠ 0 ∧ cmdOf b ≠ 0xF := by
  rw [and_lowMask] at h0 hF
  exact ⟨fun h => h0 (by rw [h]; rfl), fun h => hF (by rw [h]; rfl)⟩

theorem exec_unknown {b : Byte} (h0 : cmdOf b ≠ 0) (hF : cmdOf b ≠ 0xF) (s : State) :
    exec (decodeCommand b) s = diag (msgUnknown s.cfg (cmdOf b)) s := by
  rw [(decodeCommand_nibble h0).meaning, if_neg hF, execUnknown_eq h0 hF]
  rfl

/-- An operation that is neither DIAG nor an unknown command's, by its code. -/
theorem not_diag_or_unknown {i : Instr} {text : Text} (hd : i ≠ .diag text)
    (hi : ∀ b, encode i = some (.command b) → cmdOf b = 0 ∨ cmdOf b = 0xF) :
    ¬ (i = .diag text ∨ ∃ b, i = decodeCommand b ∧ b &&& 0x0F ≠ 0x00 ∧ b &&& 0x0F ≠ 0x0F) := by
  rintro (h | ⟨b, rfl, h0, hF⟩)
  · exact hd h
  · obtain ⟨h0', hF'⟩ := cmdOf_unknown h0 hF
    exact (hi b (isCodeOf_decodeCommand b).code).elim h0' hF'

/-- Settles O48, by the operation: each sends at most its own report. That the latch stays is claimed of DIAG and the unknown commands
alone, which write no indicator (R150, R214). -/
theorem frameOfReportingOperations : Obligations.FrameOfReportingOperations := by
  unfold Obligations.FrameOfReportingOperations
  intro s t i text hi h
  rcases hi with rfl | ⟨b, rfl, rfl⟩ | ⟨hi, rfl, rfl⟩ | ⟨rfl, rfl⟩ | ⟨port, b4, rfl, rfl⟩ | ⟨b, h0, hF, rfl, rfl⟩
  · obtain rfl := diag_next h
    have hk := afterDiag_keepsFrame (s := s) (text := text) le_rfl
    exact ⟨hk.cfg, hk.table, hk.phase, hk.small, hk.smallLen, fun _ => hk.pstate, fun _ => ⟨rfl, rfl⟩, hk.big, fun _ => rfl⟩
  · obtain ⟨rfl, -⟩ := execEscBad_next h
    have hk := afterError_keepsFrame (s := s) (k := .invalidEscapeSequence b) le_rfl
    exact ⟨hk.cfg, hk.table, hk.phase, hk.small, hk.smallLen, fun hne => absurd rfl (hne b), fun _ => ⟨rfl, rfl⟩, hk.big,
      fun hr => absurd hr (not_diag_or_unknown (by simp) fun _ hc => by cases hc)⟩
  · have hk := execReset_keepsFrame (fun _ => le_rfl) h
    exact ⟨hk.cfg, hk.table, hk.phase, hk.small, hk.smallLen, fun _ => hk.pstate, fun hne => absurd rfl (hne hi), hk.big,
      fun hr => absurd hr (not_diag_or_unknown (by simp) fun _ hc => by cases hc; simp)⟩
  · have hk := emptyFrame_keepsFrame (fun _ => le_rfl) h
    have henv : t.ports = s.ports ∧ t.draws = s.draws := by
      rcases emptyFrame_next h with ⟨-, rfl⟩ | ⟨-, rfl⟩ <;> exact ⟨rfl, rfl⟩
    exact ⟨hk.cfg, hk.table, hk.phase, hk.small, hk.smallLen, fun _ => hk.pstate, fun _ => henv, hk.big,
      fun hr => absurd hr (not_diag_or_unknown (by simp) fun _ hc => by cases hc)⟩
  · have hk := execDataNoflag_keepsFrame (fun _ => le_rfl) h
    have henv : t.ports = s.ports ∧ t.draws = s.draws := by
      rcases execDataNoflag_next h with ⟨-, rfl⟩ | ⟨-, b0, -, rfl⟩ <;> exact ⟨rfl, rfl⟩
    exact ⟨hk.cfg, hk.table, hk.phase, hk.small, hk.smallLen, fun _ => hk.pstate, fun _ => henv, hk.big,
      fun hr => absurd hr (not_diag_or_unknown (by simp) fun _ hc => by cases hc; simp)⟩
  · obtain ⟨h0', hF'⟩ := cmdOf_unknown h0 hF
    rw [exec_unknown h0' hF'] at h
    obtain rfl := diag_next h
    have hk := afterDiag_keepsFrame (s := s) (text := msgUnknown s.cfg (cmdOf b)) le_rfl
    exact ⟨hk.cfg, hk.table, hk.phase, hk.small, hk.smallLen, fun _ => hk.pstate, fun _ => ⟨rfl, rfl⟩, hk.big, fun _ => rfl⟩

end Sys2Proof.Machine
end

section
/-! PROOFS. The frame parser's family: what each of its operations leaves, and what it leaves unchanged. -/

namespace Sys2Proof.Machine

/-! ### The operations that store a byte (R174, R176 to R178) -/

theorem append_frameFits {v : Byte} {s : State} {goOn : State → State} (hl : s.smallLen = s.cfg.smallCap)
    (hf : frameFits (diagPayload s.cfg s.cfg.msgOverflow) s) :
    append v s goOn = .next
      { afterError (.bufferOverflowDuringParse s.cfg.smallCap) s with pstate := .overflow, phase := .pollRadio } := by
  rw [append_full hl, overflow, raiseError_fits (k := .bufferOverflowDuringParse s.cfg.smallCap) hf, andThen_next]

theorem exec_escTfend (s : State) : exec .escTfend s = append fend s toAwaitingData := rfl

theorem exec_escTfesc (s : State) : exec .escTfesc s = append fesc s toAwaitingData := rfl

theorem exec_adData (b : Byte) (s : State) : exec (.adData b) s = append b s fun s' => s' := rfl

/-- Each storing operation appends a byte and then moves at most the parser state. -/
theorem exec_storing {i : Instr} (hi : i = .escTfend ∨ i = .escTfesc ∨ ∃ b, i = .adData b) :
    ∃ (v : Byte) (goOn : State → State), (∀ s, exec i s = append v s goOn) ∧ ∀ s, ∃ ps, goOn s = { s with pstate := ps } := by
  rcases hi with rfl | rfl | ⟨b, rfl⟩
  · exact ⟨fend, toAwaitingData, exec_escTfend, fun _ => ⟨.awaitingData, rfl⟩⟩
  · exact ⟨fesc, toAwaitingData, exec_escTfesc, fun _ => ⟨.awaitingData, rfl⟩⟩
  · exact ⟨b, fun s' => s', exec_adData b, fun s => ⟨s.pstate, rfl⟩⟩

/-- Settles O21: with room the byte is appended. -/
theorem parserStoresBytes : Obligations.ParserStoresBytes := by
  unfold Obligations.ParserStoresBytes
  exact fun s hl => ⟨fun b => (exec_adData b s).trans (append_room hl), (exec_escTfend s).trans (append_room hl),
    (exec_escTfesc s).trans (append_room hl)⟩

/-- Settles O22: on a full SMALL each of them takes the append's overflow, whatever its rule would go on with. -/
theorem parserOverflowEndsParse : Obligations.ParserOverflowEndsParse := by
  unfold Obligations.ParserOverflowEndsParse
  intro s hl hf i hi
  obtain ⟨v, goOn, hexec, -⟩ := exec_storing hi
  exact (hexec s).trans (append_frameFits hl hf)

/-- Settles O47, by whether SMALL is full: the overflow writes BIG through its report alone, an append with room writes one byte. -/
theorem frameOfStoringOperations : Obligations.FrameOfStoringOperations := by
  unfold Obligations.FrameOfStoringOperations
  intro s t i hi h
  obtain ⟨v, goOn, hexec, hgoOn⟩ := exec_storing hi
  rw [hexec] at h
  rcases append_next h with ⟨hfull, rfl⟩ | ⟨hroom, ht⟩
  · exact ⟨rfl, rfl, rfl, rfl, fun _ _ => rfl, fun hne => absurd hfull hne, fun _ => ⟨fun _ => rfl, rfl, fun _ ha =>
      afterError_big_above (k := .bufferOverflowDuringParse s.cfg.smallCap) ha⟩⟩
  · obtain ⟨ps, hps⟩ := hgoOn { s with small := Memory.write s.small s.smallLen v, smallLen := s.smallLen + 1 }
    obtain rfl := ht.trans hps
    exact ⟨rfl, rfl, rfl, rfl, fun _ ha => Memory.read_write_other ha, fun _ => ⟨fun _ => rfl, rfl, rfl, rfl, rfl, rfl⟩,
      fun hfull => absurd hfull hroom.ne⟩

/-! ### The other operations -/

/-- Settles O20: each operation is its one next state. -/
theorem parserQuietOperations : Obligations.ParserQuietOperations := by
  unfold Obligations.ParserQuietOperations
  exact fun s => ⟨rfl, rfl, fun _ => rfl, rfl, rfl⟩

theorem exec_escBad (b : Byte) {s : State} (hf : frameFits (diagPayload s.cfg s.cfg.msgEscape) s) :
    exec (.escBad b) s = .next (toAwaitingData (afterError (.invalidEscapeSequence b) s)) := by
  have hr : raiseError (.invalidEscapeSequence b) s = _ := raiseError_fits hf
  simp only [exec, execEscBad, hr, andThen_next]

/-- Settles O23: after the error procedure, which writes neither SMALL nor the phase, the parser is back in AwaitingData. -/
theorem invalidEscapeGoesOn : Obligations.InvalidEscapeGoesOn := by
  unfold Obligations.InvalidEscapeGoesOn
  exact fun b s hf => ⟨_, exec_escBad b hf, rfl, rfl, rfl, rfl⟩

/-- Settles O24: the phase is set after the dispatch. -/
theorem closingDelimiterDispatches : Obligations.ClosingDelimiterDispatches := by
  unfold Obligations.ClosingDelimiterDispatches
  intro s t h
  have hd : dispatch { s with pstate := .done } = .next t := h
  simp only [exec, execAdFend, hd, andThen_next]

end Sys2Proof.Machine
end

section
/-! PROOFS. The frame parser on scripted inputs: what its operations leave, and a stuffed content parsed byte by byte (R126). -/

namespace Sys2Proof.Machine

/-! ### Runs -/

/-- A run of one step more, taken apart. -/
theorem step_of_run_succ {s t : State} {k : Nat} (h : Host.Core.run core (k + 1) s = .next t) :
    ∃ s', step s = .next s' ∧ Host.Core.run core k s' = .next t := by
  cases hs : step s with
  | next s' =>
    rw [run_succ hs] at h
    exact ⟨s', rfl, h⟩
  | fault e | refused e =>
    have hc : core.step s = _ := hs
    simp only [Host.Core.run, hc] at h
    cases h

/-- A run goes on from the state that its first part ends in. -/
theorem run_append {s t : State} {k : Nat} (h : Host.Core.run core k s = .next t) (m : Nat) :
    Host.Core.run core (k + m) s = Host.Core.run core m t := by
  induction k generalizing s with
  | zero =>
    obtain rfl : s = t := Host.Outcome.next.inj h
    rw [Nat.zero_add]
  | succ k ih =>
    obtain ⟨s', hs, hr⟩ := step_of_run_succ h
    rw [Nat.succ_add, run_succ hs, ih hr]

theorem run_one {s t : State} (h : step s = .next t) : Host.Core.run core 1 s = .next t := run_succ h 0

/-- Two steps, one after the other. -/
theorem run_two {s t u : State} (h : step s = .next t) (h' : step t = .next u) : Host.Core.run core 2 s = .next u :=
  (run_succ h 1).trans (run_one h')

/-- A run is a chain of elementary updates. -/
theorem run_updates {s t : State} {k : Nat} (h : Host.Core.run core k s = .next t) : Updates s t := by
  induction k generalizing s with
  | zero =>
    obtain rfl : s = t := Host.Outcome.next.inj h
    exact .refl
  | succ k ih =>
    obtain ⟨s', hs, hr⟩ := step_of_run_succ h
    exact (step_updates hs).trans (ih hr)

/-! ### Steps on scripted inputs (R181) -/

/-- The state after the serial port's next input is taken, with `rest` in store behind it. -/
def inputTaken (rest : List SerialInput) (s : State) : State :=
  { s with ports := { s.ports with serialReceive := rest, serialWait := none } }

theorem inputTaken_updates (rest : List SerialInput) (s : State) : Updates s (inputTaken rest s) :=
  .single (.env _ s.draws s.rxInd s.txInd)

/-- A parse under the boot constraints, in the parser state `ps`, with `inputs` in store at the serial port. -/
structure Reads (ps : PState) (inputs : List SerialInput) (s : State) : Prop where
  valid : validConfig s.cfg = true
  phase : s.phase = .parse
  pstate : s.pstate = ps
  inputs : s.ports.serialReceive = inputs

/-- A step of such a parse is the operation that its first input decodes to. -/
theorem Reads.step_runs {ps : PState} {x : SerialInput} {rest : List SerialInput} {s t : State} {i : Instr}
    (h : Reads ps (x :: rest) s) (hd : decodeParser ps x = .ok i) (he : exec i (inputTaken rest s) = .next t) :
    step s = .next (redrawIndicators t) := by
  rw [step_of_input h.valid h.phase (takeSerial_cons h.inputs) (h.pstate ▸ hd)]
  exact congrArg (andThen · _) he

/-- The state after the step that takes FESC inside a frame (R175). -/
def escapeTaken (rest : List SerialInput) (s : State) : State :=
  redrawIndicators { inputTaken rest s with pstate := .escaped }

theorem Reads.step_escape {rest : List SerialInput} {s : State} (h : Reads .awaitingData (.byte fesc :: rest) s) :
    step s = .next (escapeTaken rest s) ∧ Reads .escaped rest (escapeTaken rest s) :=
  ⟨h.step_runs (i := .adFesc) rfl rfl, h.valid, h.phase, rfl, rfl⟩

/-- Settles O26: FEND after FESC is an invalid escape, whose report fits under the boot constraints (R151). -/
theorem escapedDelimiterDoesNotEndFrame : Obligations.EscapedDelimiterDoesNotEndFrame := by
  unfold Obligations.EscapedDelimiterDoesNotEndFrame
  intro s rest hv htable hp hps hin
  have h : Reads .awaitingData (.byte fesc :: .byte fend :: rest) s := ⟨hv, hp, hps, hin⟩
  obtain ⟨hesc, hr⟩ := h.step_escape
  have hfits : frameFits (diagPayload s.cfg s.cfg.msgEscape) s := report_fits (k := .invalidEscapeSequence fend) hv htable trivial
  have hbad := hr.step_runs (i := .escBad fend) rfl (exec_escBad fend hfits)
  exact ⟨_, run_two hesc hbad, hp, rfl, rfl, rfl, rfl, List.append_assoc ..⟩

/-! ### The content of a frame (R126) -/

/-- From `s` to `t` a parse has taken inputs up to `rest`, stored the content `c` behind what it had, and awaits data; it has emitted
nothing. -/
structure Received (c : List Byte) (rest : List SerialInput) (s t : State) : Prop where
  reads : Reads .awaitingData rest t
  cfg : t.cfg = s.cfg
  small : t.small = Memory.writeSpan s.small s.smallLen c
  smallLen : t.smallLen = s.smallLen + c.length
  trace : t.trace = s.trace

theorem Received.append {c d : List Byte} {mid rest : List SerialInput} {s t u : State} (h : Received c mid s t)
    (h' : Received d rest t u) : Received (c ++ d) rest s u where
  reads := h'.reads
  cfg := h'.cfg.trans h.cfg
  small := by rw [h'.small, h.small, h.smallLen, Memory.writeSpan_append]
  smallLen := by rw [h'.smallLen, h.smallLen, List.length_append, Nat.add_assoc]
  trace := h'.trace.trans h.trace

/-- A byte that needs no escape is stored in one step (R174). -/
theorem run_literal {b : Byte} {rest : List SerialInput} {s : State} (h : Reads .awaitingData (.byte b :: rest) s)
    (hl : s.smallLen < s.cfg.smallCap) (hb : b ≠ fend) (hb' : b ≠ fesc) :
    ∃ t, Host.Core.run core 1 s = .next t ∧ Received [b] rest s t := by
  have hd : decodeParser .awaitingData (.byte b) = .ok (.adData b) := by
    rw [decodeParser, if_neg hb, if_neg hb']
  have hstore := h.step_runs hd ((exec_adData b _).trans (append_room hl))
  exact ⟨_, run_one hstore, ⟨h.valid, h.phase, h.pstate, rfl⟩, rfl, rfl, rfl, rfl⟩

/-- FESC and a second byte `e` that stands for `v` store `v` in two steps (R175 to R177). -/
theorem run_escape {v e : Byte} {i : Instr} {rest : List SerialInput} {s : State}
    (h : Reads .awaitingData (.byte fesc :: .byte e :: rest) s) (hl : s.smallLen < s.cfg.smallCap)
    (hd : decodeParser .escaped (.byte e) = .ok i) (hi : ∀ u, exec i u = append v u toAwaitingData) :
    ∃ t, Host.Core.run core 2 s = .next t ∧ Received [v] rest s t := by
  obtain ⟨hesc, hr⟩ := h.step_escape
  have hstore := hr.step_runs hd ((hi _).trans (append_room hl))
  exact ⟨_, run_two hesc hstore, ⟨h.valid, h.phase, rfl, rfl⟩, rfl, rfl, rfl, rfl⟩

/-- The stuffer's output for a byte stores that byte (R120). -/
theorem run_stuff (b : Byte) {rest : List SerialInput} {s : State}
    (h : Reads .awaitingData ((stuff b).map .byte ++ rest) s) (hl : s.smallLen < s.cfg.smallCap) :
    ∃ t, Host.Core.run core (stuff b).length s = .next t ∧ Received [b] rest s t := by
  by_cases hb : b = fend
  · subst hb
    exact run_escape h hl rfl exec_escTfend
  · by_cases hb' : b = fesc
    · subst hb'
      exact run_escape h hl rfl exec_escTfesc
    · rw [stuff_of_ne hb hb'] at h ⊢
      exact run_literal h hl hb hb'

/-- A stuffed content that fits SMALL is stored as it was before the stuffing, and nothing else happens. -/
theorem run_stuffed {c : List Byte} {rest : List SerialInput} {s : State}
    (h : Reads .awaitingData ((stuffed c).map .byte ++ rest) s) (hl : s.smallLen + c.length ≤ s.cfg.smallCap) :
    ∃ t, Host.Core.run core (stuffed c).length s = .next t ∧ Received c rest s t := by
  induction c generalizing s with
  | nil => exact ⟨s, rfl, h, rfl, rfl, rfl, rfl⟩
  | cons b c ih =>
    rw [List.length_cons] at hl
    rw [stuffed_cons, List.map_append, List.append_assoc] at h
    obtain ⟨t, ht, hb⟩ := run_stuff b h (by omega)
    obtain ⟨u, hu, hc⟩ := ih hb.reads (by rw [hb.cfg, hb.smallLen, List.length_singleton]; omega)
    refine ⟨u, ?_, hb.append hc⟩
    rw [stuffed_cons, List.length_append, run_append ht, hu]

/-- From AwaitingFirstDelimiter the opening delimiter comes before the content (R171). -/
theorem run_opened {c : List Byte} {rest : List SerialInput} {s : State}
    (h : Reads .awaitingFirstDelimiter (.byte fend :: (stuffed c).map .byte ++ rest) s)
    (hl : s.smallLen + c.length ≤ s.cfg.smallCap) :
    ∃ t, Host.Core.run core (1 + (stuffed c).length) s = .next t ∧ Received c rest s t := by
  have hopen := h.step_runs (i := .afdFend) rfl rfl
  obtain ⟨t, ht, hc⟩ := run_stuffed (c := c) (rest := rest)
    (s := redrawIndicators (toAwaitingData (inputTaken ((stuffed c).map .byte ++ rest) s))) ⟨h.valid, h.phase, rfl, rfl⟩ hl
  exact ⟨t, (run_append (run_one hopen) _).trans ht, hc.reads, hc.cfg, hc.small, hc.smallLen, hc.trace⟩

/-- From an empty SMALL what is received is what SMALL then holds. -/
theorem Received.smallBytes {c : List Byte} {rest : List SerialInput} {s t : State} (h : Received c rest s t)
    (h0 : s.smallLen = 0) : smallBytes t = some c := by
  have hlen : t.smallLen = c.length := by rw [h.smallLen, h0, Nat.zero_add]
  have hspan := readSmallSpan_writeSpan (m := s.small) (h0 ▸ h.small) hlen
  rw [Machine.smallBytes, hlen, hspan]

/-- The bytes of SMALL depend on SMALL and its length alone. -/
theorem smallBytes_congr {s t : State} (hs : t.small = s.small) (hl : t.smallLen = s.smallLen) : smallBytes t = smallBytes s := by
  have hr : readSmallSpan 0 s.smallLen t = readSmallSpan 0 s.smallLen s :=
    readSpan_congr (fun j => by rw [readSmall, readSmall, hs, hl]) _ _
  rw [smallBytes, smallBytes, hl, hr]

/-- The closing delimiter ends a legal parse in Done, after a dispatch that leaves the frame in SMALL (R173, R215, R235). -/
theorem step_closed {rest : List SerialInput} {s : State} (hs : s.Stored) (h : Reads .awaitingData (.byte fend :: rest) s) :
    ∃ u, step s = .next u ∧ u.phase = .pollRadio ∧ u.pstate = .done ∧ smallBytes u = smallBytes s ∧
      u.ports.serialReceive = rest := by
  have hu : Updates s { inputTaken rest s with pstate := .done } :=
    (inputTaken_updates rest s).tail (.control s.phase .done)
  obtain ⟨v, hv⟩ := (hu.ready ⟨hs, h.valid⟩).dispatch
  have he := closingDelimiterDispatches (inputTaken rest s) v hv
  have hk := dispatch_keepsFrame hv
  exact ⟨_, h.step_runs rfl he, rfl, hk.pstate, smallBytes_congr hk.small hk.smallLen, hk.serialReceive⟩

/-- Settles O27, by induction on the content: the stuffer's output for each byte stores that byte. -/
theorem stuffedFrameRoundTrip : Obligations.StuffedFrameRoundTrip := by
  unfold Obligations.StuffedFrameRoundTrip
  intro s c rest hv hs hp hps h0 hc hin
  have hr : Reads .awaitingFirstDelimiter (.byte fend :: (stuffed c).map .byte ++ (.byte fend :: rest)) s :=
    ⟨hv, hp, hps, hin.trans (by simp [fend])⟩
  obtain ⟨t, ht, hrec⟩ := run_opened hr (by omega)
  have hstored := (run_updates ht).keeps (fun _ _ => Update.stored) ⟨hs.small, hs.big, hs.table⟩
  obtain ⟨u, hu, hphase, hpstate, hbytes, hrest⟩ := step_closed hstored hrec.reads
  refine ⟨⟨t, ht, hrec.reads.phase, hrec.reads.pstate, hrec.smallBytes h0, hrec.trace⟩, u, ?_, hphase, hpstate,
    hbytes.trans (hrec.smallBytes h0), hrest⟩
  rw [show 2 + (stuffed c).length = 1 + (stuffed c).length + 1 by omega, run_append ht, run_one hu]

end Sys2Proof.Machine
end

section
/-! PROOFS. A parse's waits and its radio: every wait ends (R185), and the radio is called by the closing delimiter's dispatch alone
(R182, R295). -/

namespace Sys2Proof.Machine

/-! ### The wait -/

/-- The steps a wait on the serial port may still last (log entry 4). -/
def waitLeft (s : State) : Nat := s.ports.serialWait.getD (Config.freeSerialWait s.draws)

/-- From `s` to `t` nothing has changed of the parse, the parameters or the trace. -/
structure SameParse (s t : State) : Prop where
  cfg : t.cfg = s.cfg
  phase : t.phase = s.phase
  pstate : t.pstate = s.pstate
  small : t.small = s.small
  smallLen : t.smallLen = s.smallLen
  trace : t.trace = s.trace

theorem SameParse.refl {s : State} : SameParse s s := ⟨rfl, rfl, rfl, rfl, rfl, rfl⟩

/-- A wait with `n` steps left ends within them: nothing of the parse has changed, and an input is offered. -/
theorem run_wait {n : Nat} {s : State} (hv : validConfig s.cfg = true) (hp : s.phase = .parse)
    (hi : PState.takesInput s.pstate = true) (hn : waitLeft s = n) :
    ∃ k ≤ n, ∃ t x, Host.Core.run core k s = .next t ∧ SameParse s t ∧ (takeSerial t).1 = some x := by
  induction n generalizing s with
  | zero =>
    cases hx : (takeSerial s).1 with
    | none =>
      obtain ⟨m, hm, -⟩ := takeSerial_none hx
      exact absurd (hm.symm.trans hn) (Nat.succ_ne_zero m)
    | some x => exact ⟨0, le_rfl, s, x, rfl, .refl, hx⟩
  | succ n ih =>
    cases hx : (takeSerial s).1 with
    | none =>
      obtain ⟨m, hm, hs⟩ := takeSerial_none hx
      obtain rfl : n = m := Nat.succ.inj (hn.symm.trans hm)
      have hstep := step_of_wait hv hp hi (s1 := (takeSerial s).2) (Prod.ext hx rfl)
      obtain ⟨k, hk, t, x, hrun, hsame, htake⟩ := ih (s := redrawIndicators (takeSerial s).2) hv hp hi (by rw [hs]; rfl)
      exact ⟨k + 1, Nat.succ_le_succ hk, t, x, (run_succ hstep k).trans hrun,
        ⟨hsame.cfg, hsame.phase, hsame.pstate, hsame.small, hsame.smallLen, hsame.trace⟩, htake⟩
    | some x => exact ⟨0, Nat.zero_le _, s, x, rfl, .refl, hx⟩

/-- Settles O33, by induction on the steps the wait has left. -/
theorem parseNeverWaitsForever : Obligations.ParseNeverWaitsForever := by
  unfold Obligations.ParseNeverWaitsForever
  intro s hv hp hi
  obtain ⟨k, hk, t, x, hrun, ⟨hcfg, hphase, hpstate, hsmall, hlen, htrace⟩, htake⟩ := run_wait hv hp hi rfl
  obtain ⟨i, hd⟩ := decodeParser_total hi x
  refine ⟨k, hk, t, x, i, hrun, hphase.trans hp, hpstate, hsmall, hlen, htrace, htake, hd, fun u hu => ?_⟩
  rw [step_of_input (hcfg ▸ hv) (hphase.trans hp) (s1 := (takeSerial t).2) (Prod.ext htake rfl) (hpstate ▸ hd), hu, andThen_next]

/-! ### The radio -/

/-- An event of a radio call (R31). -/
def Event.isRadio : Event → Bool
  | .radRx _ _ => true
  | .radTx _ => true
  | .radRst _ => true
  | .serTx _ => false
  | .err _ => false
  | .timeout => false

/-- From `s` to `t` the radio is called at most `n` times and asked for no bytes. It speaks of the trace and the radio's
answers alone, so it is the same proposition of states that agree with these in both. -/
def CallsRadio (n : Nat) (s t : State) : Prop :=
  t.ports.radioPeek = s.ports.radioPeek ∧ t.ports.radioReceive = s.ports.radioReceive ∧
  (n = 0 → t.ports.radioReset = s.ports.radioReset) ∧
  ∃ es, t.trace = s.trace ++ es ∧ (∀ p d, .radRx p d ∉ es) ∧ (es.filter Event.isRadio).length ≤ n

section radio
variable {s t : State}

theorem CallsRadio.mono {n m : Nat} (h : CallsRadio n s t) (hn : n ≤ m) : CallsRadio m s t := by
  obtain ⟨hpeek, hreceive, hreset, es, ht, hrx, hes⟩ := h
  exact ⟨hpeek, hreceive, fun h0 => hreset (by omega), es, ht, hrx, hes.trans hn⟩

theorem CallsRadio.refl : CallsRadio 0 s s := ⟨rfl, rfl, fun _ => rfl, [], by simp⟩

theorem afterDiag_callsRadio (text : Text) (s : State) : CallsRadio 0 s (afterDiag text s) :=
  ⟨rfl, rfl, fun _ => rfl, [.serTx _], rfl, by simp, le_rfl⟩

theorem afterError_callsRadio (k : ErrorKind) (s : State) : CallsRadio 0 s (afterError k s) :=
  ⟨rfl, rfl, fun _ => rfl, [.serTx _, .err true], List.append_assoc .., by simp, le_rfl⟩

/-- A dispatch sends one payload, or asks for one reset, or calls the radio not at all (R182, R207, R211). -/
theorem dispatch_callsRadio (h : dispatch s = .next t) : CallsRadio 1 s t := by
  cases dispatch_cases h with
  | ignored _ ht =>
    subst ht
    exact CallsRadio.refl.mono (Nat.zero_le 1)
  | empty c ht =>
    subst ht
    exact CallsRadio.mono (n := 0) (CallsRadio.refl (s := s)) (Nat.zero_le 1)
  | sent c _ _ bs _ _ _ _ _ _ ht =>
    subst ht
    exact ⟨rfl, rfl, by simp, [.radTx bs], rfl, by simp, le_rfl⟩
  | failed k _ _ ht =>
    subst ht
    exact (afterError_callsRadio k s).mono (Nat.zero_le 1)
  | resetDone _ ht =>
    subst ht
    exact ⟨by simp, by simp, by simp, [.radRst true], by simp, by simp, le_rfl⟩
  | resetFailed _ _ ht =>
    subst ht
    exact ⟨by simp, by simp, by simp, .radRst false :: (List.replicate 3 [.err true, .err false]).flatten ++
      [.serTx (frame s.table (diagPayload s.cfg s.cfg.msgResetFail))], by simp [flash_trace], by simp, le_rfl⟩
  | unknown cmd _ _ _ ht =>
    subst ht
    exact (afterDiag_callsRadio _ s).mono (Nat.zero_le 1)

/-- No input of a parse calls the radio but the closing delimiter, which dispatches and leaves the parser in Done (R173). -/
theorem input_callsRadio (h : InputCase s t) : CallsRadio 0 s t ∨ (t.pstate = .done ∧ CallsRadio 1 s t) := by
  cases h with
  | timedOut ht => subst ht; exact .inl ⟨rfl, rfl, fun _ => rfl, [.timeout], rfl, by simp, le_rfl⟩
  | opened _ ht => subst ht; exact .inl (CallsRadio.refl (s := s))
  | skipped _ ht => subst ht; exact .inl .refl
  | escaping _ ht => subst ht; exact .inl (CallsRadio.refl (s := s))
  | closed u _ hu ht =>
    subst ht
    have hcalls := dispatch_callsRadio hu
    exact .inr ⟨(dispatch_keepsFrame hu).pstate, hcalls⟩
  | overflowed _ ht _ => subst ht; exact .inl (afterError_callsRadio (.bufferOverflowDuringParse s.cfg.smallCap) s)
  | stored _ _ ht => subst ht; exact .inl (CallsRadio.refl (s := s))
  | badEscape b _ ht _ => subst ht; exact .inl (afterError_callsRadio (.invalidEscapeSequence b) s)

/-- A step of a parse: a wait calls the radio not at all, and a parse that stands in Done dispatches (log entry 8). -/
theorem step_callsRadio (h : step s = .next t) (hp : s.phase = .parse) :
    CallsRadio 0 s t ∨ (t.pstate = .done ∧ CallsRadio 1 s t) := by
  obtain ⟨-, hc⟩ := step_cases h
  cases hc with
  | radio _ hp' _ _ | serial _ hp' _ _ => rw [hp] at hp'; cases hp'
  | dispatched u _ hd he ht =>
    subst ht
    have hcalls := dispatch_callsRadio he
    exact .inr ⟨(dispatch_keepsFrame he).pstate.trans hd, hcalls⟩
  | waited _ _ _ ht => subst ht; exact .inl (CallsRadio.refl (s := s))
  | input x i u _ _ _ hd he ht =>
    subst ht
    have hcalls := input_callsRadio (input_cases (s := (takeSerial s).2) hd he)
    exact hcalls

end radio

theorem length_filter_isRadRst_le (es : List Event) :
    (es.filter Event.isRadRst).length ≤ (es.filter Event.isRadio).length := by
  have himp (e : Event) (he : e.isRadRst = true) : e.isRadio = true := by
    cases e with
    | radRst _ => rfl
    | _ => cases he
  rw [← List.countP_eq_length_filter, ← List.countP_eq_length_filter]
  exact List.countP_mono_left fun e _ => himp e

/-- Settles O59: a step of a parse makes at most one radio call, and none where it leaves the parser out of Done. -/
theorem radioIsNotServedDuringParse : Obligations.RadioIsNotServedDuringParse := by
  unfold Obligations.RadioIsNotServedDuringParse
  intro s t h hp
  have hcalls := step_callsRadio h hp
  obtain ⟨hpeek, hreceive, -, es, htrace, hrx, hes⟩ : CallsRadio 1 s t :=
    hcalls.elim (fun hc => hc.mono (Nat.zero_le 1)) And.right
  have hnew {es : List Event} (htrace : t.trace = s.trace ++ es) : newEvents s t = es := by
    rw [newEvents, htrace, List.drop_left]
  refine ⟨hpeek, hreceive, hnew htrace ▸ hrx, fun hnd => ?_, hnew htrace ▸ (length_filter_isRadRst_le es).trans hes⟩
  obtain ⟨-, -, hreset, es', htrace', -, hes'⟩ := hcalls.resolve_right fun hd => hnd hd.1
  have hnone : ∀ e ∈ es', e.isRadio = false := by simpa using hes'
  refine ⟨hreset rfl, fun e he => ⟨fun d hd => ?_, fun ok hok => ?_⟩⟩
  · exact absurd (hnone e (hnew htrace' ▸ he)) (by simp [hd, Event.isRadio])
  · exact absurd (hnone e (hnew htrace' ▸ he)) (by simp [hok, Event.isRadio])

end Sys2Proof.Machine
end

section
/-! PROOFS. The delivery of a good data frame: its CRC matches, so its payload goes to the radio (R202 to R207). -/

namespace Sys2Proof.Machine

/-- The bits that select DATA_FLEX (R67). -/
theorem flexData_of_mask {b0 : Byte} (h : b0 &&& 0x2F = 0x20) : cmdOf b0 = 0 ∧ flexOf b0 = true := by
  constructor
  · calc cmdOf b0 = cmdOf (b0 &&& commandMask 0) := (cmdOf_and_commandMask b0 0).symm
      _ = 0 := by rw [show commandMask 0 = 0x2F from rfl, h]; rfl
  · calc flexOf b0 = (b0 &&& 0x2F).getLsbD 5 := by simp [flexOf]
      _ = true := by rw [h]; rfl

/-- The accumulator plays no part in a read of SMALL. -/
theorem readSmall_withCrc (i : Nat) (c : Word) (s : State) : readSmall i { s with crc := c } = readSmall i s := rfl

/-- A frame of a body and its own CRC passes the check, which leaves the CRC in the accumulator (R203). -/
theorem checkCrc_matching {s : State} {body : List Byte} {k : Word} (hk : crcOf s.table crcSeed body = k)
    (h : smallBytes s = some (body ++ [hi8 k, lo8 k])) : checkCrc s = deliver { s with crc := k } := by
  have hlen : s.smallLen = body.length + 2 := (smallBytes_length h).symm.trans List.length_append
  have hbody : readSmallSpan 0 (s.smallLen - 2) s = .ok body := by
    rw [hlen]
    exact readSmallSpan_of_smallBytes (pre := []) h
  have hcrc : crcRun body { s with crc := crcSeed } = { s with crc := k } := by rw [← hk]; rfl
  have hhi : readSmall (s.smallLen - 2) s = .ok (hi8 k) := by
    rw [hlen, readSmall_of_smallBytes h (by simp)]
    simp
  have hlo : readSmall (s.smallLen - 1) s = .ok (lo8 k) := by
    rw [hlen, readSmall_of_smallBytes h (by simp)]
    simp
  simp only [checkCrc, hbody, withValue_ok, hcrc, readSmall_withCrc, hhi, hlo, cat16_halves, ne_eq, not_true, if_false]

/-- What is delivered of a frame whose first byte is not 0 is all of it but that byte and the two of the CRC (R206, R207). -/
theorem deliver_payload {s : State} {b0 h l : Byte} {payload : List Byte} (hs : smallBytes s = some (b0 :: payload ++ [h, l]))
    (h0 : b0 ≠ 0) (hp : payload ≠ []) : deliver s = .next (emit (.radTx payload) s) := by
  have hlen : s.smallLen = payload.length + 3 := (smallBytes_length hs).symm.trans (by simp)
  have hfirst : readSmall 0 s = .ok b0 := readSmall_of_smallBytes hs (by simp)
  have hspan : readSmallSpan 1 payload.length s = .ok payload := readSmallSpan_of_smallBytes (pre := [b0]) hs
  have hcount : payloadLength b0 s.smallLen = some payload.length := by
    rw [payloadLength, if_pos h0, if_neg (by omega), hlen, Nat.add_sub_cancel]
  simp only [deliver, hfirst, withValue_ok, hcount, sendPayload, List.length_pos_iff.2 hp, if_true, hspan]

/-- DISPATCH of a good frame with the flex flag and a payload (R200, R202). -/
theorem dispatch_delivers {s : State} {b0 : Byte} {payload : List Byte} {k : Word}
    (hk : crcOf s.table crcSeed (b0 :: payload) = k) (hs : smallBytes s = some (b0 :: payload ++ [hi8 k, lo8 k]))
    (hb : b0 &&& 0x2F = 0x20) (hp : payload ≠ []) :
    dispatch s = .next (emit (.radTx payload) { s with crc := k }) := by
  obtain ⟨hcmd, hflex⟩ := flexData_of_mask hb
  have h0 : b0 ≠ 0 := by rintro rfl; cases hflex
  have hlen : ¬ s.smallLen < 2 := by rw [← smallBytes_length hs]; simp
  calc dispatch s = exec (decodeCommand b0) s := dispatchRunsDecodedCommand s b0 (readSmall_of_smallBytes hs (by simp))
    _ = execDataFlex s := by rw [decodeCommand_flex hcmd hflex]; rfl
    _ = checkCrc s := if_neg hlen
    _ = deliver { s with crc := k } := checkCrc_matching hk hs
    _ = .next (emit (.radTx payload) { s with crc := k }) := deliver_payload hs h0 hp

/-- Settles O25: the dispatch delivers the payload, and the closing delimiter runs it in Done. -/
theorem closingDelimiterDelivers : Obligations.ClosingDelimiterDelivers := by
  unfold Obligations.ClosingDelimiterDelivers
  intro s b0 payload hs hb hp
  have hdone := dispatch_delivers (s := { s with pstate := .done }) rfl hs hb hp
  exact ⟨dispatch_delivers rfl hs hb hp, closingDelimiterDispatches s _ hdone⟩

end Sys2Proof.Machine
end

section
/-! PROOFS. What the radio is sent: only a flagged data frame with a matching CRC reaches it, and only its payload (R217). -/

namespace Sys2Proof.Machine

/-! ### A good data frame -/

/-- SMALL holds a flagged data frame with a matching CRC and the payload `span` (R67, R202, R203), long enough to be sent (R208). -/
def HoldsGoodFrame (s : State) (span : List Byte) : Prop :=
  ∃ (b0 : Byte) (h l : Byte), smallBytes s = some (b0 :: span ++ [h, l]) ∧ b0 &&& 0x0F = 0x00 ∧ b0.getLsbD 5 = true ∧
    4 ≤ s.smallLen ∧ crcOf s.table 0xFFFF (b0 :: span) = cat16 h l

/-- The bytes of a frame are its command byte, its payload and its trailing two bytes, where these can be read. -/
theorem smallBytes_of_parts {s : State} {b0 h l : Byte} {span : List Byte} (hlen : s.smallLen = span.length + 3)
    (hb : readSmall 0 s = .ok b0) (hspan : readSmallSpan 1 span.length s = .ok span)
    (hh : readSmall (s.smallLen - 2) s = .ok h) (hl : readSmall (s.smallLen - 1) s = .ok l) :
    smallBytes s = some (b0 :: span ++ [h, l]) := by
  refine smallBytes_of_reads (by simp [hlen]) fun k hk => ?_
  have hk : k < span.length + 3 := hk.trans_eq (by simp)
  obtain rfl | ⟨j, hj, rfl⟩ | rfl | rfl :
      k = 0 ∨ (∃ j < span.length, k = 1 + j) ∨ k = s.smallLen - 2 ∨ k = s.smallLen - 1 := by
    by_cases h0 : k = 0
    · exact .inl h0
    · by_cases hj : k - 1 < span.length
      · exact .inr (.inl ⟨k - 1, hj, by omega⟩)
      · omega
  · exact hb
  · rw [readSpan_split hspan j hj]
    simp [Nat.add_comm 1 j, hj]
  · rw [hh]
    simp [hlen]
  · rw [hl]
    simp [hlen]

theorem lowNibble_of_cmdOf {b0 : Byte} (h : cmdOf b0 = 0) : b0 &&& 0x0F = 0x00 := by
  rw [and_lowMask, h]
  rfl

/-- The checks a dispatch makes before it sends are what a good frame is (R202, R203, R206). -/
theorem holdsGoodFrame_of_checks {s : State} {b0 h l : Byte} {n : Nat} {span body : List Byte}
    (hc : cmdOf b0 = 0 ∧ flexOf b0 = true) (hb : readSmall 0 s = .ok b0) (hn : payloadLength b0 s.smallLen = some n) (hp : 0 < n)
    (hspan : readSmallSpan 1 n s = .ok span) (hbody : readSmallSpan 0 (s.smallLen - 2) s = .ok body)
    (hh : readSmall (s.smallLen - 2) s = .ok h) (hl : readSmall (s.smallLen - 1) s = .ok l)
    (hk : crcOf s.table crcSeed body = cat16 h l) : HoldsGoodFrame s span := by
  obtain ⟨hcmd, hflex⟩ := hc
  have h0 : b0 ≠ 0 := by rintro rfl; cases hflex
  obtain rfl := readSpan_length hspan
  obtain ⟨hmin, hcount⟩ := payloadLength_nonzero h0 hn
  have hlen : s.smallLen = span.length + 3 := by omega
  have hs := smallBytes_of_parts hlen hb hspan hh hl
  have hchecked : readSmallSpan 0 (s.smallLen - 2) s = .ok (b0 :: span) := by
    rw [hlen]
    exact readSmallSpan_of_smallBytes (pre := []) hs
  obtain rfl := Except.ok.inj (hbody.symm.trans hchecked)
  exact ⟨b0, h, l, hs, lowNibble_of_cmdOf hcmd, hflex, by omega, hk⟩

/-! ### The sends of an operation -/

/-- From `s` to `t` the radio is sent only spans of which `P` holds. It speaks of the traces alone, so it is the same proposition of
states that agree in them. -/
def RadioSends (P : List Byte → Prop) (s t : State) : Prop :=
  ∃ es, t.trace = s.trace ++ es ∧ ∀ span, .radTx span ∈ es → P span

section sends
variable {P Q : List Byte → Prop} {s t u : State}

theorem RadioSends.newEvents (h : RadioSends P s t) {span : List Byte} (hspan : .radTx span ∈ newEvents s t) : P span := by
  obtain ⟨es, htrace, hes⟩ := h
  rw [Machine.newEvents, htrace, List.drop_left] at hspan
  exact hes span hspan

theorem RadioSends.imp (h : RadioSends P s t) (hPQ : ∀ span, P span → Q span) : RadioSends Q s t := by
  obtain ⟨es, htrace, hes⟩ := h
  exact ⟨es, htrace, fun span hspan => hPQ span (hes span hspan)⟩

theorem RadioSends.trans (h : RadioSends P s t) (h' : RadioSends P t u) : RadioSends P s u := by
  obtain ⟨es, ht, hes⟩ := h
  obtain ⟨es', hu, hes'⟩ := h'
  exact ⟨es ++ es', by rw [hu, ht, List.append_assoc],
    fun span hspan => (List.mem_append.1 hspan).elim (hes span) (hes' span)⟩

theorem RadioSends.of_trace_eq (h : t.trace = s.trace) : RadioSends P s t := ⟨[], by simp [h], by simp⟩

theorem afterDiag_radioSends (text : Text) (s : State) : RadioSends P s (afterDiag text s) := ⟨[.serTx _], rfl, by simp⟩

theorem afterError_radioSends (k : ErrorKind) (s : State) : RadioSends P s (afterError k s) :=
  ⟨[.serTx _, .err true], List.append_assoc .., by simp⟩

theorem unitStartClear_radioSends (s : State) : RadioSends P s (unitStartClear s) := by
  obtain ⟨clear, hclear, htrace⟩ := unitStartClear_trace s
  refine ⟨clear, htrace, fun span hspan => ?_⟩
  rcases hclear with rfl | rfl <;> simp at hspan

theorem relayReceived_radioSends (p : Nat) (s : State) : RadioSends P s (relayReceived p s) :=
  (unitStartClear_radioSends s).trans ⟨[.radRx p _], relayReceived_trace p s, by simp⟩

/-- A relay receives from the radio and sends it nothing (R142 to R148). -/
theorem relay_radioSends {p : Nat} (h : relay p s = .next t) : RadioSends P s t := by
  rcases relay_next h with ⟨-, rfl, -⟩ | ⟨-, rfl, -, -⟩ | ⟨-, -, -, rfl, -⟩
  · exact (unitStartClear_radioSends s).trans (afterError_radioSends _ _)
  · exact (relayReceived_radioSends p s).trans ⟨[.serTx _], rfl, by simp⟩
  · exact (relayReceived_radioSends p s).trans (afterError_radioSends _ (relayFull p s))

theorem execPollRadio_radioSends (h : execPollRadio s = .next t) : RadioSends P s t := by
  rcases execPollRadio_next h with ⟨-, rfl⟩ | ⟨-, u, hu, rfl⟩
  · exact .of_trace_eq (takeRadioPeek_trace s)
  · exact (RadioSends.of_trace_eq (takeRadioPeek_trace s)).trans ((relay_radioSends hu).trans (.of_trace_eq rfl))

theorem execPollSerial_radioSends (h : execPollSerial s = .next t) : RadioSends P s t := by
  rcases execPollSerial_next h with ⟨-, rfl⟩ | ⟨-, rfl⟩
  · exact (RadioSends.of_trace_eq (takeSerialPeek_trace s)).trans (unitStartClear_radioSends _)
  · exact .of_trace_eq (takeSerialPeek_trace s)

/-- A dispatch sends the radio the payload of a good frame and nothing else (R202 to R208). -/
theorem dispatch_radioSends (h : dispatch s = .next t) : RadioSends (HoldsGoodFrame s) s t := by
  cases dispatch_cases h with
  | ignored _ ht => exact ht ▸ .of_trace_eq rfl
  | empty c ht => exact ht ▸ .of_trace_eq rfl
  | sent c b0 n bs hc hb hn hp hr hk ht =>
    subst ht
    obtain ⟨body, hi, lo, hbody, hhi, hlo, hcrc⟩ := hk
    refine ⟨[.radTx bs], rfl, fun span hspan => ?_⟩
    obtain rfl : span = bs := by simpa using hspan
    exact holdsGoodFrame_of_checks hc hb hn hp hr hbody hhi hlo hcrc
  | failed k _ _ ht => exact ht ▸ afterError_radioSends k s
  | resetDone _ ht => exact ht ▸ ⟨[.radRst true], by simp, by simp⟩
  | resetFailed _ _ ht =>
    subst ht
    have hflash : RadioSends (HoldsGoodFrame s) s (flash 3 (emit (.radRst false) (takeRadioReset s).2)) :=
      ⟨.radRst false :: (List.replicate 3 [.err true, .err false]).flatten, by simp [flash_trace], by simp⟩
    exact hflash.trans (afterDiag_radioSends _ _)
  | unknown cmd _ _ _ ht => exact ht ▸ afterDiag_radioSends _ s

/-- Of a parse's inputs only the closing delimiter sends to the radio, by its dispatch (R173). -/
theorem input_radioSends (h : InputCase s t) : RadioSends (HoldsGoodFrame s) s t := by
  cases h with
  | timedOut ht => exact ht ▸ ⟨[.timeout], rfl, by simp⟩
  | opened _ ht => exact ht ▸ .of_trace_eq rfl
  | skipped _ ht => exact ht ▸ .of_trace_eq rfl
  | escaping _ ht => exact ht ▸ .of_trace_eq rfl
  | closed u _ hu ht =>
    have hsends : RadioSends (HoldsGoodFrame s) s u := dispatch_radioSends (s := { s with pstate := .done }) hu
    exact ht ▸ hsends.trans (.of_trace_eq rfl)
  | overflowed _ ht _ => exact ht ▸ afterError_radioSends (.bufferOverflowDuringParse s.cfg.smallCap) s
  | stored _ _ ht => exact ht ▸ .of_trace_eq rfl
  | badEscape b _ ht _ => exact ht ▸ afterError_radioSends (.invalidEscapeSequence b) s

/-- A step sends to the radio in a parse alone, and there the payload of a good frame alone. -/
theorem step_radioSends (h : step s = .next t) : RadioSends (fun span => s.phase = .parse ∧ HoldsGoodFrame s span) s t := by
  obtain ⟨-, hc⟩ := step_cases h
  cases hc with
  | radio u _ he ht => exact ht ▸ (execPollRadio_radioSends he).trans (.of_trace_eq rfl)
  | serial u _ he ht => exact ht ▸ (execPollSerial_radioSends he).trans (.of_trace_eq rfl)
  | dispatched u hp _ he ht =>
    exact ht ▸ ((dispatch_radioSends he).imp fun _ hgood => ⟨hp, hgood⟩).trans (.of_trace_eq rfl)
  | waited _ _ _ ht => exact ht ▸ .of_trace_eq rfl
  | input _ _ u hp _ _ hd he ht =>
    have hsends := input_radioSends (input_cases (s := (takeSerial s).2) hd he)
    exact ht ▸ (hsends.imp fun _ hgood => ⟨hp, hgood⟩).trans (.of_trace_eq rfl)

end sends

/-- Settles O37: the radio is sent what a dispatch sends, and a dispatch has checked all that makes a frame good. -/
theorem onlyGoodFramesReachTheRadio : Obligations.OnlyGoodFramesReachTheRadio := by
  unfold Obligations.OnlyGoodFramesReachTheRadio
  intro s t span h hspan
  refine ⟨fun hstep => ((step_radioSends hstep).newEvents hspan).1, ?_⟩
  rcases h with hd | hstep
  · exact (dispatch_radioSends hd).newEvents hspan
  · exact ((step_radioSends hstep).newEvents hspan).2

end Sys2Proof.Machine
end

section
/-! PROOFS. The dispatcher's commands: the state each leaves, by the frame it finds in SMALL and the answers it draws. -/

namespace Sys2Proof.Machine

/-! ### The choice of a command (R200) -/

/-- A frame with bytes has a first one to dispatch on. -/
theorem readSmall_zero_of_smallBytes {s : State} {b0 : Byte} {rest : List Byte} (hs : smallBytes s = some (b0 :: rest)) :
    readSmall 0 s = .ok b0 :=
  readSmall_of_smallBytes hs (Nat.zero_lt_succ _)

theorem cmdOf_of_lowNibble {b0 : Byte} (h : b0 &&& 0x0F = 0x00) : cmdOf b0 = 0 := by
  calc cmdOf b0 = cmdOf (b0 &&& commandMask 1) := (cmdOf_and_commandMask b0 1).symm
    _ = 0 := by rw [show commandMask 1 = 0x0F from rfl, h]; rfl

/-- The bits that select DATA_NOFLAG (R67). -/
theorem noflagData_of_mask {b0 : Byte} (h : b0 &&& 0x2F = 0x00) : cmdOf b0 = 0 ∧ flexOf b0 = false := by
  constructor
  · calc cmdOf b0 = cmdOf (b0 &&& commandMask 0) := (cmdOf_and_commandMask b0 0).symm
      _ = 0 := by rw [show commandMask 0 = 0x2F from rfl, h]; rfl
  · calc flexOf b0 = (b0 &&& 0x2F).getLsbD 5 := by simp [flexOf]
      _ = false := by rw [h]; rfl

theorem dispatch_flex {s : State} {b0 : Byte} (hb : readSmall 0 s = .ok b0) (hc : cmdOf b0 = 0) (hf : flexOf b0 = true) :
    exec .dispatch s = execDataFlex s := by
  rw [dispatchRunsDecodedCommand s b0 hb, decodeCommand_flex hc hf]
  rfl

theorem dispatch_noflag {s : State} {b0 : Byte} (hb : readSmall 0 s = .ok b0) (hc : cmdOf b0 = 0) (hf : flexOf b0 = false) :
    exec .dispatch s = execDataNoflag s := by
  rw [dispatchRunsDecodedCommand s b0 hb, decodeCommand_noflag hc hf]
  rfl

/-! ### The empty frame (R216) -/

/-- Settles O29, by the parameter. -/
theorem emptyFrameResult : Obligations.EmptyFrameResult := by
  unfold Obligations.EmptyFrameResult
  refine fun s => ⟨fun hl => if_pos hl, fun ha => ?_, fun ha hf => ?_⟩
  · simp only [exec, execEmptyFrame, emptyFrame, ha]
  · simp only [exec, execEmptyFrame, emptyFrame, ha]
    exact raiseError_fits hf

/-! ### The data commands (R201 to R208) -/

section data
variable {s : State}

theorem execDataFlex_short (hl : s.smallLen < 2) (hf : frameFits (diagPayload s.cfg s.cfg.msgShort) s) :
    execDataFlex s = .next (afterError (.frameTooShort s.smallLen) s) :=
  (if_pos hl).trans (raiseError_fits hf)

theorem execDataNoflag_short (hl : s.smallLen < 2) (hf : frameFits (diagPayload s.cfg s.cfg.msgShort) s) :
    execDataNoflag s = .next (afterError (.frameTooShort s.smallLen) s) :=
  (if_pos hl).trans (raiseError_fits hf)

theorem execDataFlex_long (hl : 2 ≤ s.smallLen) : execDataFlex s = checkCrc s := if_neg (Nat.not_lt.2 hl)

theorem execDataNoflag_long {b0 : Byte} (hl : 2 ≤ s.smallLen) (hb : readSmall 0 s = .ok b0)
    (hf : frameFits (diagPayload s.cfg s.cfg.msgProtocol) s) :
    execDataNoflag s = .next (afterError (.protocolFlagMissing b0) s) := by
  calc execDataNoflag s = withValue (readSmall 0 s) fun b0 => raiseError (.protocolFlagMissing b0) s := if_neg (Nat.not_lt.2 hl)
    _ = raiseError (.protocolFlagMissing b0) s := by rw [hb, withValue_ok]
    _ = .next (afterError (.protocolFlagMissing b0) s) := raiseError_fits hf

/-- A frame whose trailing two bytes are not the CRC of its body is reported (R203, R205). -/
theorem checkCrc_differing {body : List Byte} {h l : Byte} (hs : smallBytes s = some (body ++ [h, l]))
    (hne : crcOf s.table crcSeed body ≠ cat16 h l) (hf : frameFits (diagPayload s.cfg s.cfg.msgCrc) s) :
    checkCrc s = .next (afterError (.checksumMismatch (crcOf s.table crcSeed body)) s) := by
  have hlen : s.smallLen = body.length + 2 := (smallBytes_length hs).symm.trans List.length_append
  have hbody : readSmallSpan 0 (s.smallLen - 2) s = .ok body := by
    rw [hlen]
    exact readSmallSpan_of_smallBytes (pre := []) hs
  have hcrc : crcRun body { s with crc := crcSeed } = { s with crc := crcOf s.table crcSeed body } := rfl
  have hhi : readSmall (s.smallLen - 2) s = .ok h := by
    rw [hlen, readSmall_of_smallBytes hs (by simp)]
    simp
  have hlo : readSmall (s.smallLen - 1) s = .ok l := by
    rw [hlen, readSmall_of_smallBytes hs (by simp)]
    simp
  simp only [checkCrc, hbody, withValue_ok, hcrc, readSmall_withCrc, hhi, hlo, if_pos hne]
  exact raiseError_fits hf

/-- The delivery by the payload's length (R206). -/
theorem deliver_of_length {b0 : Byte} {n : Nat} (hb : readSmall 0 s = .ok b0) (hn : payloadLength b0 s.smallLen = some n) :
    deliver s = sendPayload n s := by
  simp only [deliver, hb, withValue_ok, hn]

theorem deliver_underflow {b0 : Byte} (hb : readSmall 0 s = .ok b0) (hn : payloadLength b0 s.smallLen = none)
    (hf : frameFits (diagPayload s.cfg s.cfg.msgShort) s) : deliver s = .next (afterError (.frameTooShort s.smallLen) s) := by
  simp only [deliver, hb, withValue_ok, hn]
  exact raiseError_fits hf

theorem sendPayload_span {span : List Byte} (hspan : span ≠ []) (hr : readSmallSpan 1 span.length s = .ok span) :
    sendPayload span.length s = .next (emit (.radTx span) s) := by
  simp only [sendPayload, List.length_pos_iff.2 hspan, if_true, hr, withValue_ok]

/-- Of a frame whose first byte is 0 all but that byte is delivered (R206, R217). -/
theorem deliver_zero {rest : List Byte} (hs : smallBytes s = some (0 :: rest)) (hrest : rest ≠ []) :
    deliver s = .next (emit (.radTx rest) s) := by
  have hcount : payloadLength 0 s.smallLen = some rest.length := by
    rw [← smallBytes_length hs]
    rfl
  have hspan : readSmallSpan 1 rest.length s = .ok rest :=
    readSmallSpan_of_smallBytes (pre := [0]) (post := []) (by simpa using hs)
  rw [deliver_of_length (readSmall_zero_of_smallBytes hs) hcount, sendPayload_span hrest hspan]

/-- A frame of the first byte, not 0, and the CRC alone has an empty payload, which is not sent (R206, R208). -/
theorem deliver_empty {b0 h l : Byte} (hs : smallBytes s = some [b0, h, l]) (h0 : b0 ≠ 0) : deliver s = .next s := by
  have hcount : payloadLength b0 s.smallLen = some 0 := by
    rw [← smallBytes_length hs]
    exact if_pos h0
  rw [deliver_of_length (readSmall_zero_of_smallBytes hs) hcount]
  rfl

end data

/-- Settles O30, by the first byte and the payload: the check leaves the CRC in the accumulator, and the delivery sends by them. -/
theorem dataFlexDelivers : Obligations.DataFlexDelivers := by
  unfold Obligations.DataFlexDelivers
  intro s port b4 b0 payload k hk hs
  have hcheck : exec (.dataFlex port b4) s = deliver { s with crc := k } := by
    have hlen : 2 ≤ s.smallLen := by rw [← smallBytes_length hs]; simp
    exact (execDataFlex_long hlen).trans (checkCrc_matching hk.symm hs)
  have hs' : smallBytes { s with crc := k } = some (b0 :: payload ++ [hi8 k, lo8 k]) := hs
  refine ⟨fun h0 hp => ?_, fun h0 hp => ?_, fun h0 => ?_⟩ <;> rw [hcheck]
  · exact deliver_payload hs' h0 hp
  · subst hp
    exact deliver_empty hs' h0
  · subst h0
    exact deliver_zero hs' (by simp)

/-- Settles O31: the check finds the CRC that differs, and the delivery the underflow of FF FF, whose CRC is the seed itself. -/
theorem dataFlexReportsErrors : Obligations.DataFlexReportsErrors := by
  unfold Obligations.DataFlexReportsErrors
  refine fun s port b4 => ⟨fun body h l hs hne hf => ?_, fun hs hf => ?_⟩
  · have hlen : 2 ≤ s.smallLen := by rw [← smallBytes_length hs]; simp
    exact (execDataFlex_long hlen).trans (checkCrc_differing hs hne hf)
  · have hlen : s.smallLen = 2 := (smallBytes_length hs).symm
    have hcount : payloadLength 0xFF s.smallLen = none := by rw [hlen]; rfl
    calc execDataFlex s = checkCrc s := execDataFlex_long hlen.ge
      _ = deliver { s with crc := crcSeed } := checkCrc_matching (body := []) rfl hs
      _ = .next (afterError (.frameTooShort s.smallLen) s) :=
        deliver_underflow (s := { s with crc := crcSeed }) (readSmall_zero_of_smallBytes hs) hcount hf
      _ = .next (afterError (.frameTooShort 2) s) := by rw [hlen]

/-- Settles O32: the length is checked first by both, and a low nibble of 0 selects one of them. -/
theorem dataFramesNeedTwoBytes : Obligations.DataFramesNeedTwoBytes := by
  unfold Obligations.DataFramesNeedTwoBytes
  refine fun s hf => ⟨fun hl _ _ => ⟨execDataFlex_short hl hf, execDataNoflag_short hl hf⟩, fun b0 hs hb => ?_⟩
  have hfirst := readSmall_zero_of_smallBytes hs
  have hcmd := cmdOf_of_lowNibble hb
  have hlen : s.smallLen = 1 := (smallBytes_length hs).symm
  have hshort : s.smallLen < 2 := by omega
  rw [← hlen]
  cases hflex : flexOf b0 with
  | true => exact (dispatch_flex hfirst hcmd hflex).trans (execDataFlex_short hshort hf)
  | false => exact (dispatch_noflag hfirst hcmd hflex).trans (execDataNoflag_short hshort hf)

/-- A good frame has the flag (R202). -/
theorem HoldsGoodFrame.flag {s : State} {span : List Byte} {b0 : Byte} (h : HoldsGoodFrame s span)
    (hb : readSmall 0 s = .ok b0) : flexOf b0 = true := by
  obtain ⟨b, _, _, hs, -, hflex, -, -⟩ := h
  obtain rfl : b0 = b := Except.ok.inj (hb.symm.trans (readSmall_zero_of_smallBytes hs))
  exact hflex

/-- Settles O34: the report is DATA_NOFLAG's, and what a dispatch sends to the radio is the payload of a frame with the flag. -/
theorem dataNoflagAlwaysReports : Obligations.DataNoflagAlwaysReports := by
  unfold Obligations.DataNoflagAlwaysReports
  refine fun s => ⟨fun _ _ => ⟨execDataNoflag_short, fun b0 => execDataNoflag_long⟩, fun b0 hb hmask => ?_,
    fun t d hd hmask h span hspan => ?_⟩
  · obtain ⟨hcmd, hflex⟩ := noflagData_of_mask hmask
    rw [dispatch_noflag hb hcmd hflex]
    exact ⟨fun hlen hf => hlen ▸ execDataNoflag_short (by omega) hf, fun hlen hf => execDataNoflag_long hlen hb hf⟩
  · have hgood := (dispatch_radioSends h).newEvents hspan
    exact Bool.false_ne_true ((noflagData_of_mask hmask).2.symm.trans (hgood.flag hd))

/-! ### RESET and the unknown commands (R210 to R214) -/

/-- The flash pattern changes the latch, which it leaves off, and the trace alone (R212). -/
theorem flash_three (s : State) : flash 3 s =
    { s with errInd := false, trace := s.trace ++ [.err true, .err false, .err true, .err false, .err true, .err false] } := by
  simp [flash, setErr, emit]

theorem execReset_succeeded {s : State} (hr : (takeRadioReset s).1 = true) :
    execReset s = .next (emit (.radRst true) (takeRadioReset s).2) := by
  simp only [execReset, hr, if_true]

theorem execReset_failed {s : State} (hr : (takeRadioReset s).1 = false) :
    execReset s = diag s.cfg.msgResetFail (flash 3 (emit (.radRst false) (takeRadioReset s).2)) := by
  simp [execReset, hr, msg]

/-- Settles O35, by the answer of the radio: the flash pattern comes between the request and the report. -/
theorem resetResult : Obligations.ResetResult := by
  unfold Obligations.ResetResult
  refine fun hi s => ⟨fun hr => ?_, fun hr hf => ?_⟩
  · have hreset : exec (.reset hi) s = _ := execReset_succeeded hr
    rw [hreset, emit, takeRadioReset_trace]
  · have hreset : exec (.reset hi) s = _ := execReset_failed hr
    rw [hreset, diag_fits (by simpa [frameFits] using hf), flash_three]
    simp [afterDiag, afterFrame, afterBuild, emit]

/-- Settles O36, by the row: each command is one report of its own text, which writes no indicator. -/
theorem unknownCommandsReport : Obligations.UnknownCommandsReport := by
  unfold Obligations.UnknownCommandsReport
  intro hi s i c hrow hf
  have hreport : exec i s = diag (s.cfg.msgUnknown.get c) s := by
    generalize hp : (i, c) = p at hrow
    fin_cases hrow <;> cases hp <;> rfl
  exact ⟨_, hreport.trans (diag_fits hf), rfl, rfl, rfl⟩

/-! ### What DATA_FLEX leaves unchanged -/

/-- What a DATA_FLEX that goes on has done: one report, or at most a send to the radio, with the CRC left in the accumulator. -/
theorem execDataFlex_cases {s t : State} (h : execDataFlex s = .next t) :
    (∃ k, (msg s.cfg k = s.cfg.msgCrc ∨ msg s.cfg k = s.cfg.msgShort) ∧ t = afterError k s) ∨
    (∃ c, t = { s with crc := c }) ∨ ∃ c bs, t = emit (.radTx bs) { s with crc := c } := by
  rcases execDataFlex_next h with ⟨-, rfl⟩ | ⟨-, h⟩
  · exact .inl ⟨_, .inr rfl, rfl⟩
  · obtain ⟨body, _, _, -, -, -, ⟨-, rfl⟩ | ⟨-, h⟩⟩ := checkCrc_next h
    · exact .inl ⟨_, .inl rfl, rfl⟩
    · rcases deliver_next h with ⟨_, -, -, rfl⟩ | ⟨_, -, -, rfl⟩ | ⟨_, _, bs, -, -, -, -, rfl⟩
      · exact .inl ⟨.frameTooShort s.smallLen, .inr rfl, rfl⟩
      · exact .inr (.inl ⟨_, rfl⟩)
      · exact .inr (.inr ⟨_, bs, rfl⟩)

/-- Settles O49, by what DATA_FLEX has done: a report writes BIG below its own frame's length, a send to the radio writes nothing. -/
theorem frameOfDataFlex : Obligations.FrameOfDataFlex := by
  unfold Obligations.FrameOfDataFlex
  intro s t port b4 h
  rcases execDataFlex_cases h with ⟨k, hk, rfl⟩ | ⟨c, rfl⟩ | ⟨c, bs, rfl⟩
  · exact ⟨rfl, rfl, rfl, rfl, rfl, rfl, rfl, rfl, .inr ⟨_, hk, rfl, by simp [newEvents],
      fun _ ha => afterError_big_above ha⟩⟩
  · exact ⟨rfl, rfl, rfl, rfl, rfl, rfl, rfl, rfl, .inl ⟨rfl, rfl, rfl, by simp [newEvents]⟩⟩
  · exact ⟨rfl, rfl, rfl, rfl, rfl, rfl, rfl, rfl, .inl ⟨rfl, rfl, rfl, by simp [newEvents, Event.isSerTx]⟩⟩

end Sys2Proof.Machine
end

section
/-! PROOFS. The sequencer's family: what the polls do, the order of the phases, and the unit-start clear. -/

namespace Sys2Proof.Machine

/-! ### The polls (R231, R233) -/

theorem execPollRadio_idle {s : State} (h : (takeRadioPeek s).1 = 0) :
    execPollRadio s = .next { (takeRadioPeek s).2 with phase := .pollSerial } := by
  simp [execPollRadio, h]

/-- With bytes at the radio the poll is RELAY, run to completion, and then the phase (R232). -/
theorem execPollRadio_ready {s : State} (h : 0 < (takeRadioPeek s).1) :
    execPollRadio s = andThen (relay (takeRadioPeek s).1 (takeRadioPeek s).2) fun t => .next { t with phase := .pollSerial } := by
  simp [execPollRadio, h]

theorem execPollSerial_idle {s : State} (h : (takeSerialPeek s).1 = 0) :
    execPollSerial s = .next { (takeSerialPeek s).2 with phase := .pollRadio } := by
  simp [execPollSerial, h]

theorem execPollSerial_ready {s : State} (h : 0 < (takeSerialPeek s).1) :
    execPollSerial s = .next (parseStart (takeSerialPeek s).2) := by
  simp [execPollSerial, h]

theorem takeRadioReceive_cons {p : Nat} {s : State} {d : List Byte} {rest : List (List Byte)}
    (h : s.ports.radioReceive = d :: rest) : (takeRadioReceive p s).1 = d := by
  simp [takeRadioReceive, h]

/-- Settles O39: the poll goes on as its relay does, and O14 says what a relay of a scripted answer that fits leaves. -/
theorem pollRadioResult : Obligations.PollRadioResult := by
  unfold Obligations.PollRadioResult
  intro s
  have hrelay {t : State} (h0 : 0 < (takeRadioPeek s).1)
      (ht : exec (.relay (takeRadioPeek s).1) (takeRadioPeek s).2 = .next t) :
      exec .pollRadio s = .next { t with phase := .pollSerial } := by
    have hrun : relay (takeRadioPeek s).1 (takeRadioPeek s).2 = .next t := ht
    exact (execPollRadio_ready h0).trans (by rw [hrun, andThen_next])
  refine ⟨execPollRadio_idle, fun _ => hrelay, fun d rest hd h0 hmax hcap hlen hf => hrelay h0 ?_⟩
  have hanswer : (takeRadioReceive (takeRadioPeek s).1 (unitStartClear (takeRadioPeek s).2)).1 = d :=
    takeRadioReceive_cons (rest := rest) (by simpa using hd)
  obtain ⟨hsent, -⟩ := relaySendsTheFrame (takeRadioPeek s).1 (takeRadioPeek s).2 (by simpa using hmax) (by simpa using hcap)
    (by simpa [radioKeepsContract, hd] using hlen) (by simpa [hanswer, frameFits] using hf)
  rwa [hanswer] at hsent

/-- Settles O40: a byte ready starts a parse, which stands in its first state with an empty SMALL (R170). -/
theorem pollSerialResult : Obligations.PollSerialResult := by
  unfold Obligations.PollSerialResult
  exact fun s => ⟨execPollSerial_idle, fun h0 => ⟨execPollSerial_ready h0, _, execPollSerial_ready h0, rfl, rfl, rfl⟩⟩

/-! ### What a relay leaves to the poll (R142) -/

section relay
variable {p : Nat} {s t : State}

theorem afterError_extends_trace (k : ErrorKind) (s : State) : s.trace <+: (afterError k s).trace :=
  ⟨_, (List.append_assoc ..).symm⟩

/-- All that a relay traces comes after its clear. -/
theorem relay_extends_trace (h : relay p s = .next t) : (unitStartClear s).trace <+: t.trace := by
  have hreceived : (unitStartClear s).trace <+: (relayReceived p s).trace := ⟨_, (relayReceived_trace p s).symm⟩
  rcases relay_next h with ⟨-, rfl, -⟩ | ⟨-, rfl, -, -⟩ | ⟨-, -, -, rfl, -⟩
  · exact afterError_extends_trace _ _
  · exact hreceived.trans ⟨_, rfl⟩
  · exact hreceived.trans (afterError_extends_trace _ (relayFull p s))

theorem relayReceived_ports (p : Nat) (s : State) :
    (relayReceived p s).ports = { s.ports with radioReceive := s.ports.radioReceive.tail } := by
  simp [relayReceived]

/-- Of the ports a relay touches the radio's bytes alone. -/
theorem relay_ports (h : relay p s = .next t) : t.ports = { s.ports with radioReceive := t.ports.radioReceive } := by
  rcases relay_next h with ⟨-, rfl, -⟩ | ⟨-, rfl, -, -⟩ | ⟨-, -, -, rfl, -⟩
  · simp
  · simp [relayReceived_ports]
  · simp [relayReceived_ports]

/-- A relay stores at most the count it was asked for: a longer answer is refused (R144). -/
theorem relay_small_above (h : relay p s = .next t) {a : Nat} (ha : p ≤ a) : Memory.read t.small a = Memory.read s.small a := by
  rcases relay_next h with ⟨-, rfl, -⟩ | ⟨-, rfl, -, hlen⟩ | ⟨-, -, hlen, rfl, -⟩
  · simp
  · exact relayReceived_small_above p s (hlen.trans ha)
  · exact relayReceived_small_above p s (hlen.trans ha)

end relay

/-- Settles O51: an idle poll takes its answer alone, and with bytes at the radio what a relay keeps (O50) is kept. -/
theorem frameOfPollRadio : Obligations.FrameOfPollRadio := by
  unfold Obligations.FrameOfPollRadio
  intro s t h
  rcases execPollRadio_next h with ⟨-, rfl⟩ | ⟨h0, u, hu, rfl⟩
  · simp
  · obtain ⟨hcfg, htable, -, hpstate, -, hbig, -⟩ := frameOfRelay (takeRadioPeek s).2 u (takeRadioPeek s).1 hu
    have hsmall {a : Nat} (ha : (takeRadioPeek s).1 ≤ a) := relay_small_above hu ha
    have hports := relay_ports hu
    simp only [takeRadioPeek_cfg, takeRadioPeek_table, takeRadioPeek_pstate, takeRadioPeek_big, takeRadioPeek_small,
      takeRadioPeek_ports] at hcfg htable hpstate hbig hsmall hports
    exact ⟨hcfg, htable, hpstate, hbig, fun _ => hsmall, hports, fun hne => absurd hne h0.ne'⟩

/-! ### The unit-start clear (R237) -/

theorem parseStart_trace (s : State) : (parseStart s).trace = (unitStartClear s).trace := rfl

theorem parseStart_errInd (s : State) : (parseStart s).errInd = (unitStartClear s).errInd := rfl

/-- Settles O45: each unit goes on from its clear, which writes the latch's event, or nothing where it is off. -/
theorem unitStartClearComesFirst : Obligations.UnitStartClearComesFirst := by
  unfold Obligations.UnitStartClearComesFirst
  intro s t i hi h
  have hclear : (unitStartClear s).trace <+: t.trace := by
    rcases hi with rfl | ⟨p, rfl⟩
    · obtain rfl : parseStart s = t := Host.Outcome.next.inj h
      exact List.prefix_rfl
    · exact relay_extends_trace h
  refine ⟨fun hat => ?_, fun hnever hstart => ?_⟩
  · obtain ⟨es, hes⟩ := hclear
    rw [unitStartClear_atUnitStart s hat, setErr_trace, List.append_assoc] at hes
    exact ⟨es, hes.symm⟩
  · subst hstart
    obtain rfl : parseStart s = t := Host.Outcome.next.inj h
    rw [parseStart_trace, parseStart_errInd, unitStartClear_never s hnever]
    exact ⟨rfl, rfl⟩

/-! ### The order of the phases (R230 to R235) -/

section order
variable {s t : State}

theorem execPollRadio_control (h : execPollRadio s = .next t) : t.phase = .pollSerial ∧ t.pstate = s.pstate := by
  obtain ⟨-, -, hpstate, -⟩ := frameOfPollRadio s t h
  refine ⟨?_, hpstate⟩
  rcases execPollRadio_next h with ⟨-, rfl⟩ | ⟨-, _, -, rfl⟩ <;> rfl

theorem execPollSerial_control (h : execPollSerial s = .next t) :
    (t.phase = .pollRadio ∧ t.pstate = s.pstate) ∨
    (t.phase = .parse ∧ t.pstate = .awaitingFirstDelimiter ∧ t.smallLen = 0) := by
  rcases execPollSerial_next h with ⟨-, rfl⟩ | ⟨-, rfl⟩
  · exact .inr ⟨rfl, rfl, rfl⟩
  · exact .inl ⟨rfl, takeSerialPeek_pstate s⟩

/-- A parse has ended: the poll loop goes on with the radio, and the parser state is terminal (R186, R235). It speaks of the phase and
the parser state alone. -/
def State.ParseEnded (s : State) : Prop :=
  s.phase = .pollRadio ∧ (s.pstate = .done ∨ s.pstate = .overflow ∨ s.pstate = .timeout)

/-- One input of a parse leaves the phase or ends the parse. -/
theorem input_phase (h : InputCase s t) : t.phase = s.phase ∨ t.ParseEnded := by
  cases h with
  | timedOut ht => exact ht ▸ .inr ⟨rfl, .inr (.inr rfl)⟩
  | opened _ ht => exact ht ▸ .inl rfl
  | skipped _ ht => exact ht ▸ .inl rfl
  | escaping _ ht => exact ht ▸ .inl rfl
  | closed u _ hu ht => exact ht ▸ .inr ⟨rfl, .inl (dispatch_keepsFrame hu).pstate⟩
  | overflowed _ ht _ => exact ht ▸ .inr ⟨rfl, .inr (.inl rfl)⟩
  | stored _ _ ht => exact ht ▸ .inl rfl
  | badEscape _ _ ht _ => exact ht ▸ .inl rfl

/-- A step of a parse leaves it in a parse or ends it: a wait leaves the phase, and a parse that stands in Done ends (log entry 8). -/
theorem step_in_parse (h : step s = .next t) (hp : s.phase = .parse) : t.phase = .parse ∨ t.ParseEnded := by
  obtain ⟨-, hc⟩ := step_cases h
  cases hc with
  | radio _ hp' _ _ | serial _ hp' _ _ => rw [hp] at hp'; cases hp'
  | dispatched u _ hd he ht => exact ht ▸ .inr ⟨rfl, .inl ((dispatch_keepsFrame he).pstate.trans hd)⟩
  | waited _ _ _ ht => exact ht ▸ .inl hp
  | input x i u _ _ _ hd he ht =>
    subst ht
    exact (input_phase (input_cases (s := (takeSerial s).2) hd he)).imp_left fun hu => hu.trans hp

end order

/-- Settles O44, by the phase: each poll sets the next phase, and what a parse is left in is a state that takes input (R186). -/
theorem sequencerOrder : Obligations.SequencerOrder := by
  unfold Obligations.SequencerOrder
  intro s t h
  have hparse (hp : s.phase = .parse) : (t.phase = .parse ∧ PState.takesInput t.pstate = true) ∨ t.ParseEnded :=
    (step_in_parse h hp).imp_left fun ht => ⟨ht, step_parsing h ht⟩
  refine ⟨fun hp => ?_, fun hp => ?_, hparse⟩
  · obtain ⟨-, hc⟩ := step_cases h
    cases hc with
    | radio u _ he ht => simpa [ht] using execPollRadio_control he
    | serial _ hp' | dispatched _ hp' | waited hp' | input _ _ _ hp' => rw [hp] at hp'; cases hp'
  · obtain ⟨-, hc⟩ := step_cases h
    cases hc with
    | serial u _ he ht => simpa [ht] using execPollSerial_control he
    | radio _ hp' | dispatched _ hp' | waited hp' | input _ _ _ hp' => rw [hp] at hp'; cases hp'

end Sys2Proof.Machine
end

section
/-! PROOFS. The block's exception entry (R254). -/

namespace Sys2Proof.Machine

/-- The order of R254: the error procedure appends the send of the diagnostic, and after it the write of the indicator. -/
theorem afterError_events (k : ErrorKind) (s : State) :
    (afterError k s).trace = s.trace ++ [.serTx (frame s.table (diagPayload s.cfg (msg s.cfg k))), .err true] := by
  rw [afterError_trace, List.append_assoc, List.singleton_append]

/-- Settles O19: where the report fits the procedure leaves `afterError`, which writes neither SMALL, the parser's fields nor the
ports. The bound on the kind is not needed: `raiseError` is the same procedure for every kind. -/
theorem errorProcedureOrder : Obligations.ErrorProcedureOrder := by
  unfold Obligations.ErrorProcedureOrder
  intro k s _ hfits
  exact ⟨afterError k s, raiseError_fits hfits, afterError_errInd k s, afterError_events k s, afterError_small k s,
    afterError_smallLen k s, afterError_pstate k s, afterError_phase k s, afterError_ports k s⟩

end Sys2Proof.Machine
end

section
/-! PROOFS. The boot constraints (R282.1): what the machine checks is what the rules say, and no step is taken where it fails. -/

namespace Sys2Proof.Machine

theorem isAscii_iff {t : Text} : isAscii t = true ↔ ∀ b ∈ t, b.toNat < 128 := by
  simp only [isAscii, List.all_eq_true, decide_eq_true_eq]

/-- The machine's check, conjunct by conjunct, with R151 as the length of the frame. -/
theorem validConfig_iff {c : Config.Params} :
    validConfig c = true ↔ c.smallCap = c.maxPayload ∧ 3 ≤ c.maxPayload ∧
      ∀ t ∈ texts c, isAscii t = true ∧ (frame c.flexTable (diagPayload c t)).length ≤ c.bigCap := by
  simp only [validConfig, Bool.and_eq_true, decide_eq_true_eq, List.all_eq_true, diagFits_iff, and_assoc]

/-- The length of a text's diagnostic frame, written out from the widths of R72 and the content of R62 to R64. -/
theorem diagFrame_length (c : Config.Params) (t : Text) {content : List Byte}
    (h : content = 0x20 :: c.diagAddr.toList ++ [0x03, 0xF0] ++ t) :
    (frame c.flexTable (diagPayload c t)).length =
      2 + ((content ++ [hi8 (crcOf c.flexTable 0xFFFF content), lo8 (crcOf c.flexTable 0xFFFF content)]).map fun b =>
        if b = 0xC0 ∨ b = 0xDB then 2 else 1).sum := by
  subst h
  exact frame_length _ _

/-- The boot constraints written out are the machine's check. -/
theorem validConfig_iff_bootConstraints (c : Config.Params) : validConfig c = true ↔ BootConstraints c := by
  rw [validConfig_iff]
  constructor
  · rintro ⟨hsmall, hmax, htexts⟩
    exact ⟨hsmall, hmax, fun t ht => isAscii_iff.1 (htexts t ht).1,
      fun t ht content hc => diagFrame_length c t hc ▸ (htexts t ht).2⟩
  · rintro ⟨hsmall, hmax, hascii, hfits⟩
    exact ⟨hsmall, hmax, fun t ht => ⟨isAscii_iff.2 (hascii t ht), diagFrame_length c t rfl ▸ hfits t ht _ rfl⟩⟩

/-- No step is taken under a configuration that fails the check (R282; log entry 19). -/
theorem step_of_invalid {s : State} (h : ¬ validConfig s.cfg = true) : step s = .refused .badConfiguration := if_neg h

/-- Settles O43: each broken constraint contradicts its conjunct of the check, and a failed check refuses the step. -/
theorem stepRefusesBadConfiguration : Obligations.StepRefusesBadConfiguration := by
  unfold Obligations.StepRefusesBadConfiguration
  refine ⟨validConfig_iff_bootConstraints, fun s => ⟨fun hsmall => ?_, fun hmax => ?_, fun t ht hascii => ?_, fun t ht hlong => ?_⟩⟩
  · exact step_of_invalid (validConfig_iff.not.2 fun ⟨hcap, _, _⟩ => hsmall hcap)
  · exact step_of_invalid (validConfig_iff.not.2 fun ⟨_, hthree, _⟩ => hmax.not_ge hthree)
  · exact step_of_invalid (validConfig_iff.not.2 fun ⟨_, _, htexts⟩ => Bool.eq_false_iff.1 hascii (htexts t ht).1)
  · exact step_of_invalid (validConfig_iff.not.2 fun ⟨_, _, htexts⟩ => hlong.not_ge (htexts t ht).2)

end Sys2Proof.Machine
end

section
/-! PROOFS. The CRC's residue law (R105) and the default table's generator (R102). -/

namespace Sys2Proof.Machine

/-- `RES` of R105. -/
def crcResidue (t : Vector Word 256) : Word :=
  ((lo8 (tableAt t 0)).zeroExtend 16 <<< 8) ^^^ tableAt t (hi8 (tableAt t 0))

theorem hi8_xor (v w : Word) : hi8 (v ^^^ w) = hi8 v ^^^ hi8 w := BitVec.extractLsb'_xor

/-- A shift by a byte moves the low half into the high one (R9). -/
theorem hi8_shiftLeft (w : Word) : hi8 (w <<< 8) = lo8 w := by
  ext i hi
  simp [hi8, lo8, show 8 + i < 16 by omega, BitVec.getLsbD_eq_getElem, show i < 16 by omega]

/-- A shift by a byte discards the high half (R100). -/
theorem shiftLeft_eq_lo8 (w : Word) : w <<< 8 = (lo8 w).zeroExtend 16 <<< 8 := by
  ext i hi
  by_cases h : i < 8
  · simp [h]
  · simp [lo8, h, show i - 8 < 8 by omega, show i - 8 < 16 by omega, BitVec.getLsbD_eq_getElem]

/-- The first step of R105 indexes `hi8 c ^ hi8 c`. -/
theorem upd_hi8 (t : Vector Word 256) (c : Word) : upd t c (hi8 c) = (c <<< 8) ^^^ tableAt t 0 := by
  rw [upd, BitVec.xor_self, BitVec.ofNat_eq_ofNat]

/-- The second step of R105, with `w` for the entry the first step read: `lo8 c` cancels itself in the index, and the shift keeps
only the low half of `w`. -/
theorem upd_lo8 (t : Vector Word 256) (c w : Word) :
    upd t ((c <<< 8) ^^^ w) (lo8 c) = ((lo8 w).zeroExtend 16 <<< 8) ^^^ tableAt t (hi8 w) := by
  have hindex : hi8 ((c <<< 8) ^^^ w) ^^^ lo8 c = hi8 w := by
    rw [hi8_xor, hi8_shiftLeft, BitVec.xor_comm, ← BitVec.xor_assoc, BitVec.xor_self, BitVec.zero_xor]
  have hshift : ((c <<< 8) ^^^ w) <<< 8 = w <<< 8 := by
    rw [BitVec.shiftLeft_xor_distrib, ← BitVec.shiftLeft_add, BitVec.shiftLeft_eq_zero (by decide), BitVec.zero_xor]
  rw [upd, hindex, hshift, shiftLeft_eq_lo8]

theorem crcOf_halves (t : Vector Word 256) (c : Word) : crcOf t c [hi8 c, lo8 c] = crcResidue t := by
  rw [crcOf_cons, crcOf_cons, crcOf_nil, upd_hi8, upd_lo8, crcResidue]

/-- A frame's content ends in the halves of the CRC over what stands before them (R62). -/
theorem crcOf_frameContent (t : Vector Word 256) (d : List Byte) : crcOf t crcSeed (frameContent t d) = crcResidue t := by
  rw [frameContent, crcOf_append, ← frameCrc, crcOf_halves]

theorem crcResidue_defaultTable : crcResidue Config.defaultTable = 0x7070 := by decide +kernel

/-- Settles O6: the residue law holds of every accumulator, so of a frame's own CRC. -/
theorem crcResidueLaw : Obligations.CrcResidueLaw := by
  unfold Obligations.CrcResidueLaw
  exact ⟨crcOf_halves, fun c => (crcOf_halves Config.defaultTable c).trans crcResidue_defaultTable, crcOf_frameContent⟩

/-- A read of TABLE is the entry at its index in order (R43). -/
theorem toList_getElem?_eq_tableAt (t : Vector Word 256) (i : Byte) : t.toList[i.toNat]? = some (tableAt t i) :=
  List.getElem?_eq_getElem (Vector.length_toList.symm ▸ i.isLt : i.toNat < t.toList.length)

/-- The default table is the generator's values in order (R102). -/
theorem defaultTable_toList : Config.defaultTable.toList = (List.range 256).map flexGen := by decide +kernel

/-- Settles O7: the table's entries are the generator's values in order, and a read at `i` is the entry in place `i`. -/
theorem defaultTableMatchesGenerator : Obligations.DefaultTableMatchesGenerator := by
  unfold Obligations.DefaultTableMatchesGenerator
  intro i
  have hrow := toList_getElem?_eq_tableAt Config.defaultTable i
  rw [defaultTable_toList, List.getElem?_map, List.getElem?_range i.isLt] at hrow
  exact (Option.some.inj hrow).symm

end Sys2Proof.Machine
end
